-- ==== Sys2Proof/Word.lean ====
section
/-! DEFINITION. The words of R2FFT: bytes, 32-bit register words, 64-bit halves, and the two precisions. -/

namespace Sys2Proof

/-- One byte of BUF (spec/20_memory.md R39). -/
abbrev Byte := BitVec 8

/-- One register word, and one command word (spec/10_state.md R16, spec/30_encoding.md R61). -/
abbrev Word := BitVec 32

/-- One half of an operand register, and one scalar of either precision (spec/10_state.md R31, R32):
a binary64 scalar fills it, a binary32 scalar stands in bits [31:0] with bits [63:32] zero. -/
abbrev Dword := BitVec 64

/-- The two precisions P32 and P64 (spec/42_complex_multiplier.md R107). -/
inductive Prec
  | p32
  | p64
  deriving DecidableEq, Repr

/-- A complex value or a complex operand register: a real and an imaginary half
(spec/10_state.md R31, spec/00_scope.md R9). -/
structure Cplx where
  re : Dword
  im : Dword
  deriving DecidableEq, Repr

end Sys2Proof
end

