-- ==== Sys2Proof/Syntax.lean ====
section
/-! DEFINITION. The eleven commands of the opcode map (spec/30_encoding.md R68), one constructor per row. -/

namespace Sys2Proof

/-- The element formats a buffer command names in FMT (spec/20_memory.md R44). -/
inductive Format
  | f32
  | f64
  | pk64
  deriving DecidableEq, Repr

/-- A command. `fmt` and `prec` are FMT (R63), `inv` is INV (R64), `lut` is LUT (R65: true is LUT mode),
`j` and `m` are ARG (R66). -/
inductive Instr
  | nop
  | fft (fmt : Format) (inv lut : Bool)
  | bitrev (fmt : Format) (lut : Bool)
  | stage (fmt : Format) (lut : Bool) (j : Nat)
  | conj (fmt : Format)
  | inorm (fmt : Format)
  | twgen (m : Nat)
  | ptgen (m : Nat)
  | twread (prec : Prec) (lut : Bool) (m : Nat)
  | cmul (prec : Prec)
  | bfly (prec : Prec)
  deriving DecidableEq, Repr

end Sys2Proof
end

