-- ==== Sys2Proof/WellFormed.lean ====
section
/-! DEFINITION. Which commands exist as command words: ARG is a 5-bit unsigned field (spec/30_encoding.md R66), the
other fields are right by their types. -/

namespace Sys2Proof

/-- The value ARG carries: the stage index or the magnitude, and 0 for a command without one (R66, R68). -/
def Instr.arg : Instr → Nat
  | .nop => 0
  | .fft _ _ _ => 0
  | .bitrev _ _ => 0
  | .stage _ _ j => j
  | .conj _ => 0
  | .inorm _ => 0
  | .twgen m => m
  | .ptgen m => m
  | .twread _ _ m => m
  | .cmul _ => 0
  | .bfly _ => 0

/-- A command is well formed when its ARG fits the field: 0 to 31 (R66; R72: an assembler refuses an ARG above 31). -/
def Instr.wellFormed (i : Instr) : Bool := i.arg < 32

end Sys2Proof
end

