-- ==== Sys2Proof/Decode.lean ====
section
/-! DEFINITION. The command word: the opcode map, the static decoder, and the encoder (spec/30_encoding.md R61 to R71). -/

namespace Sys2Proof

/-- Why a word is no command (spec/30_encoding.md R69, R70). -/
inductive DecodeError
  | badOpcode
  | badField
  deriving DecidableEq, Repr

/-- One row of the opcode map: OP, the match and mask words, and the FMT values the row lists (R68). -/
structure OpRow where
  op : BitVec 4
  pattern : Word
  mask : Word
  fmts : List (BitVec 2)
  deriving DecidableEq, Repr

/-- The opcode map (R68), OP 0x0 to 0xA. -/
def opMap : List OpRow :=
  [ ⟨0x0, 0x00000000, 0xFFFFFFFF, [0]⟩,
    ⟨0x1, 0x00000001, 0xFFFFFF0F, [0, 1, 2]⟩,
    ⟨0x2, 0x00000002, 0xFFFFFF4F, [0, 1, 2]⟩,
    ⟨0x3, 0x00000003, 0xFFFFE04F, [0, 1, 2]⟩,
    ⟨0x4, 0x00000004, 0xFFFFFFCF, [0, 1, 2]⟩,
    ⟨0x5, 0x00000005, 0xFFFFFFCF, [0, 1, 2]⟩,
    ⟨0x6, 0x00000006, 0xFFFFE0FF, [0]⟩,
    ⟨0x7, 0x00000007, 0xFFFFE0FF, [0]⟩,
    ⟨0x8, 0x00000008, 0xFFFFE06F, [0, 1]⟩,
    ⟨0x9, 0x00000009, 0xFFFFFFEF, [0, 1]⟩,
    ⟨0xA, 0x0000000A, 0xFFFFFFEF, [0, 1]⟩ ]

/-- The OP field, w[3:0] (R62). -/
def opField (w : Word) : BitVec 4 := w.extractLsb' 0 4

/-- The FMT field, w[5:4] (R62). -/
def fmtField (w : Word) : BitVec 2 := w.extractLsb' 4 2

/-- The INV field, w[6] (R62, R64). -/
def invField (w : Word) : Bool := w.getLsbD 6

/-- The LUT field, w[7] (R62, R65). -/
def lutField (w : Word) : Bool := w.getLsbD 7

/-- The ARG field, zext_32(w[12:8]) (R62, R66). -/
def argField (w : Word) : Nat := (w.extractLsb' 8 5).toNat

/-- FMT as an element format (R63): 3 is reserved. -/
def Format.ofBits (b : BitVec 2) : Option Format :=
  if b = 0 then some .f32
  else if b = 1 then some .f64
  else if b = 2 then some .pk64
  else none

/-- FMT as a precision (R63): 2 and 3 are no precision. -/
def Prec.ofBits (b : BitVec 2) : Option Prec :=
  if b = 0 then some .p32
  else if b = 1 then some .p64
  else none

/-- The command that a word's fields name, for a word whose fixed bits and FMT value its row has admitted (R68). -/
def commandOfFields (w : Word) : Option Instr :=
  match (opField w).toNat with
  | 0x0 => some .nop
  | 0x1 => (Format.ofBits (fmtField w)).map fun f => .fft f (invField w) (lutField w)
  | 0x2 => (Format.ofBits (fmtField w)).map fun f => .bitrev f (lutField w)
  | 0x3 => (Format.ofBits (fmtField w)).map fun f => .stage f (lutField w) (argField w)
  | 0x4 => (Format.ofBits (fmtField w)).map fun f => .conj f
  | 0x5 => (Format.ofBits (fmtField w)).map fun f => .inorm f
  | 0x6 => some (.twgen (argField w))
  | 0x7 => some (.ptgen (argField w))
  | 0x8 => (Prec.ofBits (fmtField w)).map fun p => .twread p (lutField w) (argField w)
  | 0x9 => (Prec.ofBits (fmtField w)).map fun p => .cmul p
  | 0xA => (Prec.ofBits (fmtField w)).map fun p => .bfly p
  | _ => none

/-- Static decode of a command word (R69): BAD_OPCODE, then BAD_FIELD, then the command. It reads no state. -/
def decode (w : Word) : Except DecodeError Instr :=
  match opMap.find? (fun r => r.op == opField w) with
  | none => .error .badOpcode
  | some row =>
    if w &&& row.mask ≠ row.pattern then .error .badField
    else if ¬ row.fmts.contains (fmtField w) then .error .badField
    else match commandOfFields w with
      | some i => .ok i
      | none => .error .badField

/-- The opcode-table numbering of bits is the command word's own: one 32-bit word, bit 0 the least significant (R61). -/
def decodeTableWord (nbits w : Nat) : Option Instr :=
  let v := w % 2 ^ nbits
  if v < 2 ^ 32 then (decode (BitVec.ofNat 32 v)).toOption else none

/-- FMT of an element format (R63). -/
def Format.bits : Format → Nat
  | .f32 => 0
  | .f64 => 1
  | .pk64 => 2

/-- FMT of a precision (R63). -/
def Prec.bits : Prec → Nat
  | .p32 => 0
  | .p64 => 1

/-- The command word with these fields and RSV = 0 (R62). -/
def commandWord (op fmt : Nat) (inv lut : Bool) (arg : Nat) : Word :=
  BitVec.ofNat 32 (op + fmt * 2 ^ 4 + inv.toNat * 2 ^ 6 + lut.toNat * 2 ^ 7 + arg * 2 ^ 8)

/-- The word of a command (R62, R68, and the Encoding lines of R85, R102 to R104, R118, R120, R123, R126, R130, R132, R136). -/
def encode : Instr → Word
  | .nop => commandWord 0x0 0 false false 0
  | .fft f inv lut => commandWord 0x1 f.bits inv lut 0
  | .bitrev f lut => commandWord 0x2 f.bits false lut 0
  | .stage f lut j => commandWord 0x3 f.bits false lut j
  | .conj f => commandWord 0x4 f.bits false false 0
  | .inorm f => commandWord 0x5 f.bits false false 0
  | .twgen m => commandWord 0x6 0 false false m
  | .ptgen m => commandWord 0x7 0 false false m
  | .twread p lut m => commandWord 0x8 p.bits false lut m
  | .cmul p => commandWord 0x9 p.bits false false 0
  | .bfly p => commandWord 0xA p.bits false false 0

/-- The OP value of a command (R68). -/
def Instr.opcode : Instr → BitVec 4
  | .nop => 0x0
  | .fft _ _ _ => 0x1
  | .bitrev _ _ => 0x2
  | .stage _ _ _ => 0x3
  | .conj _ => 0x4
  | .inorm _ => 0x5
  | .twgen _ => 0x6
  | .ptgen _ => 0x7
  | .twread _ _ _ => 0x8
  | .cmul _ => 0x9
  | .bfly _ => 0xA

/-- FFT, BITREV, STAGE, CONJ and INORM are the buffer commands (spec/00_scope.md R12); each has an element format. -/
def Instr.bufferFormat : Instr → Option Format
  | .nop => none
  | .fft f _ _ => some f
  | .bitrev f _ => some f
  | .stage f _ _ => some f
  | .conj f => some f
  | .inorm f => some f
  | .twgen _ => none
  | .ptgen _ => none
  | .twread _ _ _ => none
  | .cmul _ => none
  | .bfly _ => none

end Sys2Proof
end

