-- ==== Sys2Proof/Config.lean ====
section
/-! DEFINITION. The parameters of an R2FFT instance (spec/00_scope.md R5) and the free values: constants with no body,
about which nothing can be proved beyond their types. -/

namespace Sys2Proof

/-- The operations that can produce a NaN (spec/42_complex_multiplier.md R110). `round` is RN_32 of a binary64 NaN,
which no run reaches; log entry 9. -/
inductive FpOp
  | add
  | sub
  | mul
  | round
  deriving DecidableEq, Repr

/-- A sign and a magnitude for each of the sine and the cosine of one angle: what a twiddle generator chooses. -/
structure TwiddleBits where
  sinNeg : Bool
  sinMag : Nat
  cosNeg : Bool
  cosMag : Nat
  deriving DecidableEq, Repr

/-- MMAX - 18 (spec/00_scope.md R5: 18 ≤ MMAX ≤ 30). Open parameter; log entry 5. -/
opaque Config.mmaxAbove18 : Fin 13

/-- BUF_BYTES / 8 - 1 (spec/00_scope.md R5: a multiple of 8, 8 ≤ BUF_BYTES ≤ 2^32). Open parameter; log entry 5. -/
opaque Config.bufUnits : Fin 536870912

/-- REG_BASE, the host bus address of the register window (spec/00_scope.md R5, spec/20_memory.md R53). Open parameter. -/
opaque Config.regBase : Nat

/-- BUF_BASE, the host bus address of the BUF window (spec/00_scope.md R5, spec/20_memory.md R53). Open parameter. -/
opaque Config.bufBase : Nat

/-- NAN_FN (spec/42_complex_multiplier.md R110): the sign, and a number that selects the payload, of the NaN an
operation returns. Free value; log entry 8. -/
opaque Config.nanFn : FpOp → Prec → Dword → Dword → Bool × Nat

/-- TWIDDLE_FN (spec/41_lookup_tables.md R91 to R93): `none` is the default generator TW_CR, `some f` any other one.
`f k m` is asked only for odd k, that is for a fraction k/2^m in lowest terms. Open parameter; log entry 6. -/
opaque Config.twiddleFn : Option (Nat → Nat → TwiddleBits)

/-- The arbitrary byte that BUF holds at an address after the given number of resets (spec/10_state.md R37,
spec/70_reset_and_hazards.md R164). Free value; log entry 2. -/
opaque Config.bufDraw : Nat → Nat → Byte

/-- The draw that answers the n-th host read of Y0, Y1 or BUF made while BUSY (spec/10_state.md R29,
spec/20_memory.md R42). Free value; log entry 3. -/
opaque Config.readDraw : Nat → Dword

/-- MMAX, the largest magnitude a buffer command accepts. -/
def Config.mmax : Nat := Config.mmaxAbove18.val + 18

/-- BUF_BYTES, the size of BUF in bytes. -/
def Config.bufBytes : Nat := 8 * (Config.bufUnits.val + 1)

/-- The parameters that validation reads (spec/40_commands.md R83). -/
structure Params where
  mmax : Nat
  bufBytes : Nat
  deriving DecidableEq, Repr

/-- This instance's parameters. -/
def Config.params : Params where
  mmax := Config.mmax
  bufBytes := Config.bufBytes

end Sys2Proof
end

