-- ==== Sys2Proof/Machine/State.lean ====
section
/-! DEFINITION. The state of R2FFT as plain data, what its environment can do to it, why a step can stop, and the state
after reset (spec/10_state.md). -/

namespace Sys2Proof.Machine

/-- The error codes of ERRCODE[3:0] that are ever produced (spec/60_exceptions.md R143). -/
inductive ErrCode
  | none
  | badOpcode
  | badField
  | lenOdd
  | lenPow2
  | magRange
  | align
  | bufRange
  | argRange
  deriving DecidableEq, Repr

/-- One entry of a twiddle table: the pair (sin, cos) in binary64 (spec/41_lookup_tables.md R96). -/
structure TwiddlePair where
  sin : Dword
  cos : Dword
  deriving DecidableEq, Repr

/-- The latched command LC: the values captured at acceptance (spec/10_state.md R15, spec/40_commands.md R79). -/
structure Latched where
  word : Word
  base : Word
  len : Word
  m : Nat
  idx : Word
  a : Cplx
  b : Cplx
  w : Cplx
  deriving DecidableEq, Repr

/-- The sample buffer BUF (spec/10_state.md R35, spec/20_memory.md R39): the bytes written since the last reset, by
rising address, and how many resets there have been, which selects the arbitrary bytes of the other addresses. -/
structure Buf where
  cells : List Host.Cell
  epoch : Nat
  deriving DecidableEq, Repr

/-- One host access of `n` bytes, by window and offset (spec/10_state.md R29, spec/20_memory.md R42). A value to be
written stands in the low `n` bytes of its 64 bits. -/
inductive HostAccess
  | readReg (n off : Nat)
  | writeReg (n off : Nat) (v : Dword)
  | readBuf (n a : Nat)
  | writeBuf (n a : Nat) (v : Dword)
  deriving DecidableEq, Repr

/-- One host access of `n` bytes by host bus address (spec/20_memory.md R53): a read, or a write of a value. -/
structure BusAccess where
  addr : Nat
  n : Nat
  write : Option Dword
  deriving DecidableEq, Repr

/-- What the world outside the registers decides comes next, one step each (spec/10_state.md R13, spec/20_memory.md R55,
spec/70_reset_and_hazards.md R163, R176): a host access, the ENGINE's turn, or reset. Log entry 1. -/
inductive Input
  | host (x : HostAccess)
  | bus (x : BusAccess)
  | engine
  | reset
  deriving DecidableEq, Repr

/-- The state of R2FFT (spec/10_state.md R13), and at its end the model's own fields `inputs`, `reply` and `draws`.
STATUS.BUSY, TVALID, PVALID, CAP and IRQ are views of it (log entry 11). -/
structure State where
  /-- The ENGINE phase: IDLE when absent, BUSY holding LC when present (R14, R15). -/
  lc : Option Latched
  /-- STATUS.DONE (R19). -/
  done : Bool
  /-- STATUS.ERR (R19). -/
  err : Bool
  /-- STATUS.OVR (R19). -/
  ovr : Bool
  /-- ERRCODE[3:0] (R20). -/
  errcode : ErrCode
  /-- BASE (R21). -/
  base : Word
  /-- LEN (R22). -/
  len : Word
  /-- IDX (R23). -/
  idx : Word
  /-- MAG[4:0] (R24). -/
  mag : BitVec 5
  /-- IEN.DONE_IE (R27). -/
  doneIe : Bool
  /-- IEN.ERR_IE (R27). -/
  errIe : Bool
  /-- IEN.OVR_IE (R27). -/
  ovrIe : Bool
  /-- Operand register A (R31). -/
  a : Cplx
  /-- Operand register B (R31). -/
  b : Cplx
  /-- Operand register W (R31). -/
  w : Cplx
  /-- Result register Y0 (R31). -/
  y0 : Cplx
  /-- Result register Y1 (R31). -/
  y1 : Cplx
  /-- The built twiddle tables TT[m], by rising m; an m that is not listed is empty (R34). -/
  tt : List (Nat × List TwiddlePair)
  /-- The built permutation tables PT[m], by rising m; an m that is not listed is empty (R34). -/
  pt : List (Nat × List (Nat × Nat))
  /-- BUF (R35). -/
  buf : Buf
  /-- The model's own: the inputs still to come, first one first. Log entry 1. -/
  inputs : List Input
  /-- The model's own: the value the last host access returned, none if it returned none. Log entry 4. -/
  reply : Option Dword
  /-- The model's own: how many draws host reads have taken. Log entry 3. -/
  draws : Nat
  deriving DecidableEq, Repr

/-- Why the machine stops. -/
inductive Fault
  /-- Raised by a host access that is not admitted: another width, misaligned, or out of range
  (spec/20_memory.md R43, spec/60_exceptions.md R152: "A model treats it as a host fault"). Safe. -/
  | hostAccessRefused
  /-- Raised by `exec` asked to run a command while none is latched: the ENGINE has a step exactly when the phase is
  BUSY (spec/40_commands.md R84). `step` never asks this. Safe; log entry 12. -/
  | noLatchedCommand
  deriving DecidableEq, Repr

/-- Why the machine has no meaning for a step. -/
inductive Refusal
  /-- Raised by an arm of `exec` whose instruction has no meaning yet. Safe. -/
  | notModelled (mnemonic : String)
  /-- Raised by the ENGINE step on a latched word that no command encodes. Validation admits no such word
  (spec/40_commands.md R87), so no run reaches it. Safe; log entry 12. -/
  | latchedWordUndecodable
  deriving DecidableEq, Repr

/-- The state right after reset (spec/10_state.md R37, spec/70_reset_and_hazards.md R164). -/
def State.reset : State where
  lc := none
  done := false
  err := false
  ovr := false
  errcode := .none
  base := 0
  len := 0
  idx := 0
  mag := 0
  doneIe := false
  errIe := false
  ovrIe := false
  a := ⟨0, 0⟩
  b := ⟨0, 0⟩
  w := ⟨0, 0⟩
  y0 := ⟨0, 0⟩
  y1 := ⟨0, 0⟩
  tt := []
  pt := []
  buf := ⟨[], 0⟩
  inputs := []
  reply := none
  draws := 0

end Sys2Proof.Machine
end

