-- ==== Sys2Proof/Machine/Ops.lean ====
section
/-! DEFINITION. The named operations over memory and registers: lists keyed by a number, the bytes of BUF, and the steps
every command shares: acceptance, rejection (R2FFT's one error mechanism), acknowledgement, completion, the ENGINE step
and reset. -/

namespace Sys2Proof.Machine

/-- The value listed under a key. -/
def findKey {α : Type} : List (Nat × α) → Nat → Option α
  | [], _ => none
  | (j, v) :: r, k => if j = k then some v else findKey r k

/-- List a value under a key, keeping the keys rising; a value already listed under the key is replaced. -/
def setKey {α : Type} : List (Nat × α) → Nat → α → List (Nat × α)
  | [], k, v => [(k, v)]
  | (j, u) :: r, k, v =>
    if j < k then (j, u) :: setKey r k v
    else if j = k then (k, v) :: r
    else (k, v) :: (j, u) :: r

/-- Every key is above `k` and the keys strictly rise. -/
def keysAbove {α : Type} : Nat → List (Nat × α) → Bool
  | _, [] => true
  | k, (j, _) :: r => decide (k < j) && keysAbove j r

/-- The keys strictly rise. -/
def keysRising {α : Type} : List (Nat × α) → Bool
  | [] => true
  | (j, _) :: r => keysAbove j r

/-- The canonical form of BUF: addresses strictly rising. A listed address holds the byte written there since reset; an
unlisted one holds no value of its own, but a draw (log entry 2), so no listed byte repeats what an unlisted address reads
as. -/
def Memory.wf (b : Buf) : Bool := keysRising b.cells

/-- What an unlisted address of BUF reads as: after reset every byte is an arbitrary value (spec/10_state.md R37,
spec/70_reset_and_hazards.md R164), a free value for each address and each reset. -/
def Buf.unlisted (b : Buf) (a : Nat) : Byte := Config.bufDraw b.epoch a

/-- One byte of BUF. -/
def Buf.byte (b : Buf) (a : Nat) : Byte := (findKey b.cells a).getD (b.unlisted a)

/-- Write one byte of BUF. -/
def Buf.setByte (b : Buf) (a : Nat) (v : Byte) : Buf := { b with cells := setKey b.cells a v }

/-- The n bytes at a, byte a the least significant (spec/20_memory.md R40). -/
def Buf.readNat (b : Buf) (a : Nat) : Nat → Nat
  | 0 => 0
  | n + 1 => (b.byte a).toNat + 256 * Buf.readNat b (a + 1) n

/-- Store the low n bytes of v at a, byte a the least significant (spec/20_memory.md R41). -/
def Buf.writeNat (b : Buf) (a : Nat) : Nat → Nat → Buf
  | 0, _ => b
  | n + 1, v => Buf.writeNat (b.setByte a (BitVec.ofNat 8 v)) (a + 1) n (v / 256)

/-- MemRead(addr, n) (spec/20_memory.md R40), zero-extended to 64 bits. -/
def memRead (b : Buf) (a n : Nat) : Dword := BitVec.ofNat 64 (b.readNat a n)

/-- MemWrite(addr, n, v) (spec/20_memory.md R41). -/
def memWrite (b : Buf) (a n : Nat) (v : Dword) : Buf := b.writeNat a n v.toNat

/-- The low n bytes of a value. -/
def lowBytes (n : Nat) (v : Dword) : Dword := BitVec.ofNat 64 (v.toNat % 2 ^ (8 * n))

/-- `for i in [0, n)` in increasing order (spec/00_scope.md R10). -/
def forRange {α : Type} : Nat → (Nat → α → α) → α → α
  | 0, _, x => x
  | n + 1, f, x => f n (forRange n f x)

/-- The phase is BUSY (spec/10_state.md R14). -/
def State.busy (s : State) : Bool := s.lc.isSome

/-- OP(w) is one of FFT, BITREV, STAGE, CONJ, INORM (spec/30_encoding.md R68). -/
def isBufferOp (w : Word) : Bool := 1 ≤ (opField w).toNat && (opField w).toNat ≤ 5

/-- LC as acceptance captures it (spec/40_commands.md R79). -/
def State.latch (s : State) (w : Word) (m : Nat) : Latched where
  word := w
  base := s.base
  len := s.len
  m := m
  idx := s.idx
  a := s.a
  b := s.b
  w := s.w

/-- Acceptance (spec/40_commands.md R79). -/
def State.accept (s : State) (w : Word) (m : Nat) : State :=
  { s with
    lc := some (s.latch w m)
    mag := if isBufferOp w then BitVec.ofNat 5 m else s.mag
    done := false }

/-- Rejection (spec/40_commands.md R78, spec/60_exceptions.md R146, R147, R149): what taking an error does. Nothing is
saved, no mode changes, control goes nowhere; ERR and ERRCODE record it and DONE is cleared. -/
def State.reject (s : State) (code : ErrCode) : State :=
  { s with err := true, errcode := code, done := false }

/-- Acknowledging an error, R2FFT's counterpart of a return (spec/60_exceptions.md R150): ERR and ERRCODE are cleared. -/
def State.acknowledge (s : State) : State := { s with err := false, errcode := .none }

/-- Completion, the end of the ENGINE step (spec/40_commands.md R84): the phase is IDLE, LC is discarded, DONE is set. -/
def State.complete (s : State) : State := { s with lc := none, done := true }

/-- A host access dropped, or answered with a draw, while BUSY sets OVR (spec/60_exceptions.md R151). -/
def State.overrun (s : State) : State := { s with ovr := true }

/-- The ENGINE step of a command whose rule is `body` (spec/40_commands.md R84, R87): operands come from LC, the command
always completes (R89). Without a latched command the ENGINE has no step. -/
def engineStep (body : Latched → State → State) (s : State) : Host.Outcome State Fault Refusal :=
  match s.lc with
  | none => .fault .noLatchedCommand
  | some lc => .next (body lc s).complete

/-- A fresh draw for a host read of n bytes while BUSY (spec/10_state.md R29, spec/20_memory.md R42). -/
def State.drawReply (s : State) (n : Nat) : State :=
  { s with reply := some (lowBytes n (Config.readDraw s.draws)), draws := s.draws + 1 }

/-- The reset step (spec/70_reset_and_hazards.md R164, R165): every piece of state as after reset, BUF arbitrary anew.
The inputs still to come and the count of draws are the model's own and go on (log entry 13). -/
def State.onReset (s : State) : State :=
  { State.reset with
    buf := { cells := [], epoch := s.buf.epoch + 1 }
    inputs := s.inputs
    draws := s.draws }

end Sys2Proof.Machine
end

