-- ==== Sys2Proof/Machine/Control.lean ====
section
/-! DEFINITION. The control command NOP (spec/40_commands.md R85). -/

namespace Sys2Proof.Machine

/-- NOP (R85): Exec(NOP) = skip; then completion (R84). -/
def execNop (s : State) : Host.Outcome State Fault Refusal := engineStep (fun _ t => t) s

end Sys2Proof.Machine
end

