-- ==== Sys2Proof/Machine/Float.lean ====
section
/-! DEFINITION. IEEE 754 binary32 and binary64 with roundTiesToEven (spec/42_complex_multiplier.md R107 to R112), and the
complex operations over them (R113 to R117).

Every finite value of a precision is a whole number of quanta, the quantum being the smallest subnormal: 2^-149 in P32
and 2^-1074 in P64. So sums are exact integer sums of quanta, products exact integer products, and one function rounds
the exact magnitude to the format. -/

namespace Sys2Proof.Machine

/-- Bits of a value (R107). -/
def fpWidth : Prec → Nat
  | .p32 => 32
  | .p64 => 64

/-- Fraction bits of a value (R107). -/
def fpFrac : Prec → Nat
  | .p32 => 23
  | .p64 => 52

/-- Exponent bits of a value (R107). -/
def fpExp : Prec → Nat
  | .p32 => 8
  | .p64 => 11

/-- The quantum of a precision is 2^-(fpQuantum P). -/
def fpQuantum : Prec → Nat
  | .p32 => 149
  | .p64 => 1074

/-- The value of precision P that a 64-bit half holds: all of it, or its low word (spec/10_state.md R32). -/
def fpTake (P : Prec) (x : Dword) : Dword := BitVec.ofNat 64 (x.toNat % 2 ^ fpWidth P)

/-- The sign bit. -/
def fpSign (P : Prec) (x : Dword) : Bool := x.getLsbD (fpWidth P - 1)

/-- The exponent and fraction bits, as one number. -/
def fpMag (P : Prec) (x : Dword) : Nat := x.toNat % 2 ^ (fpWidth P - 1)

/-- The exponent and fraction bits of an infinity: exponent all ones, fraction 0. -/
def fpInfMag (P : Prec) : Nat := (2 ^ fpExp P - 1) * 2 ^ fpFrac P

/-- A NaN: exponent all ones, fraction not 0. -/
def fpIsNaN (P : Prec) (x : Dword) : Bool := fpInfMag P < fpMag P x

/-- An infinity. -/
def fpIsInf (P : Prec) (x : Dword) : Bool := fpMag P x == fpInfMag P

/-- A finite value. -/
def fpIsFinite (P : Prec) (x : Dword) : Bool := fpMag P x < fpInfMag P

/-- A zero of either sign. -/
def fpIsZero (P : Prec) (x : Dword) : Bool := fpMag P x == 0

/-- The magnitude in quanta that exponent and fraction bits stand for: the fraction alone where the exponent field is 0
(a zero or a subnormal), else 1.fraction scaled by the exponent (R107, R109). -/
def fpMagQuanta (P : Prec) (mag : Nat) : Nat :=
  let e := mag / 2 ^ fpFrac P
  let f := mag % 2 ^ fpFrac P
  if e = 0 then f else (2 ^ fpFrac P + f) * 2 ^ (e - 1)

/-- The magnitude in quanta of a finite value. -/
def fpQuanta (P : Prec) (x : Dword) : Nat := fpMagQuanta P (fpMag P x)

/-- The signed number of quanta of a finite value. -/
def fpSigned (P : Prec) (x : Dword) : Int := if fpSign P x then -(fpQuanta P x : Int) else fpQuanta P x

/-- A value from its sign and its exponent and fraction bits. -/
def fpPack (P : Prec) (neg : Bool) (mag : Nat) : Dword :=
  BitVec.ofNat 64 (mag + if neg then 2 ^ (fpWidth P - 1) else 0)

/-- n / 2^d to the nearest whole number, ties to even. -/
def roundEven (n d : Nat) : Nat :=
  let q := n / 2 ^ d
  let r := n % 2 ^ d
  if 2 ^ d < 2 * r ∨ (2 * r = 2 ^ d ∧ q % 2 = 1) then q + 1 else q

/-- The number of binary digits of n. -/
def bitLength (n : Nat) : Nat := if n = 0 then 0 else Nat.log2 n + 1

/-- The exponent and fraction bits of the magnitude n · 2^-s quanta rounded to P, ties to even, too large a magnitude
going to infinity (R108, R109). Of n the low d bits are rounded away: at least the s bits below the quantum, and as many
as leave no more than fpFrac P + 1 significant bits. The encoding of the rounded significand q at exponent d - s is
(d - s) · 2^frac + q, for a subnormal and for a normal q and when q carried to the next power of two. -/
def roundMag (P : Prec) (n s : Nat) : Nat :=
  let d := max s (bitLength n - (fpFrac P + 1))
  min ((d - s) * 2 ^ fpFrac P + roundEven n d) (fpInfMag P)

/-- The NaN an operation returns (R110): sign and payload from NAN_FN. Every NaN of the precision is some choice of it. -/
def fpNaN (op : FpOp) (P : Prec) (x y : Dword) : Dword :=
  let r := Config.nanFn op P x y
  fpPack P r.1 (fpInfMag P + 1 + r.2 % (2 ^ fpFrac P - 1))

/-- Flip the sign bit and change no other (R111). -/
def fneg (P : Prec) (x : Dword) : Dword := x ^^^ BitVec.ofNat 64 (2 ^ (fpWidth P - 1))

/-- The sum of two values that are not NaN and not infinities of unlike signs (R108): an infinity stays; finite values
are added exactly and rounded once; an exact zero is -0 only where both operands are negative zeros. -/
def fpSum (P : Prec) (x y : Dword) : Dword :=
  if fpIsInf P x then fpPack P (fpSign P x) (fpInfMag P)
  else if fpIsInf P y then fpPack P (fpSign P y) (fpInfMag P)
  else
    let z := fpSigned P x + fpSigned P y
    if z = 0 then fpPack P (fpSign P x && fpSign P y) 0
    else fpPack P (decide (z < 0)) (roundMag P z.natAbs 0)

/-- IEEE addition in precision P (R108, R110). -/
def fadd (P : Prec) (x y : Dword) : Dword :=
  if fpIsNaN P x || fpIsNaN P y || (fpIsInf P x && fpIsInf P y && (fpSign P x != fpSign P y)) then fpNaN .add P x y
  else fpSum P x y

/-- IEEE subtraction in precision P (R108, R110): the sum with the second operand's sign flipped. -/
def fsub (P : Prec) (x y : Dword) : Dword :=
  if fpIsNaN P x || fpIsNaN P y || (fpIsInf P x && fpIsInf P y && (fpSign P x == fpSign P y)) then fpNaN .sub P x y
  else fpSum P x (fneg P y)

/-- IEEE multiplication in precision P (R108, R110): finite values are multiplied exactly, in units of the squared
quantum, and rounded once. -/
def fmul (P : Prec) (x y : Dword) : Dword :=
  if fpIsNaN P x || fpIsNaN P y || (fpIsInf P x && fpIsZero P y) || (fpIsZero P x && fpIsInf P y) then fpNaN .mul P x y
  else if fpIsInf P x || fpIsInf P y then fpPack P (fpSign P x ^^ fpSign P y) (fpInfMag P)
  else fpPack P (fpSign P x ^^ fpSign P y) (roundMag P (fpQuanta P x * fpQuanta P y) (fpQuantum P))

/-- RN_P of a binary64 value (spec/00_scope.md R9, spec/41_lookup_tables.md R95): the identity for P64; for P32 one
rounding. -/
def fpRound (P : Prec) (x : Dword) : Dword :=
  match P with
  | .p64 => x
  | .p32 =>
    if fpIsNaN .p64 x then fpNaN .round .p32 x x
    else if fpIsInf .p64 x then fpPack .p32 (fpSign .p64 x) (fpInfMag .p32)
    else fpPack .p32 (fpSign .p64 x) (roundMag .p32 (fpQuanta .p64 x) (fpQuantum .p64 - fpQuantum .p32))

/-- The value 2^-m in precision P (R117): the quantum count of 1 is 2^(fpQuantum P). Exact for m ≤ 126. -/
def fpPow2Neg (P : Prec) (m : Nat) : Dword := fpPack P false (roundMag P (2 ^ fpQuantum P) m)

/-- scale_P(x, m) = fmul_P(x, 2^-m) (R117). -/
def fscale (P : Prec) (x : Dword) (m : Nat) : Dword := fmul P x (fpPow2Neg P m)

/-- Two results are the same but for the sign and payload of a NaN (R110, R119). -/
def fpSame (P : Prec) (x y : Dword) : Prop := x = y ∨ (fpIsNaN P x = true ∧ fpIsNaN P y = true)

/-- Complex addition (R113). -/
def cadd (P : Prec) (x y : Cplx) : Cplx := ⟨fadd P x.re y.re, fadd P x.im y.im⟩

/-- Complex subtraction (R113). -/
def csub (P : Prec) (x y : Cplx) : Cplx := ⟨fsub P x.re y.re, fsub P x.im y.im⟩

/-- The complex multiplier (R114): four rounded products, one rounded difference, one rounded sum. -/
def cmul (P : Prec) (w z : Cplx) : Cplx :=
  ⟨fsub P (fmul P w.re z.re) (fmul P w.im z.im), fadd P (fmul P w.re z.im) (fmul P w.im z.re)⟩

/-- Conjugation (R115). -/
def cconj (P : Prec) (z : Cplx) : Cplx := ⟨z.re, fneg P z.im⟩

/-- The butterfly unit (R116): new upper and new lower value. -/
def butterfly (P : Prec) (x c w : Cplx) : Cplx × Cplx :=
  let t := cmul P w c
  (cadd P x t, csub P x t)

/-- One element of INORM (spec/43_transform.md R132): scale by 2^-m, then negate the imaginary part. -/
def cnorm (P : Prec) (z : Cplx) (m : Nat) : Cplx := ⟨fscale P z.re m, fneg P (fscale P z.im m)⟩

/-- Two complex results are the same but for the sign and payload of NaN parts (R119). -/
def cSame (P : Prec) (x y : Cplx) : Prop := fpSame P x.re y.re ∧ fpSame P x.im y.im

end Sys2Proof.Machine
end

