-- ==== Sys2Proof/Machine/Operands.lean ====
section
/-! DEFINITION. Where commands find operands and put results: halves of operand registers (spec/10_state.md R31, R32) and
the elements of a buffer (spec/20_memory.md R44 to R48). -/

namespace Sys2Proof.Machine

/-- opnd_P of both halves of an operand register; also what a result in precision P leaves in a register: in P32 the low
word, with bits [63:32] zero (R32). -/
def operandOf (P : Prec) (z : Cplx) : Cplx := ⟨fpTake P z.re, fpTake P z.im⟩

/-- P(F) (R44). -/
def formatPrec : Format → Prec
  | .f32 => .p32
  | .f64 => .p64
  | .pk64 => .p32

/-- ES(F), the bytes of an element (R44). -/
def elemSize : Format → Nat
  | .f32 => 8
  | .f64 => 16
  | .pk64 => 8

/-- AL(F), the alignment of BASE (R44). -/
def elemAlign : Format → Nat
  | .f32 => 4
  | .f64 => 8
  | .pk64 => 8

/-- The address of element i (R44). -/
def elemAddr (F : Format) (base i : Nat) : Nat := base + elemSize F * i

/-- LoadElem(F, i) for a buffer at `base` (R46); PK64 keeps the real part in the upper half of its word (R45). -/
def loadElem (F : Format) (base i : Nat) (buf : Buf) : Cplx :=
  let p := elemAddr F base i
  match F with
  | .f32 => ⟨memRead buf p 4, memRead buf (p + 4) 4⟩
  | .f64 => ⟨memRead buf p 8, memRead buf (p + 8) 8⟩
  | .pk64 =>
    let v := memRead buf p 8
    ⟨v >>> 32, fpTake .p32 v⟩

/-- StoreElem(F, i, z) for a buffer at `base` (R47). -/
def storeElem (F : Format) (base i : Nat) (z : Cplx) (buf : Buf) : Buf :=
  let p := elemAddr F base i
  match F with
  | .f32 => memWrite (memWrite buf p 4 z.re) (p + 4) 4 z.im
  | .f64 => memWrite (memWrite buf p 8 z.re) (p + 8) 8 z.im
  | .pk64 => memWrite buf p 8 ((z.re <<< 32) ||| fpTake .p32 z.im)

/-- The region of a buffer command (R48): the bytes of the 2^m elements at `base`. -/
def inRegion (F : Format) (base m a : Nat) : Prop := base ≤ a ∧ a < base + 2 ^ m * elemSize F

end Sys2Proof.Machine
end

