-- ==== Sys2Proof/Machine/Twiddle.lean ====
section
/-! DEFINITION. The twiddle generator, the twiddle factor, the bit reverser, and the contents of the two lookup tables
(spec/41_lookup_tables.md R91 to R98). -/

namespace Sys2Proof.Machine

/-- The exponent and fraction bits of 1.0 in binary64. -/
def twOneMag : Nat := 0x3FF0000000000000

/-- The fraction k/2^m in lowest terms: (k', m') with k' odd, or (0, 0). -/
def lowestTerms : Nat → Nat → Nat × Nat
  | 0, k => (k, 0)
  | m + 1, k => if k % 2 = 0 then lowestTerms m (k / 2) else (k, m + 1)

/-- A twiddle generator made from a choice of bits for each fraction in lowest terms. The three laws of R92 hold by
construction: TW-SCALE because only the reduced fraction is asked for, TW-ZERO because the angle 0 is not asked for, and
TW-FINITE because a magnitude is at most that of 1.0. Every generator that obeys the laws is made so from some choice. -/
def twiddleOf (choice : Nat → Nat → TwiddleBits) (k m : Nat) : TwiddlePair :=
  let r := lowestTerms m k
  if r.1 = 0 then ⟨fpPack .p64 false 0, fpPack .p64 false twOneMag⟩
  else
    let t := choice r.1 r.2
    ⟨fpPack .p64 t.sinNeg (min t.sinMag twOneMag), fpPack .p64 t.cosNeg (min t.cosMag twOneMag)⟩

/-- Fixed-point fraction bits of the computation of TW_CR. -/
def crBits : Nat := 320

/-- π · 2^320, rounded down. -/
def crPi : Nat := 0x3243F6A8885A308D313198A2E03707344A4093822299F31D0082EFA98EC4E6C89452821E638D01377

/-- The alternating power series of sine (first term x, d = 1) or cosine (first term 1, d = 0) at x, all in fixed point:
each term is the last one times x² / ((d+1)(d+2)). The last argument is the number of terms. -/
def crSeries (x2 : Nat) (term : Nat) (d : Nat) : Nat → Int
  | 0 => 0
  | n + 1 => (term : Int) - crSeries x2 (term * x2 / 2 ^ crBits / ((d + 1) * (d + 2))) (d + 2) n

/-- The exponent and fraction bits of the binary64 value nearest to a fixed-point number between 0 and 1. -/
def crRound (v : Int) : Nat := roundMag .p64 (v.toNat * 2 ^ fpQuantum .p64) crBits

/-- Magnitudes of sine and cosine of 2π·k/2^m for an angle of at most π/4, correctly rounded to binary64. -/
def crOctant (k m : Nat) : Nat × Nat :=
  let x := crPi * k / 2 ^ (m - 1)
  let x2 := x * x / 2 ^ crBits
  (crRound (crSeries x2 x 1 40), crRound (crSeries x2 (2 ^ crBits) 0 40))

/-- Magnitudes of sine and cosine of 2π·k/2^m for an angle of at most π/2: above π/4 they are those of π/2 minus the
angle, exchanged. The angle π/2 itself is exact. -/
def crQuadrant (k m : Nat) : Nat × Nat :=
  if 4 * k = 2 ^ m then (twOneMag, 0)
  else if 2 ^ m < 8 * k then
    let r := crOctant (2 ^ (m - 2) - k) m
    (r.2, r.1)
  else crOctant k m

/-- TW_CR's choice of bits (R93): sine and cosine of the exact angle 2π·k/2^m in [0, π), each rounded to nearest. The
angle is reduced exactly, on integers; log entry 7 says what the fixed-point computation rests on. -/
def crChoice (k m : Nat) : TwiddleBits :=
  if 2 ^ m < 4 * k then
    let r := crQuadrant (2 ^ (m - 1) - k) m
    ⟨false, r.1, true, r.2⟩
  else
    let r := crQuadrant k m
    ⟨false, r.1, false, r.2⟩

/-- The default generator TW_CR (R93). -/
def twCr (k m : Nat) : TwiddlePair := twiddleOf crChoice k m

/-- TW64(k, m), this instance's generator TWIDDLE_FN (R91, R92): TW_CR, or another that obeys the laws. -/
def tw64 (k m : Nat) : TwiddlePair := twiddleOf (Config.twiddleFn.getD crChoice) k m

/-- The twiddle factor w_P(s, c) = (RN_P(c), -RN_P(s)) (R95, R106). -/
def twiddleFactor (P : Prec) (t : TwiddlePair) : Cplx := ⟨fpRound P t.cos, fneg P (fpRound P t.sin)⟩

/-- The contents of TT[m] once built (R96): TW64(k, m) for k in [0, 2^(m-1)), and nothing for m = 0. -/
def twiddleTable (m : Nat) : List TwiddlePair :=
  if m = 0 then [] else (List.range (2 ^ (m - 1))).map fun k => tw64 k m

/-- Reversal of the low m bits of k (R97): bit b moves to bit m-1-b. -/
def bitRev (m k : Nat) : Nat := ((List.range m).map fun b => k / 2 ^ b % 2 * 2 ^ (m - 1 - b)).sum

/-- The contents of PT[m] once built, and the swaps the live bit reverser makes (R98, spec/43_transform.md R123):
(i, rev_m(i)) for every i with rev_m(i) > i, by increasing i. -/
def swapPairs (m : Nat) : List (Nat × Nat) :=
  ((List.range (2 ^ m)).filter fun i => i < bitRev m i).map fun i => (i, bitRev m i)

end Sys2Proof.Machine
end

