-- ==== Sys2Proof/Machine/Tables.lean ====
section
/-! DEFINITION. Building and reading the lookup tables (spec/41_lookup_tables.md R94, R99), and the table commands TWGEN
and PTGEN (R102, R103). -/

namespace Sys2Proof.Machine

/-- buildTT(m) (R99): a built table is left as it is. -/
def State.buildTT (s : State) (m : Nat) : State :=
  match findKey s.tt m with
  | some _ => s
  | none => { s with tt := setKey s.tt m (twiddleTable m) }

/-- buildPT(m) (R99): a built table is left as it is. -/
def State.buildPT (s : State) (m : Nat) : State :=
  match findKey s.pt m with
  | some _ => s
  | none => { s with pt := setKey s.pt m (swapPairs m) }

/-- TT[m][k]. Where the table has no such entry, which no accepted command reads (spec/40_commands.md R82,
spec/43_transform.md R126), the value R96 gives the entry (log entry 15). -/
def tableEntry (tt : List (Nat × List TwiddlePair)) (m k : Nat) : TwiddlePair :=
  ((findKey tt m).bind fun t => t[k]?).getD (tw64 k m)

/-- twiddlePair(LUT, m, j, o) (R94). -/
def twiddlePair (lut : Bool) (tt : List (Nat × List TwiddlePair)) (m j o : Nat) : TwiddlePair :=
  if lut then tableEntry tt m (o * 2 ^ (m - j)) else tw64 o j

/-- TWGEN m (R102). -/
def execTwgen (m : Nat) (s : State) : Host.Outcome State Fault Refusal := engineStep (fun _ t => t.buildTT m) s

/-- PTGEN m (R103). -/
def execPtgen (m : Nat) (s : State) : Host.Outcome State Fault Refusal := engineStep (fun _ t => t.buildPT m) s

end Sys2Proof.Machine
end

