-- ==== Sys2Proof/Machine/RegisterCommands.lean ====
section
/-! DEFINITION. The register commands TWREAD, CMUL and BFLY (spec/41_lookup_tables.md R104, spec/42_complex_multiplier.md
R118, R120). -/

namespace Sys2Proof.Machine

/-- The pair TWREAD reads for index k (R104): from TT[m], or live. -/
def twreadPair (lut : Bool) (tt : List (Nat × List TwiddlePair)) (m k : Nat) : TwiddlePair :=
  if lut then tableEntry tt m k else tw64 k m

/-- TWREAD's rule (R104): in LUT mode build TT[m] if it is empty; then Y0 is the twiddle factor. -/
def twreadRule (P : Prec) (lut : Bool) (m : Nat) (lc : Latched) (s : State) : State :=
  let t := if lut then s.buildTT m else s
  { t with y0 := operandOf P (twiddleFactor P (twreadPair lut t.tt m lc.idx.toNat)) }

/-- TWREAD (R104). -/
def execTwread (P : Prec) (lut : Bool) (m : Nat) (s : State) : Host.Outcome State Fault Refusal :=
  engineStep (twreadRule P lut m) s

/-- CMUL (R118): Y0 is the product of A and B. -/
def execCmul (P : Prec) (s : State) : Host.Outcome State Fault Refusal :=
  engineStep (fun lc t => { t with y0 := operandOf P (cmul P (operandOf P lc.a) (operandOf P lc.b)) }) s

/-- BFLY (R120): Y0 and Y1 are the butterfly of A and B with twiddle W. -/
def execBfly (P : Prec) (s : State) : Host.Outcome State Fault Refusal :=
  engineStep (fun lc t =>
    let r := butterfly P (operandOf P lc.a) (operandOf P lc.b) (operandOf P lc.w)
    { t with y0 := operandOf P r.1, y1 := operandOf P r.2 }) s

end Sys2Proof.Machine
end

