-- ==== Sys2Proof/Machine/Transform.lean ====
section
/-! DEFINITION. The passes over a buffer and the buffer commands BITREV, STAGE, CONJ, INORM and FFT
(spec/43_transform.md R123 to R137). -/

namespace Sys2Proof.Machine

/-- Replace every element i in [0, n), in increasing order, by a function of it. -/
def mapElems (F : Format) (base n : Nat) (f : Cplx → Cplx) (buf : Buf) : Buf :=
  forRange n (fun i b => storeElem F base i (f (loadElem F base i b)) b) buf

/-- Exchange the elements of each pair, pair after pair (R123): both are read before either is written. -/
def swapElems (F : Format) (base : Nat) : List (Nat × Nat) → Buf → Buf
  | [], b => b
  | (i, r) :: rest, b =>
    let zi := loadElem F base i b
    let zr := loadElem F base r b
    swapElems F base rest (storeElem F base r zi (storeElem F base i zr b))

/-- One butterfly of the network (R126): on elements i and i + h. -/
def stagePair (F : Format) (base h : Nat) (w : Cplx) (i : Nat) (b : Buf) : Buf :=
  let x := loadElem F base i b
  let c := loadElem F base (i + h) b
  let r := butterfly (formatPrec F) x c w
  storeElem F base (i + h) r.2 (storeElem F base i r.1 b)

/-- Butterfly stage j of a buffer of magnitude m (R126), with the twiddle of each offset given. The half step h is
2^j / 2, and offset o has 2^m / 2^j groups, at o, o + s, o + 2s, ... So for the stage indices that validation rejects,
j = 0 and j > m, no butterfly is made (log entry 14). -/
def stageElems (F : Format) (base m j : Nat) (tw : Nat → Cplx) (buf : Buf) : Buf :=
  forRange (2 ^ j / 2) (fun o b =>
    forRange (2 ^ m / 2 ^ j) (fun g b' => stagePair F base (2 ^ j / 2) (tw o) (o + g * 2 ^ j) b') b) buf

/-- Exec(CONJ) on the latched buffer (R130). -/
def conjPass (F : Format) (lc : Latched) (s : State) : State :=
  { s with buf := mapElems F lc.base.toNat (2 ^ lc.m) (cconj (formatPrec F)) s.buf }

/-- Exec(INORM) on the latched buffer (R132): the factor is 2^-m (R133). -/
def inormPass (F : Format) (lc : Latched) (s : State) : State :=
  { s with buf := mapElems F lc.base.toNat (2 ^ lc.m) (fun z => cnorm (formatPrec F) z lc.m) s.buf }

/-- The swaps BITREV makes (R123): PT[m] in LUT mode, else the live bit reverser's. -/
def bitrevPairs (lut : Bool) (pt : List (Nat × List (Nat × Nat))) (m : Nat) : List (Nat × Nat) :=
  if lut then (findKey pt m).getD (swapPairs m) else swapPairs m

/-- Exec(BITREV) on the latched buffer (R123). -/
def bitrevPass (F : Format) (lut : Bool) (lc : Latched) (s : State) : State :=
  let t := if lut then s.buildPT lc.m else s
  { t with buf := swapElems F lc.base.toNat (bitrevPairs lut t.pt lc.m) t.buf }

/-- Exec(STAGE j) on the latched buffer (R126). -/
def stagePass (F : Format) (lut : Bool) (j : Nat) (lc : Latched) (s : State) : State :=
  let t := if lut then s.buildTT lc.m else s
  { t with
    buf := stageElems F lc.base.toNat lc.m j
      (fun o => twiddleFactor (formatPrec F) (twiddlePair lut t.tt lc.m j o)) t.buf }

/-- Exec(FFT) on the latched buffer (R136): nothing at magnitude 0 (R137); else conjugate (inverse only), permute, stages
1 to m in ascending order (R134), scale and conjugate (inverse only). -/
def fftPasses (F : Format) (inv lut : Bool) (lc : Latched) (s : State) : State :=
  if lc.m = 0 then s
  else
    let s1 := if inv then conjPass F lc s else s
    let s2 := bitrevPass F lut lc s1
    let s3 := forRange lc.m (fun i t => stagePass F lut (i + 1) lc t) s2
    if inv then inormPass F lc s3 else s3

/-- FFT (R136). -/
def execFft (F : Format) (inv lut : Bool) (s : State) : Host.Outcome State Fault Refusal :=
  engineStep (fftPasses F inv lut) s

/-- BITREV (R123). -/
def execBitrev (F : Format) (lut : Bool) (s : State) : Host.Outcome State Fault Refusal :=
  engineStep (bitrevPass F lut) s

/-- STAGE (R126). -/
def execStage (F : Format) (lut : Bool) (j : Nat) (s : State) : Host.Outcome State Fault Refusal :=
  engineStep (stagePass F lut j) s

/-- CONJ (R130). -/
def execConj (F : Format) (s : State) : Host.Outcome State Fault Refusal := engineStep (conjPass F) s

/-- INORM (R132). -/
def execInorm (F : Format) (s : State) : Host.Outcome State Fault Refusal := engineStep (inormPass F) s

end Sys2Proof.Machine
end

