-- ==== Sys2Proof/Machine/Dispatch.lean ====
section
/-! DEFINITION. Exec(LC) dispatches on the command (spec/40_commands.md R87): one arm per constructor. -/

namespace Sys2Proof.Machine

def exec (i : Instr) (s : State) : Host.Outcome State Fault Refusal :=
  match i with
  | .nop => Sys2Proof.Machine.execNop s
  | .fft fmt inv lut => Sys2Proof.Machine.execFft fmt inv lut s
  | .bitrev fmt lut => Sys2Proof.Machine.execBitrev fmt lut s
  | .stage fmt lut j => Sys2Proof.Machine.execStage fmt lut j s
  | .conj fmt => Sys2Proof.Machine.execConj fmt s
  | .inorm fmt => Sys2Proof.Machine.execInorm fmt s
  | .twgen m => Sys2Proof.Machine.execTwgen m s
  | .ptgen m => Sys2Proof.Machine.execPtgen m s
  | .twread prec lut m => Sys2Proof.Machine.execTwread prec lut m s
  | .cmul prec => Sys2Proof.Machine.execCmul prec s
  | .bfly prec => Sys2Proof.Machine.execBfly prec s

end Sys2Proof.Machine
end

