-- ==== Sys2Proof/Machine/Flags.lean ====
section
/-! DEFINITION. The status and control words: STATUS, ERRCODE, MAG, TVALID, PVALID, IEN, CAP and the IRQ output
(spec/10_state.md R17 to R27, R36). R2FFT has no arithmetic flags (R33). -/

namespace Sys2Proof.Machine

/-- The code of an error (spec/60_exceptions.md R143). -/
def ErrCode.code : ErrCode → Nat
  | .none => 0
  | .badOpcode => 1
  | .badField => 2
  | .lenOdd => 3
  | .lenPow2 => 4
  | .magRange => 5
  | .align => 6
  | .bufRange => 7
  | .argRange => 8

/-- STATUS (R19): BUSY, DONE, ERR, OVR in bits 0 to 3, the rest 0. -/
def State.statusWord (s : State) : Word :=
  BitVec.ofNat 32 (s.busy.toNat + 2 * s.done.toNat + 4 * s.err.toNat + 8 * s.ovr.toNat)

/-- A host write of v to STATUS (R19): W1C of DONE, ERR (which also clears ERRCODE, R20) and OVR. -/
def State.writeStatus (s : State) (v : Word) : State :=
  let s1 := if v.getLsbD 1 then { s with done := false } else s
  let s2 := if v.getLsbD 2 then s1.acknowledge else s1
  if v.getLsbD 3 then { s2 with ovr := false } else s2

/-- ERRCODE (R20). -/
def State.errcodeWord (s : State) : Word := BitVec.ofNat 32 s.errcode.code

/-- MAG (R24): bits [31:5] read 0. -/
def State.magWord (s : State) : Word := s.mag.setWidth 32

/-- A word with bit m set for each m ≤ MMAX that is listed in a table cache. -/
def validBits {α : Type} (tables : List (Nat × α)) : Word :=
  BitVec.ofNat 32 ((List.range 31).map fun m => (decide (m ≤ Config.mmax) && (findKey tables m).isSome).toNat * 2 ^ m).sum

/-- TVALID (R25). -/
def State.tvalidWord (s : State) : Word := validBits s.tt

/-- PVALID (R26). -/
def State.pvalidWord (s : State) : Word := validBits s.pt

/-- IEN (R27): DONE_IE, ERR_IE, OVR_IE in bits 0 to 2, the rest 0. -/
def State.ienWord (s : State) : Word :=
  BitVec.ofNat 32 (s.doneIe.toNat + 2 * s.errIe.toNat + 4 * s.ovrIe.toNat)

/-- A host write of v to IEN (R27). -/
def State.writeIen (s : State) (v : Word) : State :=
  { s with doneIe := v.getLsbD 0, errIe := v.getLsbD 1, ovrIe := v.getLsbD 2 }

/-- CAP (R17): MMAX in [4:0], the three format bits, revision 1 in [15:8]. -/
def capWord : Word := 0x000001E0#32 ||| BitVec.ofNat 32 Config.mmax

/-- The IRQ output (R36). -/
def State.irq (s : State) : Bool := (s.done && s.doneIe) || (s.err && s.errIe) || (s.ovr && s.ovrIe)

end Sys2Proof.Machine
end

