-- ==== Sys2Proof/Machine/Validate.lean ====
section
/-! DEFINITION. Validation of a command word (spec/40_commands.md R80 to R83, spec/60_exceptions.md R143, R144). -/

namespace Sys2Proof.Machine

/-- floorLog2 (R80): -1 at 0, else the largest e with 2^e ≤ n. -/
def floorLog2 (n : Nat) : Int := if n = 0 then -1 else (Nat.log2 n : Int)

/-- ceilLog2 (R80): -1 at 0, else the smallest e with n ≤ 2^e. -/
def ceilLog2 (n : Nat) : Int :=
  if n = 0 then -1
  else if 2 ^ Nat.log2 n = n then (Nat.log2 n : Int)
  else (Nat.log2 n : Int) + 1

/-- isPowerOfTwo (R80): 0 is none. -/
def isPowerOfTwo (n : Nat) : Bool := decide (1 ≤ n) && floorLog2 n == ceilLog2 n

/-- The length check of a buffer command (R80): LEN_ODD, LEN_POW2, MAG_RANGE, or the magnitude. -/
def checkLength (p : Params) (L : Nat) : Except ErrCode Nat :=
  if L % 2 = 1 then .error .lenOdd
  else if ¬ isPowerOfTwo (L / 2) then .error .lenPow2
  else if p.mmax < (floorLog2 (L / 2)).toNat then .error .magRange
  else .ok (floorLog2 (L / 2)).toNat

/-- The region check of a buffer command (R81): ALIGN, BUF_RANGE, or nothing. The sum does not wrap. -/
def checkRegion (p : Params) (F : Format) (base m : Nat) : Option ErrCode :=
  if base % elemAlign F ≠ 0 then some .align
  else if p.bufBytes < base + 2 ^ m * elemSize F then some .bufRange
  else none

/-- The argument check (R82), with the magnitude m found for STAGE and k = x[IDX] for TWREAD. -/
def checkArg (p : Params) (i : Instr) (m k : Nat) : Option ErrCode :=
  match i with
  | .stage _ _ j => if j < 1 ∨ m < j then some .argRange else none
  | .twgen n => if p.mmax < n then some .argRange else none
  | .ptgen n => if p.mmax < n then some .argRange else none
  | .twread _ _ n => if n < 1 ∨ p.mmax < n then some .argRange else if 2 ^ (n - 1) ≤ k then some .argRange else none
  | .nop => none
  | .fft _ _ _ => none
  | .bitrev _ _ => none
  | .conj _ => none
  | .inorm _ => none
  | .cmul _ => none
  | .bfly _ => none

/-- The code of a decode error (R143). -/
def decodeErrCode : DecodeError → ErrCode
  | .badOpcode => .badOpcode
  | .badField => .badField

/-- validate(w) (R144) with the values of BASE, LEN and IDX: an error code, or the accepted magnitude. The first cause in
the order word form, length, region, argument is reported. It reads nothing else (R83). -/
def validateWord (p : Params) (base len idx w : Word) : Except ErrCode Nat :=
  match decode w with
  | .error e => .error (decodeErrCode e)
  | .ok i =>
    match i.bufferFormat with
    | some F =>
      match checkLength p len.toNat with
      | .error c => .error c
      | .ok m =>
        match checkRegion p F base.toNat m with
        | some c => .error c
        | none =>
          match checkArg p i m idx.toNat with
          | some c => .error c
          | none => .ok m
    | none =>
      match checkArg p i 0 idx.toNat with
      | some c => .error c
      | none => .ok i.arg

/-- validate(w) in a state of this instance (R83, R144). -/
def State.validate (s : State) (w : Word) : Except ErrCode Nat := validateWord Config.params s.base s.len s.idx w

/-- A host write of w to CMD (R77): dropped with OVR while BUSY, else rejected or accepted in this step. -/
def State.issue (s : State) (w : Word) : State :=
  if s.busy then s.overrun
  else match s.validate w with
    | .error c => s.reject c
    | .ok m => s.accept w m

end Sys2Proof.Machine
end

