-- ==== Sys2Proof/Machine/Host.lean ====
section
/-! DEFINITION. Host accesses: the register map (spec/10_state.md R16, R29, R31), BUF (spec/20_memory.md R42, R43), and
the two host-bus windows (R53). -/

namespace Sys2Proof.Machine

/-- The five operand registers (R31). -/
inductive OperandReg
  | a
  | b
  | w
  | y0
  | y1
  deriving DecidableEq, Repr

/-- The registers of the window (R16). An operand word is named by its register, imaginary or real half, and HI or LO. -/
inductive Reg
  | cap
  | cmd
  | status
  | errcode
  | base
  | len
  | idx
  | mag
  | tvalid
  | pvalid
  | ien
  | operand (r : OperandReg) (im hi : Bool)
  | reserved
  deriving DecidableEq, Repr

/-- The operand word at an offset from 0x040, in words (R31). -/
def operandAt (k : Nat) : Reg :=
  match k / 4 with
  | 0 => .operand .a (2 ≤ k % 4) (k % 2 == 1)
  | 1 => .operand .b (2 ≤ k % 4) (k % 2 == 1)
  | 2 => .operand .w (2 ≤ k % 4) (k % 2 == 1)
  | 3 => .operand .y0 (2 ≤ k % 4) (k % 2 == 1)
  | 4 => .operand .y1 (2 ≤ k % 4) (k % 2 == 1)
  | _ => .reserved

/-- The register at a byte offset of the window (R16, R28). -/
def regAt (off : Nat) : Reg :=
  match off / 4 with
  | 0x0 => .cap
  | 0x1 => .cmd
  | 0x2 => .status
  | 0x3 => .errcode
  | 0x4 => .base
  | 0x5 => .len
  | 0x6 => .idx
  | 0x7 => .mag
  | 0x8 => .tvalid
  | 0x9 => .pvalid
  | 0xA => .ien
  | k => if k < 0x10 then .reserved else operandAt (k - 0x10)

/-- The value of an operand register. -/
def State.operandReg (s : State) : OperandReg → Cplx
  | .a => s.a
  | .b => s.b
  | .w => s.w
  | .y0 => s.y0
  | .y1 => s.y1

/-- One word of a 64-bit half: LO is bits [31:0], HI bits [63:32] (R31). -/
def halfWord (x : Dword) (hi : Bool) : Word := if hi then x.extractLsb' 32 32 else x.extractLsb' 0 32

/-- A 64-bit half with one word replaced (R31). -/
def setHalfWord (x : Dword) (hi : Bool) (v : Word) : Dword :=
  if hi then v ++ x.extractLsb' 0 32 else x.extractLsb' 32 32 ++ v

/-- One word of an operand register. -/
def operandWord (z : Cplx) (im hi : Bool) : Word := halfWord (if im then z.im else z.re) hi

/-- An operand register with one word replaced. -/
def setOperandWord (z : Cplx) (im hi : Bool) (v : Word) : Cplx :=
  if im then { z with im := setHalfWord z.im hi v } else { z with re := setHalfWord z.re hi v }

/-- The value a register reads as (R16 to R28, R31): CMD and reserved offsets read 0. -/
def State.readReg (s : State) : Reg → Word
  | .cap => capWord
  | .cmd => 0
  | .status => s.statusWord
  | .errcode => s.errcodeWord
  | .base => s.base
  | .len => s.len
  | .idx => s.idx
  | .mag => s.magWord
  | .tvalid => s.tvalidWord
  | .pvalid => s.pvalidWord
  | .ien => s.ienWord
  | .operand r im hi => operandWord (s.operandReg r) im hi
  | .reserved => 0

/-- A write while BUSY to these registers is dropped and sets OVR (R29 (a), (b)). -/
def Reg.dropsWhileBusy : Reg → Bool
  | .cmd => true
  | .base => true
  | .len => true
  | .idx => true
  | .operand .a _ _ => true
  | .operand .b _ _ => true
  | .operand .w _ _ => true
  | .operand .y0 _ _ => false
  | .operand .y1 _ _ => false
  | .cap => false
  | .status => false
  | .errcode => false
  | .mag => false
  | .tvalid => false
  | .pvalid => false
  | .ien => false
  | .reserved => false

/-- A read while BUSY of these registers returns a draw and sets OVR (R29 (c)). -/
def Reg.drawsWhileBusy : Reg → Bool
  | .operand .y0 _ _ => true
  | .operand .y1 _ _ => true
  | .operand .a _ _ => false
  | .operand .b _ _ => false
  | .operand .w _ _ => false
  | .cap => false
  | .cmd => false
  | .status => false
  | .errcode => false
  | .base => false
  | .len => false
  | .idx => false
  | .mag => false
  | .tvalid => false
  | .pvalid => false
  | .ien => false
  | .reserved => false

/-- What a write that is not dropped does (R16 to R31): read-only registers and reserved offsets ignore it. -/
def State.writeReg (s : State) (v : Word) : Reg → State
  | .cmd => s.issue v
  | .status => s.writeStatus v
  | .base => { s with base := v }
  | .len => { s with len := v }
  | .idx => { s with idx := v }
  | .ien => s.writeIen v
  | .operand .a im hi => { s with a := setOperandWord s.a im hi v }
  | .operand .b im hi => { s with b := setOperandWord s.b im hi v }
  | .operand .w im hi => { s with w := setOperandWord s.w im hi v }
  | .operand .y0 _ _ => s
  | .operand .y1 _ _ => s
  | .cap => s
  | .errcode => s
  | .mag => s
  | .tvalid => s
  | .pvalid => s
  | .reserved => s

/-- A register access is admitted: a 32-bit access at a multiple of 4 within the 4 KiB window (R29). -/
def regAdmitted (n off : Nat) : Bool := n == 4 && off % 4 == 0 && decide (off < 4096)

/-- A BUF access is admitted (spec/20_memory.md R42). -/
def bufAdmitted (p : Params) (n a : Nat) : Bool :=
  [1, 2, 4, 8].contains n && a % n == 0 && decide (a + n ≤ p.bufBytes)

/-- A host access is admitted (R29, R42). -/
def HostAccess.admitted : HostAccess → Bool
  | .readReg n off => regAdmitted n off
  | .writeReg n off _ => regAdmitted n off
  | .readBuf n a => bufAdmitted Config.params n a
  | .writeBuf n a _ => bufAdmitted Config.params n a

/-- A value returned to the host. -/
def State.answer (s : State) (v : Dword) : State := { s with reply := some v }

/-- No value returned to the host. -/
def State.noAnswer (s : State) : State := { s with reply := none }

/-- An admitted host access (R29, R42). -/
def State.access (s : State) : HostAccess → State
  | .readReg n off =>
    if s.busy && (regAt off).drawsWhileBusy then (s.drawReply n).overrun
    else s.answer ((s.readReg (regAt off)).setWidth 64)
  | .writeReg _ off v =>
    if s.busy && (regAt off).dropsWhileBusy then s.noAnswer.overrun
    else s.noAnswer.writeReg (v.setWidth 32) (regAt off)
  | .readBuf n a =>
    if s.busy then (s.drawReply n).overrun else s.answer (memRead s.buf a n)
  | .writeBuf n a v =>
    if s.busy then s.noAnswer.overrun else { s.noAnswer with buf := memWrite s.buf a n v }

/-- One host step (R29, R42, R43): a refused access is a host fault. -/
def hostStep (x : HostAccess) (s : State) : Host.Outcome State Fault Refusal :=
  if x.admitted then .next (s.access x) else .fault .hostAccessRefused

/-- The access a host bus address reaches (spec/20_memory.md R53): the register window at REG_BASE, the BUF window at
BUF_BASE; an address in neither is no access of R2FFT. DESIGN CHOICE (log entry 16): the first address of the access alone
decides. An access that begins below a window and whose later bytes fall inside it is not an access of that window, and one
that begins in a window stays that window's, to be refused where it runs past the end (R43). -/
def BusAccess.resolve (x : BusAccess) : Option HostAccess :=
  if Config.regBase ≤ x.addr ∧ x.addr < Config.regBase + 4096 then
    some (match x.write with
      | some v => .writeReg x.n (x.addr - Config.regBase) v
      | none => .readReg x.n (x.addr - Config.regBase))
  else if Config.bufBase ≤ x.addr ∧ x.addr < Config.bufBase + Config.bufBytes then
    some (match x.write with
      | some v => .writeBuf x.n (x.addr - Config.bufBase) v
      | none => .readBuf x.n (x.addr - Config.bufBase))
  else none

end Sys2Proof.Machine
end

