-- ==== Sys2Proof/Machine/Engine.lean ====
section
/-! DEFINITION. The agents' turns (spec/10_state.md R13): the ENGINE step, a host access, reset; and how a command word is
placed so that the ENGINE runs it next. -/

namespace Sys2Proof.Machine

/-- The ENGINE's turn (spec/40_commands.md R84): it has a step exactly when the phase is BUSY, and that step runs the
command of the latched word. -/
def engineTurn (s : State) : Host.Outcome State Fault Refusal :=
  match s.lc with
  | none => .next s
  | some lc =>
    match decode lc.word with
    | .ok i => exec i s
    | .error _ => .refused .latchedWordUndecodable

/-- What one input does (spec/20_memory.md R51, R55, spec/70_reset_and_hazards.md R163): one step of one agent. -/
def performInput (x : Input) (s : State) : Host.Outcome State Fault Refusal :=
  match x with
  | .host y => hostStep y s
  | .bus y =>
    match y.resolve with
    | some z => hostStep z s
    | none => .next s
  | .engine => engineTurn s
  | .reset => .next s.onReset

/-- The magnitude acceptance latches for a word that has passed validation (spec/40_commands.md R79, R80): floorLog2 of
the element count for a buffer command, else ARG. -/
def latchMagnitude (w : Word) (s : State) : Nat :=
  match decode w with
  | .ok i =>
    match i.bufferFormat with
    | some _ => (floorLog2 (s.len.toNat / 2)).toNat
    | none => i.arg
  | .error _ => 0

/-- Place a command word as accepted, and let the ENGINE move next (log entry 10). -/
def State.placeWord (s : State) (w : Word) : State :=
  { s.accept w (latchMagnitude w s) with inputs := .engine :: s.inputs }

end Sys2Proof.Machine
end

