-- ==== Sys2Proof/Machine/Step.lean ====
section
/-! DEFINITION. One step of R2FFT: the next input, or, when no input is left, the ENGINE's turn, so that an accepted
command completes after finitely many host steps (spec/40_commands.md R84, spec/70_reset_and_hazards.md R176; log entry 1). -/

namespace Sys2Proof.Machine

/-- One step. -/
def step (s : State) : Host.Outcome State Fault Refusal :=
  match s.inputs with
  | [] => engineTurn s
  | x :: rest => performInput x { s with inputs := rest }

/-- The state whose very next step runs the command word w (log entry 10). -/
def State.withFetchWord (s : State) (nbits w : Nat) : State := s.placeWord (BitVec.ofNat 32 (w % 2 ^ nbits))

end Sys2Proof.Machine
end

