-- ==== Sys2Proof/Machine/HostProgram.lean ====
section
/-! DEFINITION. The assembler syntax of a command, the host-program notation, and the pseudo-instructions
(spec/30_encoding.md R72 to R74). -/

namespace Sys2Proof.Machine

/-- The mnemonics (R68, R72). -/
inductive Mnemonic
  | nop
  | fft
  | bitrev
  | stage
  | conj
  | inorm
  | twgen
  | ptgen
  | twread
  | cmul
  | bfly
  deriving DecidableEq, Repr

/-- A line of assembler, `MNEMONIC[.FMT][.INV][.LUT] [ARG]` (R72): the suffixes in this order. -/
structure AsmLine where
  mnemonic : Mnemonic
  fmt : Option Format
  inv : Bool
  lut : Bool
  arg : Option Nat
  deriving DecidableEq, Repr

/-- A precision suffix of a register command: .F32 is P32, .F64 is P64, and no other (R72). -/
def precSuffix : Format → Option Prec
  | .f32 => some .p32
  | .f64 => some .p64
  | .pk64 => none

/-- The command of a line (R72), or none where the assembler refuses it: a suffix or an ARG the mnemonic does not take, a
missing one it requires, an ARG above 31. -/
def assemble (l : AsmLine) : Option Instr :=
  let i := match l.mnemonic, l.fmt, l.inv, l.lut, l.arg with
    | .nop, none, false, false, none => some Instr.nop
    | .fft, some f, inv, lut, none => some (.fft f inv lut)
    | .bitrev, some f, false, lut, none => some (.bitrev f lut)
    | .stage, some f, false, lut, some j => some (.stage f lut j)
    | .conj, some f, false, false, none => some (.conj f)
    | .inorm, some f, false, false, none => some (.inorm f)
    | .twgen, none, false, false, some m => some (.twgen m)
    | .ptgen, none, false, false, some m => some (.ptgen m)
    | .twread, some f, false, lut, some m => (precSuffix f).map fun p => .twread p lut m
    | .cmul, some f, false, false, none => (precSuffix f).map fun p => .cmul p
    | .bfly, some f, false, false, none => (precSuffix f).map fun p => .bfly p
    | _, _, _, _, _ => none
  i.filter fun c => c.wellFormed

/-- One line of a host program (R74). A register is named by its offset in the window (spec/10_state.md R16); BUF widths
are in bytes. -/
inductive HostLine
  | wr (off : Nat) (v : Word)
  | rd (off : Nat)
  | issue (i : Instr)
  | wait
  | bw (n a : Nat) (v : Dword)
  | br (n a : Nat)
  deriving DecidableEq, Repr

/-- Offset of CMD (spec/10_state.md R16). -/
def offCmd : Nat := 0x004

/-- Offset of STATUS (spec/10_state.md R16). -/
def offStatus : Nat := 0x008

/-- Offset of IDX (spec/10_state.md R16). -/
def offIdx : Nat := 0x018

/-- The inputs of a line (R74). WAIT repeats `RD STATUS` until BUSY = 0: such a read changes nothing (R52), and the ENGINE
step comes after finitely many (spec/40_commands.md R84); so it is the ENGINE's turn and the last read (log entry 17).
DESIGN CHOICE: no other line gives the ENGINE a turn (log entry 24). -/
def HostLine.inputs : HostLine → List Input
  | .wr off v => [.host (.writeReg 4 off (v.setWidth 64))]
  | .rd off => [.host (.readReg 4 off)]
  | .issue i => [.host (.writeReg 4 offCmd ((encode i).setWidth 64))]
  | .wait => [.engine, .host (.readReg 4 offStatus)]
  | .bw n a v => [.host (.writeBuf n a v)]
  | .br n a => [.host (.readBuf n a)]

/-- The inputs of a host program in one of the orders the spec allows. DESIGN CHOICE (log entry 24): the ENGINE moves at
each WAIT and nowhere else, so after every host line that stands between an ISSUE and its WAIT. The spec leaves this open
(spec/40_commands.md R84, spec/70_reset_and_hazards.md R176; program P4 of spec/95_test_vectors.md wants both orders): the
machine takes every other order as a list of inputs with `.engine` at another place. -/
def programInputs (l : List HostLine) : List Input := l.flatMap HostLine.inputs

/-- Pseudo IFFT (R73). -/
def ifft (F : Format) (lut : Bool) : Instr := .fft F true lut

/-- Pseudo TWGET m, k (R73). -/
def twget (P : Prec) (lut : Bool) (m : Nat) (k : Word) : List HostLine := [.wr offIdx k, .issue (.twread P lut m)]

/-- STAGE 1 to STAGE m, each followed by WAIT, in ascending order (R73). -/
def stageLines (F : Format) (lut : Bool) (m : Nat) : List HostLine :=
  (List.range m).flatMap fun i => [.issue (.stage F lut (i + 1)), .wait]

/-- Pseudo FFTSEQ m (R73). -/
def fftSeq (F : Format) (lut : Bool) (m : Nat) : List HostLine :=
  .issue (.bitrev F lut) :: .wait :: stageLines F lut m

/-- Pseudo IFFTSEQ m (R73). -/
def ifftSeq (F : Format) (lut : Bool) (m : Nat) : List HostLine :=
  .issue (.conj F) :: .wait :: (fftSeq F lut m ++ [.issue (.inorm F), .wait])

end Sys2Proof.Machine
end

