-- ==== Sys2Proof/Safety.lean ====
section
/-! DEFINITION. What counts as a good state and a safe run, in the terms the statements use. -/

namespace Sys2Proof

open Sys2Proof.Machine

/-- Every listed byte lies inside BUF (spec/20_memory.md R39). -/
def BufInside (b : Buf) : Prop := ∀ c ∈ b.cells, c.1 < Config.bufBytes

/-- The twiddle-table cache holds, for magnitudes up to MMAX, the tables of spec/41_lookup_tables.md R96. -/
def TwiddleTablesRight (tt : List (Nat × List TwiddlePair)) : Prop :=
  keysRising tt = true ∧ ∀ e ∈ tt, e.1 ≤ Config.mmax ∧ e.2 = twiddleTable e.1

/-- The permutation-table cache holds, for magnitudes up to MMAX, the tables of spec/41_lookup_tables.md R98. -/
def SwapTablesRight (pt : List (Nat × List (Nat × Nat))) : Prop :=
  keysRising pt = true ∧ ∀ e ∈ pt, e.1 ≤ Config.mmax ∧ e.2 = swapPairs e.1

/-- The latched command passed validation with the operands it latched (spec/40_commands.md R79, R87). -/
def LatchValid (lc : Latched) : Prop := validateWord Config.params lc.base lc.len lc.idx lc.word = .ok lc.m

/-- The latched copies equal the registers (spec/10_state.md R15), and MAG of a buffer command is its magnitude
(spec/10_state.md R24). -/
def LatchCurrent (s : State) (lc : Latched) : Prop :=
  lc.base = s.base ∧ lc.len = s.len ∧ lc.idx = s.idx ∧ lc.a = s.a ∧ lc.b = s.b ∧ lc.w = s.w ∧
    (isBufferOp lc.word = true → s.mag = BitVec.ofNat 5 lc.m)

/-- The invariant of every run: BUF is in canonical form and inside its bounds, the tables hold what the spec says, a
latched command is a validated one whose copies equal the registers, MAG is a legal magnitude, ERRCODE is 0 exactly when
ERR is, and DONE is 0 while BUSY. -/
structure Inv (s : State) : Prop where
  bufWf : Memory.wf s.buf = true
  bufInside : BufInside s.buf
  twiddles : TwiddleTablesRight s.tt
  swaps : SwapTablesRight s.pt
  latchValid : ∀ lc, s.lc = some lc → LatchValid lc
  latchCurrent : ∀ lc, s.lc = some lc → LatchCurrent s lc
  magLegal : s.mag.toNat ≤ Config.mmax
  errRecorded : s.err = false ↔ s.errcode = .none
  busyNotDone : s.lc ≠ none → s.done = false

/-- An input that is no refused host access (spec/20_memory.md R43). -/
def Machine.Input.admitted : Machine.Input → Prop
  | .host x => x.admitted = true
  | .bus x => ∀ y, x.resolve = some y → y.admitted = true
  | .engine => True
  | .reset => True

/-- The same command with its LUT bit set to `b`, where it has one (spec/30_encoding.md R65). -/
def Instr.withLut (b : Bool) : Instr → Instr
  | .nop => .nop
  | .fft f inv _ => .fft f inv b
  | .bitrev f _ => .bitrev f b
  | .stage f _ j => .stage f b j
  | .conj f => .conj f
  | .inorm f => .inorm f
  | .twgen m => .twgen m
  | .ptgen m => .ptgen m
  | .twread p _ m => .twread p b m
  | .cmul p => .cmul p
  | .bfly p => .bfly p

/-- The magnitude of the twiddle table a command builds on a buffer of magnitude m, if it builds one
(spec/41_lookup_tables.md R99). -/
def Instr.buildsTwiddles (m : Nat) : Instr → Option Nat
  | .nop => none
  | .fft _ _ lut => if lut ∧ 1 ≤ m then some m else none
  | .bitrev _ _ => none
  | .stage _ lut _ => if lut then some m else none
  | .conj _ => none
  | .inorm _ => none
  | .twgen n => some n
  | .ptgen _ => none
  | .twread _ lut n => if lut then some n else none
  | .cmul _ => none
  | .bfly _ => none

/-- The magnitude of the permutation table a command builds on a buffer of magnitude m, if it builds one
(spec/41_lookup_tables.md R99). -/
def Instr.buildsSwaps (m : Nat) : Instr → Option Nat
  | .nop => none
  | .fft _ _ lut => if lut ∧ 1 ≤ m then some m else none
  | .bitrev _ lut => if lut then some m else none
  | .stage _ _ _ => none
  | .conj _ => none
  | .inorm _ => none
  | .twgen _ => none
  | .ptgen n => some n
  | .twread _ _ _ => none
  | .cmul _ => none
  | .bfly _ => none

/-- The least magnitude, in quanta, that overflows to infinity when rounded to nearest even: the largest finite value and
half a unit in its last place. -/
def overflowQuanta (P : Prec) : Nat := (2 ^ (fpFrac P + 2) - 1) * 2 ^ (2 ^ fpExp P - 4)

/-- `x` is the number `num` · 2^-s quanta rounded to precision P with roundTiesToEven (spec/42_complex_multiplier.md
R108): below the overflow threshold a nearest finite value, the one with an even last bit where two are nearest; from the
threshold on the infinity of that sign. A number that is not 0 keeps its sign. -/
def RoundsTo (P : Prec) (num : Int) (s : Nat) (x : Dword) : Prop :=
  (num ≠ 0 → fpSign P x = decide (num < 0)) ∧
  if num.natAbs < 2 ^ s * overflowQuanta P then
    fpIsFinite P x = true ∧
      ∀ y, fpIsFinite P y = true →
        (fpSigned P x * 2 ^ s - num).natAbs ≤ (fpSigned P y * 2 ^ s - num).natAbs ∧
        ((fpSigned P x * 2 ^ s - num).natAbs = (fpSigned P y * 2 ^ s - num).natAbs →
          fpSigned P x ≠ fpSigned P y → fpMag P x % 2 = 0)
  else x = fpPack P (decide (num < 0)) (fpInfMag P)

/-- Run a list of commands one after another on one latched command LC: each is latched again as the one before was. -/
def runLatched (lc : Latched) : List Instr → State → Host.Outcome State Fault Refusal
  | [], s => .next s
  | i :: rest, s =>
    match exec i { s with lc := some lc } with
    | .next t => runLatched lc rest t
    | .fault r => .fault r
    | .refused r => .refused r

/-- The commands of FFTSEQ and IFFTSEQ (spec/30_encoding.md R73). -/
def passCommands (F : Format) (inv lut : Bool) (m : Nat) : List Instr :=
  let forward := .bitrev F lut :: (List.range m).map fun j => .stage F lut (j + 1)
  if inv then .conj F :: (forward ++ [.inorm F]) else forward

/-- The host access the next step performs, if it is one: given by window and offset, or by bus address. -/
def Machine.State.nextAccess (s : State) : Option HostAccess :=
  match s.inputs with
  | [] => none
  | x :: _ =>
    match x with
    | .host y => some y
    | .bus y => y.resolve
    | .engine => none
    | .reset => none

/-- The next step is the ENGINE's turn. -/
def Machine.State.engineNext (s : State) : Prop := s.inputs = [] ∨ ∃ rest, s.inputs = .engine :: rest

/-- The next step is reset. -/
def Machine.State.resetNext (s : State) : Prop := ∃ rest, s.inputs = .reset :: rest

/-- A host access that the BUSY phase drops or answers with a draw (spec/10_state.md R29 (a) to (c), spec/20_memory.md
R42), for an admitted access. -/
def Machine.HostAccess.overruns : HostAccess → Prop
  | .writeReg _ off _ => off = 0x004 ∨ (0x010 ≤ off ∧ off ≤ 0x018) ∨ (0x040 ≤ off ∧ off ≤ 0x06C)
  | .readReg _ off => 0x070 ≤ off ∧ off ≤ 0x08C
  | .writeBuf _ _ _ => True
  | .readBuf _ _ => True

/-- The access rules of registers (spec/10_state.md R29) and BUF (spec/20_memory.md R42). -/
def Machine.HostAccess.allowed : HostAccess → Prop
  | .readReg n off => n = 4 ∧ off % 4 = 0 ∧ off ≤ 0xFFC
  | .writeReg n off _ => n = 4 ∧ off % 4 = 0 ∧ off ≤ 0xFFC
  | .readBuf n a => (n = 1 ∨ n = 2 ∨ n = 4 ∨ n = 8) ∧ a % n = 0 ∧ a + n ≤ Config.bufBytes
  | .writeBuf n a _ => (n = 1 ∨ n = 2 ∨ n = 4 ∨ n = 8) ∧ a % n = 0 ∧ a + n ≤ Config.bufBytes

/-- The values the fields of a word with a defined OP may take (spec/30_encoding.md R68, the table of field values). -/
def fieldsAllowed (w : Word) : Prop :=
  let fmt := (fmtField w).toNat
  let inv := invField w
  let lut := lutField w
  let arg := argField w
  w.toNat / 2 ^ 13 = 0 ∧
    match (opField w).toNat with
    | 0x0 => fmt = 0 ∧ inv = false ∧ lut = false ∧ arg = 0
    | 0x1 => fmt ≤ 2 ∧ arg = 0
    | 0x2 => fmt ≤ 2 ∧ inv = false ∧ arg = 0
    | 0x3 => fmt ≤ 2 ∧ inv = false
    | 0x4 => fmt ≤ 2 ∧ inv = false ∧ lut = false ∧ arg = 0
    | 0x5 => fmt ≤ 2 ∧ inv = false ∧ lut = false ∧ arg = 0
    | 0x6 => fmt = 0 ∧ inv = false ∧ lut = false
    | 0x7 => fmt = 0 ∧ inv = false ∧ lut = false
    | 0x8 => fmt ≤ 1 ∧ inv = false
    | 0x9 => fmt ≤ 1 ∧ inv = false ∧ lut = false ∧ arg = 0
    | 0xA => fmt ≤ 1 ∧ inv = false ∧ lut = false ∧ arg = 0
    | _ => False

/-- Two values are the same but for the sign and payload of a NaN and the sign of a zero. -/
def fpSameUpToZero (P : Prec) (x y : Dword) : Prop := fpSame P x y ∨ (fpIsZero P x = true ∧ fpIsZero P y = true)

/-- A safe state: no number of steps ends in a fault or a refusal. -/
def Safe (s : State) : Prop := ∀ k, ∃ t, core.run k s = .next t

end Sys2Proof
end

