-- ==== Sys2Proof/Certificates/Slice0/Obligations.lean ====
section
/-! DEFINITION. The statements for the provers. -/

section ObligationStatements

open Sys2Proof Sys2Proof.Machine

/-! The command word. -/

/-- Decode and encode agree: decoding the word of a well-formed command gives it back, every operand included
(spec/30_encoding.md R62, R68, R69). -/
def Obligations.EveryWellFormedCommandDecodesBack : Prop :=
  ∀ i : Instr, i.wellFormed = true → decode (encode i) = .ok i

/-- Every word is exactly one well-formed command or a decode error: BAD_OPCODE for OP 0xB to 0xF; for a defined OP
BAD_FIELD where RSV is not 0 or a field has a value that the table of R68 does not list, else the command of that OP with
the word's own fields, whose word it is (R69, R70). The field values are the table's, not the match and mask words that the
decoder uses. -/
def Obligations.EveryWordIsOneCommandOrAnError : Prop :=
  ∀ w : Word,
    (0xB ≤ (opField w).toNat → decode w = .error .badOpcode) ∧
    ((opField w).toNat < 0xB → ¬ fieldsAllowed w → decode w = .error .badField) ∧
    ((opField w).toNat < 0xB → fieldsAllowed w →
      ∃ i, decode w = .ok i ∧ i.opcode = opField w ∧ encode i = w ∧ i.wellFormed = true)

/-- Words of spec/95_test_vectors.md section 2.1, one of each family, decode to the commands listed there. -/
def Obligations.SpecWordsDecodeAsListed : Prop :=
  ∀ p ∈ [ ((0x00000000 : Word), Instr.nop),
          (0x000000D1, .fft .f64 true true),
          (0x00000021, .fft .pk64 false false),
          (0x00000092, .bitrev .f64 true),
          (0x00000383, .stage .f32 true 3),
          (0x00001F13, .stage .f64 false 31),
          (0x00000024, .conj .pk64),
          (0x00000015, .inorm .f64),
          (0x00001206, .twgen 18),
          (0x00000307, .ptgen 3),
          (0x00000398, .twread .p64 true 3),
          (0x00000009, .cmul .p32),
          (0x0000001A, .bfly .p64) ],
    (decode p.1).toOption = some p.2

/-! One step. -/

/-- A step of the ENGINE runs the decoded command of the latched word (spec/40_commands.md R84, R87). That the ENGINE moves
when no input is left is the model's choice (log entry 1). -/
def Obligations.StepRunsTheLatchedCommand : Prop :=
  ∀ (s : State) (lc : Latched) (i : Instr), s.lc = some lc → decode lc.word = .ok i →
    (s.inputs = [] → step s = exec i s) ∧
    (∀ rest, s.inputs = .engine :: rest → step s = exec i { s with inputs := rest })

/-- A step whose turn is the host's performs its one access, given by window and offset or by bus address; an address of
the register window reaches the register at its offset, one of the BUF window the byte at its offset (spec/10_state.md R13,
spec/20_memory.md R51, R53). Where the platform lets the windows overlap the register window wins (log entry 16). -/
def Obligations.HostStepsPerformTheAccess : Prop :=
  (∀ (s : State) (x : HostAccess), s.nextAccess = some x → step s = hostStep x { s with inputs := s.inputs.tail }) ∧
  ∀ (n off a : Nat) (v : Dword),
    (off < 4096 →
      (⟨Config.regBase + off, n, none⟩ : BusAccess).resolve = some (.readReg n off) ∧
      (⟨Config.regBase + off, n, some v⟩ : BusAccess).resolve = some (.writeReg n off v)) ∧
    (a < Config.bufBytes →
      (⟨Config.bufBase + a, n, none⟩ : BusAccess).resolve =
        some (if Config.regBase ≤ Config.bufBase + a ∧ Config.bufBase + a < Config.regBase + 4096
          then .readReg n (Config.bufBase + a - Config.regBase) else .readBuf n a) ∧
      (⟨Config.bufBase + a, n, some v⟩ : BusAccess).resolve =
        some (if Config.regBase ≤ Config.bufBase + a ∧ Config.bufBase + a < Config.regBase + 4096
          then .writeReg n (Config.bufBase + a - Config.regBase) v else .writeBuf n a v))

/-! Validation, rejection, acceptance. -/

/-- The helpers of R80 are the logarithms it defines, and the length check reports LEN_ODD, then LEN_POW2 (0 included),
then MAG_RANGE, and else finds the m with L = 2 · 2^m. -/
def Obligations.LengthCheckReportsTheFirstCause : Prop :=
  (floorLog2 0 = -1 ∧ ceilLog2 0 = -1 ∧ isPowerOfTwo 0 = false) ∧
  (∀ n : Nat, 1 ≤ n →
    (∃ e : Nat, floorLog2 n = e ∧ 2 ^ e ≤ n ∧ ∀ d : Nat, 2 ^ d ≤ n → d ≤ e) ∧
    (∃ e : Nat, ceilLog2 n = e ∧ n ≤ 2 ^ e ∧ ∀ d : Nat, n ≤ 2 ^ d → e ≤ d) ∧
    (isPowerOfTwo n = true ↔ floorLog2 n = ceilLog2 n)) ∧
  ∀ (p : Params) (L : Nat),
    (L % 2 = 1 → checkLength p L = .error .lenOdd) ∧
    (L % 2 = 0 → (∀ m, L ≠ 2 * 2 ^ m) → checkLength p L = .error .lenPow2) ∧
    (∀ m, L = 2 * 2 ^ m → p.mmax < m → checkLength p L = .error .magRange) ∧
    (∀ m, L = 2 * 2 ^ m → m ≤ p.mmax → checkLength p L = .ok m)

/-- validate(w) reports the first cause in the order word form, length, region, argument, and else the accepted magnitude
(spec/60_exceptions.md R144, with the checks of spec/40_commands.md R81 and R82). The numbers AL(F) and ES(F) are
FormatsLayOutTheirElements; the number of each error code is RegistersReadTheirValues. -/
def Obligations.ValidationReportsErrorsInOrder : Prop :=
  ∀ (p : Params) (base len idx w : Word),
    (decode w = .error .badOpcode → validateWord p base len idx w = .error .badOpcode) ∧
    (decode w = .error .badField → validateWord p base len idx w = .error .badField) ∧
    (∀ i F, decode w = .ok i → i.bufferFormat = some F →
      (len.toNat % 2 = 1 → validateWord p base len idx w = .error .lenOdd) ∧
      (len.toNat % 2 = 0 → (∀ m, len.toNat ≠ 2 * 2 ^ m) → validateWord p base len idx w = .error .lenPow2) ∧
      ∀ m, len.toNat = 2 * 2 ^ m →
        (p.mmax < m → validateWord p base len idx w = .error .magRange) ∧
        (m ≤ p.mmax →
          (base.toNat % elemAlign F ≠ 0 → validateWord p base len idx w = .error .align) ∧
          (base.toNat % elemAlign F = 0 → p.bufBytes < base.toNat + 2 ^ m * elemSize F →
            validateWord p base len idx w = .error .bufRange) ∧
          (base.toNat % elemAlign F = 0 → base.toNat + 2 ^ m * elemSize F ≤ p.bufBytes →
            (∀ lut j, i = .stage F lut j → j < 1 ∨ m < j → validateWord p base len idx w = .error .argRange) ∧
            ((∀ lut j, i = .stage F lut j → 1 ≤ j ∧ j ≤ m) → validateWord p base len idx w = .ok m)))) ∧
    (∀ n, decode w = .ok (.twgen n) ∨ decode w = .ok (.ptgen n) →
      (p.mmax < n → validateWord p base len idx w = .error .argRange) ∧
      (n ≤ p.mmax → validateWord p base len idx w = .ok n)) ∧
    (∀ P lut n, decode w = .ok (.twread P lut n) →
      (n < 1 ∨ p.mmax < n → validateWord p base len idx w = .error .argRange) ∧
      (1 ≤ n → n ≤ p.mmax → 2 ^ (n - 1) ≤ idx.toNat → validateWord p base len idx w = .error .argRange) ∧
      (1 ≤ n → n ≤ p.mmax → idx.toNat < 2 ^ (n - 1) → validateWord p base len idx w = .ok n)) ∧
    (∀ P, decode w = .ok .nop ∨ decode w = .ok (.cmul P) ∨ decode w = .ok (.bfly P) →
      validateWord p base len idx w = .ok 0)

/-- A CMD write that validation rejects sets ERR, records the code, clears DONE, and changes nothing else (R78). (`inputs`
and `reply` are the model's own fields.) -/
def Obligations.RejectionRecordsTheErrorAndNothingElse : Prop :=
  ∀ (s : State) (rest : List Input) (w : Word) (c : ErrCode),
    s.inputs = .host (.writeReg 4 0x004 (w.setWidth 64)) :: rest → s.lc = none → s.validate w = .error c →
      step s = .next { s with inputs := rest, reply := none, err := true, errcode := c, done := false }

/-- A CMD write that validation accepts latches the word, the operands and the magnitude, sets MAG for a buffer command,
clears DONE and makes the phase BUSY; ERR, ERRCODE, OVR and everything else stay (R79). -/
def Obligations.AcceptanceLatchesTheOperands : Prop :=
  ∀ (s : State) (rest : List Input) (w : Word) (m : Nat) (i : Instr),
    s.inputs = .host (.writeReg 4 0x004 (w.setWidth 64)) :: rest → s.lc = none → s.validate w = .ok m →
    decode w = .ok i →
      step s = .next
        { s with
          inputs := rest
          reply := none
          lc := some { word := w, base := s.base, len := s.len, m := m, idx := s.idx, a := s.a, b := s.b, w := s.w }
          mag := if i.bufferFormat.isSome then BitVec.ofNat 5 m else s.mag
          done := false }

/-! Host accesses. -/

/-- A host access faults exactly when it is not admitted, and an admitted one answers a next state (spec/20_memory.md R43;
the rules of access are R42 and spec/10_state.md R29). -/
def Obligations.HostAccessFaultsExactlyWhenRefused : Prop :=
  ∀ (s : State) (x : HostAccess),
    (¬ x.allowed → hostStep x s = .fault .hostAccessRefused) ∧ (x.allowed → ∃ t, hostStep x s = .next t)

/-- While BUSY a write to CMD, BASE, LEN, IDX or a word of A, B or W, and an admitted write to BUF, is dropped; a read of a
word of Y0 or Y1, and an admitted read of BUF, returns a draw of its width. Each sets OVR and changes nothing else
(spec/10_state.md R29 (a) to (c), spec/20_memory.md R42, spec/40_commands.md R77). The draw is a free value (log entry 3). -/
def Obligations.BusyPhaseDropsWritesAndDrawsReads : Prop :=
  ∀ s : State, s.lc ≠ none →
    (∀ (off : Nat) (v : Dword), off % 4 = 0 →
      off = 0x004 ∨ (0x010 ≤ off ∧ off ≤ 0x018) ∨ (0x040 ≤ off ∧ off ≤ 0x06C) →
      hostStep (.writeReg 4 off v) s = .next { s with reply := none, ovr := true }) ∧
    (∀ (n a : Nat) (v : Dword), (HostAccess.writeBuf n a v).allowed →
      hostStep (.writeBuf n a v) s = .next { s with reply := none, ovr := true }) ∧
    (∀ off : Nat, off % 4 = 0 → 0x070 ≤ off → off ≤ 0x08C →
      hostStep (.readReg 4 off) s = .next
        { s with reply := some (lowBytes 4 (Config.readDraw s.draws)), draws := s.draws + 1, ovr := true }) ∧
    (∀ n a : Nat, (HostAccess.readBuf n a).allowed →
      hostStep (.readBuf n a) s = .next
        { s with reply := some (lowBytes n (Config.readDraw s.draws)), draws := s.draws + 1, ovr := true })

/-- What each register reads as, in either phase for all but Y0 and Y1, and in the IDLE phase for those; a read has no
side effect (spec/10_state.md R16, R18, R20 to R24, R31). STATUS, TVALID, PVALID, CAP and IEN have statements of their own. -/
def Obligations.RegistersReadTheirValues : Prop :=
  ∀ s : State,
    (∀ p ∈ [ ((0x004 : Nat), (0 : Word)), (0x010, s.base), (0x014, s.len), (0x018, s.idx), (0x01C, s.mag.setWidth 32),
             (0x040, s.a.re.extractLsb' 0 32), (0x044, s.a.re.extractLsb' 32 32),
             (0x048, s.a.im.extractLsb' 0 32), (0x04C, s.a.im.extractLsb' 32 32),
             (0x050, s.b.re.extractLsb' 0 32), (0x054, s.b.re.extractLsb' 32 32),
             (0x058, s.b.im.extractLsb' 0 32), (0x05C, s.b.im.extractLsb' 32 32),
             (0x060, s.w.re.extractLsb' 0 32), (0x064, s.w.re.extractLsb' 32 32),
             (0x068, s.w.im.extractLsb' 0 32), (0x06C, s.w.im.extractLsb' 32 32) ],
      hostStep (.readReg 4 p.1) s = .next { s with reply := some (p.2.setWidth 64) }) ∧
    (s.lc = none →
      ∀ p ∈ [ ((0x070 : Nat), s.y0.re.extractLsb' 0 32), (0x074, s.y0.re.extractLsb' 32 32),
              (0x078, s.y0.im.extractLsb' 0 32), (0x07C, s.y0.im.extractLsb' 32 32),
              (0x080, s.y1.re.extractLsb' 0 32), (0x084, s.y1.re.extractLsb' 32 32),
              (0x088, s.y1.im.extractLsb' 0 32), (0x08C, s.y1.im.extractLsb' 32 32) ],
        hostStep (.readReg 4 p.1) s = .next { s with reply := some (p.2.setWidth 64) }) ∧
    (∀ p ∈ [ (ErrCode.none, (0 : Dword)), (.badOpcode, 1), (.badField, 2), (.lenOdd, 3), (.lenPow2, 4),
             (.magRange, 5), (.align, 6), (.bufRange, 7), (.argRange, 8) ],
      s.errcode = p.1 → hostStep (.readReg 4 0x00C) s = .next { s with reply := some p.2 })

/-- STATUS and IEN read their bits in place and 0 elsewhere, and IRQ is high exactly when a STATUS bit and its enable are
both 1 (spec/10_state.md R19, R27, R36). -/
def Obligations.StatusIenAndIrqAgree : Prop :=
  ∀ s : State, ∃ st ie : Word,
    hostStep (.readReg 4 0x008) s = .next { s with reply := some (st.setWidth 64) } ∧
    hostStep (.readReg 4 0x028) s = .next { s with reply := some (ie.setWidth 64) } ∧
    st.getLsbD 0 = s.lc.isSome ∧ st.getLsbD 1 = s.done ∧ st.getLsbD 2 = s.err ∧ st.getLsbD 3 = s.ovr ∧
    (∀ k, 4 ≤ k → st.getLsbD k = false) ∧
    ie.getLsbD 0 = s.doneIe ∧ ie.getLsbD 1 = s.errIe ∧ ie.getLsbD 2 = s.ovrIe ∧
    (∀ k, 3 ≤ k → ie.getLsbD k = false) ∧
    (s.irq = true ↔
      (st.getLsbD 1 = true ∧ ie.getLsbD 0 = true) ∨ (st.getLsbD 2 = true ∧ ie.getLsbD 1 = true) ∨
        (st.getLsbD 3 = true ∧ ie.getLsbD 2 = true))

/-- CAP reports MMAX (18 to 30, spec/00_scope.md R5), the three formats and revision 1, reads 0 above and ignores writes
(spec/10_state.md R17; that it ignores them while BUSY without OVR is log entry 19). Bit m of TVALID and PVALID is 1 exactly
when m ≤ MMAX and the table for magnitude m is held as built, and the other bits read 0 (R25 and R26, as views of the held
tables, log entry 11; how tables come to be held and to be empty is OnlyResetEmptiesATable, TwgenBuildsTheTwiddleTable and
PtgenBuildsTheSwapTable). -/
def Obligations.CapAndTableBitsReportTheInstance : Prop :=
  18 ≤ Config.mmax ∧ Config.mmax ≤ 30 ∧
  ∀ s : State, ∃ c tv pv : Word,
    hostStep (.readReg 4 0x000) s = .next { s with reply := some (c.setWidth 64) } ∧
    (c.extractLsb' 0 5).toNat = Config.mmax ∧ c.getLsbD 5 = true ∧ c.getLsbD 6 = true ∧ c.getLsbD 7 = true ∧
    (c.extractLsb' 8 8).toNat = 0x01 ∧ (c.extractLsb' 16 16).toNat = 0 ∧
    (∀ v, hostStep (.writeReg 4 0x000 v) s = .next { s with reply := none }) ∧
    hostStep (.readReg 4 0x020) s = .next { s with reply := some (tv.setWidth 64) } ∧
    hostStep (.readReg 4 0x024) s = .next { s with reply := some (pv.setWidth 64) } ∧
    ∀ m : Nat,
      (tv.getLsbD m = true ↔ m ≤ Config.mmax ∧ (findKey s.tt m).isSome = true) ∧
      (pv.getLsbD m = true ↔ m ≤ Config.mmax ∧ (findKey s.pt m).isSome = true)

/-- A reserved offset reads 0 and ignores writes, in either phase, and sets no status bit (spec/10_state.md R28; for a write
while BUSY see log entry 19). -/
def Obligations.ReservedOffsetsReadZeroAndIgnoreWrites : Prop :=
  ∀ (s : State) (off : Nat) (v : Dword), off % 4 = 0 →
    (0x02C ≤ off ∧ off ≤ 0x03C) ∨ (0x090 ≤ off ∧ off ≤ 0xFFC) →
      hostStep (.readReg 4 off) s = .next { s with reply := some 0 } ∧
      hostStep (.writeReg 4 off v) s = .next { s with reply := none }

/-- While IDLE a write to BASE, LEN, IDX or a word of A, B or W makes it read back as written, leaves every other register
word as it was, and changes no other state. A write to a read-only register (CAP, ERRCODE, MAG, TVALID, PVALID, Y0, Y1) is
ignored and sets no status bit (spec/10_state.md R16, R21 to R23, R31, spec/20_memory.md R52); that this holds while BUSY as
well is inferred from R29 (log entry 19). -/
def Obligations.RegisterWritesChangeOnlyTheirRegister : Prop :=
  ∀ (s : State) (off : Nat) (v : Dword), off % 4 = 0 →
    (s.lc = none → (0x010 ≤ off ∧ off ≤ 0x018) ∨ (0x040 ≤ off ∧ off ≤ 0x06C) →
      ∃ t : State, hostStep (.writeReg 4 off v) s = .next t ∧
        t = { s with reply := none, base := t.base, len := t.len, idx := t.idx, a := t.a, b := t.b, w := t.w } ∧
        t.readReg (regAt off) = v.setWidth 32 ∧
        ∀ off' : Nat, off' % 4 = 0 → off' ≠ off → off' ≤ 0xFFC → t.readReg (regAt off') = s.readReg (regAt off')) ∧
    (off = 0x000 ∨ off = 0x00C ∨ (0x01C ≤ off ∧ off ≤ 0x024) ∨ (0x070 ≤ off ∧ off ≤ 0x08C) →
      hostStep (.writeReg 4 off v) s = .next { s with reply := none })

/-- A write to STATUS clears the bits it names, ERR together with ERRCODE, and a write to IEN sets the enables, in either
phase; other bits of the value are ignored and nothing else changes (spec/10_state.md R19, R20, R27). -/
def Obligations.StatusAndIenWritesTakeEffectInEitherPhase : Prop :=
  ∀ (s : State) (v : Dword),
    hostStep (.writeReg 4 0x008 v) s = .next
      { s with
        reply := none
        done := s.done && !v.getLsbD 1
        err := s.err && !v.getLsbD 2
        errcode := if v.getLsbD 2 then .none else s.errcode
        ovr := s.ovr && !v.getLsbD 3 } ∧
    hostStep (.writeReg 4 0x028 v) s = .next
      { s with reply := none, doneIe := v.getLsbD 0, errIe := v.getLsbD 1, ovrIe := v.getLsbD 2 }

/-- MemRead assembles its n bytes, n in 1, 2, 4, 8, with byte a the least significant; MemWrite stores them so and changes no
other byte; an admitted host access made while IDLE is exactly that, and changes no other state (spec/20_memory.md R40, R41,
and the IDLE part of R42). -/
def Obligations.BufAccessesAreLittleEndian : Prop :=
  (∀ (b : Buf) (n a : Nat) (v : Dword), n = 1 ∨ n = 2 ∨ n = 4 ∨ n = 8 →
    (∀ j, j < n → (memRead b a n).extractLsb' (8 * j) 8 = b.byte (a + j)) ∧
    (∀ k, 8 * n ≤ k → (memRead b a n).getLsbD k = false) ∧
    (∀ j, j < n → (memWrite b a n v).byte (a + j) = v.extractLsb' (8 * j) 8) ∧
    (∀ x, x < a ∨ a + n ≤ x → (memWrite b a n v).byte x = b.byte x)) ∧
  ∀ (s : State) (n a : Nat) (v : Dword), s.lc = none → (HostAccess.readBuf n a).allowed →
    hostStep (.readBuf n a) s = .next { s with reply := some (memRead s.buf a n) } ∧
    hostStep (.writeBuf n a v) s = .next { s with reply := none, buf := memWrite s.buf a n v }

/-- The mixed-width views of spec/20_memory.md R50: an 8-byte write reads back as its two halves; two 4-byte writes read
back as one 8-byte word; the same 8 bytes hold (re, im) as F32 and (im, re) as PK64. -/
def Obligations.SameBytesHoldF32AndSwappedPk64 : Prop :=
  ∀ (b : Buf) (a : Nat) (v re im : Dword),
    memRead (memWrite b a 8 v) a 4 = (v.extractLsb' 0 32).setWidth 64 ∧
    memRead (memWrite b a 8 v) (a + 4) 4 = (v.extractLsb' 32 32).setWidth 64 ∧
    memRead (memWrite (memWrite b a 4 re) (a + 4) 4 im) a 8 = im.extractLsb' 0 32 ++ re.extractLsb' 0 32 ∧
    ∀ i, loadElem .pk64 a i b = ⟨(loadElem .f32 a i b).im, (loadElem .f32 a i b).re⟩

/-! The commands. Each runs on a latched command LC; its next state is given whole, so it is the frame as well. -/

/-- NOP has no effect of its own (spec/40_commands.md R85). -/
def Obligations.NopOnlyCompletes : Prop :=
  ∀ (s : State) (lc : Latched), s.lc = some lc → exec .nop s = .next { s with lc := none, done := true }

/-- TWGEN m leaves TT[m] built: as it was if it was built, else holding TW64(k, m) at every k below 2^(m-1) (nothing at
m = 0); no other table and no other state changes (spec/41_lookup_tables.md R96, R99, R102). -/
def Obligations.TwgenBuildsTheTwiddleTable : Prop :=
  ∀ (s : State) (lc : Latched) (m : Nat), s.lc = some lc →
    ∃ tt t, exec (.twgen m) s = .next { s with lc := none, done := true, tt := tt } ∧
      findKey tt m = some t ∧
      (∀ old, findKey s.tt m = some old → t = old) ∧
      (findKey s.tt m = none →
        t.length = (if m = 0 then 0 else 2 ^ (m - 1)) ∧ ∀ k, k < t.length → t[k]? = some (tw64 k m)) ∧
      ∀ k, k ≠ m → findKey tt k = findKey s.tt k

/-- PTGEN m leaves PT[m] built: as it was if it was built, else holding the pairs (i, rev_m(i)) with rev_m(i) > i by
increasing i; no other table and no other state changes (spec/41_lookup_tables.md R98, R99, R103). -/
def Obligations.PtgenBuildsTheSwapTable : Prop :=
  ∀ (s : State) (lc : Latched) (m : Nat), s.lc = some lc →
    ∃ pt t, exec (.ptgen m) s = .next { s with lc := none, done := true, pt := pt } ∧
      findKey pt m = some t ∧
      (∀ old, findKey s.pt m = some old → t = old) ∧
      (findKey s.pt m = none →
        t.Pairwise (fun p q => p.1 < q.1) ∧
        ∀ i r, (i, r) ∈ t ↔ i < 2 ^ m ∧ i < bitRev m i ∧ r = bitRev m i) ∧
      ∀ k, k ≠ m → findKey pt k = findKey s.pt k

/-- TWREAD puts the twiddle factor (RN_P(cos), -RN_P(sin)) of TW64(k, m), k = LC.idx, into Y0, in live and in LUT mode, the
upper words 0 in P32; LUT mode leaves TT[m] built, and nothing else changes (spec/41_lookup_tables.md R95, R104). The
premise on the tables is an invariant of every run (StepKeepsTheInvariant). It speaks also of the m and k that validation
rejects (m = 0, m > MMAX, k ≥ 2^(m-1)); what LUT mode reads there is the model's choice, log entry 15. -/
def Obligations.TwreadWritesTheTwiddleFactor : Prop :=
  ∀ (s : State) (lc : Latched) (P : Prec) (lut : Bool) (m : Nat), s.lc = some lc → TwiddleTablesRight s.tt →
    ∃ (y : Cplx) (tt : List (Nat × List TwiddlePair)),
      exec (.twread P lut m) s = .next { s with lc := none, done := true, y0 := y, tt := tt } ∧
      y.re = fpRound P (tw64 lc.idx.toNat m).cos ∧
      y.im = fneg P (fpRound P (tw64 lc.idx.toNat m).sin) ∧
      (P = .p32 → y.re.extractLsb' 32 32 = 0 ∧ y.im.extractLsb' 32 32 = 0) ∧
      (lut = false → tt = s.tt) ∧
      (lut = true → findKey tt m = some (twiddleTable m)) ∧
      ∀ k, k ≠ m → findKey tt k = findKey s.tt k

/-- CMUL puts the complex product of the latched A and B into Y0: four rounded products, one rounded difference, one
rounded sum; in P32 only the low words are read and the upper words of Y0 are 0 (spec/42_complex_multiplier.md R114, R118,
spec/10_state.md R32). Nothing else changes. -/
def Obligations.CmulWritesTheProduct : Prop :=
  (∀ x : Dword, (fpTake .p32 x).toNat = x.toNat % 2 ^ 32 ∧ fpTake .p64 x = x) ∧
  ∀ (s : State) (lc : Latched) (P : Prec), s.lc = some lc →
    ∃ y : Cplx, exec (.cmul P) s = .next { s with lc := none, done := true, y0 := y } ∧
      y.re = fsub P (fmul P (fpTake P lc.a.re) (fpTake P lc.b.re)) (fmul P (fpTake P lc.a.im) (fpTake P lc.b.im)) ∧
      y.im = fadd P (fmul P (fpTake P lc.a.re) (fpTake P lc.b.im)) (fmul P (fpTake P lc.a.im) (fpTake P lc.b.re)) ∧
      (P = .p32 → y.re.extractLsb' 32 32 = 0 ∧ y.im.extractLsb' 32 32 = 0)

/-- BFLY puts a + t into Y0 and a - t into Y1, with t the product of W and B and a the latched A, all in precision P; in P32
only the low words are read and the upper words of Y0 and Y1 are 0 (spec/42_complex_multiplier.md R116, R120,
spec/10_state.md R32). Nothing else changes. -/
def Obligations.BflyWritesTheButterfly : Prop :=
  (∀ x : Dword, (fpTake .p32 x).toNat = x.toNat % 2 ^ 32 ∧ fpTake .p64 x = x) ∧
  ∀ (s : State) (lc : Latched) (P : Prec), s.lc = some lc →
    ∃ t u l : Cplx,
      t = cmul P ⟨fpTake P lc.w.re, fpTake P lc.w.im⟩ ⟨fpTake P lc.b.re, fpTake P lc.b.im⟩ ∧
      exec (.bfly P) s = .next { s with lc := none, done := true, y0 := u, y1 := l } ∧
      u = ⟨fadd P (fpTake P lc.a.re) t.re, fadd P (fpTake P lc.a.im) t.im⟩ ∧
      l = ⟨fsub P (fpTake P lc.a.re) t.re, fsub P (fpTake P lc.a.im) t.im⟩ ∧
      (P = .p32 →
        u.re.extractLsb' 32 32 = 0 ∧ u.im.extractLsb' 32 32 = 0 ∧
        l.re.extractLsb' 32 32 = 0 ∧ l.im.extractLsb' 32 32 = 0)

/-- CONJ flips the sign of the imaginary part of every element of the region and changes no byte outside it and no other
state (spec/43_transform.md R130, spec/42_complex_multiplier.md R115). To flip a sign is to flip bit 31 in P32, bit 63 in
P64, and no other bit, whatever the value (R111). -/
def Obligations.ConjConjugatesEveryElement : Prop :=
  (∀ (x : Dword) (k : Nat), k < 64 →
    (fneg .p32 x).getLsbD k = (if k = 31 then !x.getLsbD k else x.getLsbD k) ∧
    (fneg .p64 x).getLsbD k = (if k = 63 then !x.getLsbD k else x.getLsbD k)) ∧
  ∀ (s : State) (lc : Latched) (F : Format), s.lc = some lc →
    ∃ b : Buf, exec (.conj F) s = .next { s with lc := none, done := true, buf := b } ∧
      (∀ i, i < 2 ^ lc.m →
        loadElem F lc.base.toNat i b =
          ⟨(loadElem F lc.base.toNat i s.buf).re, fneg (formatPrec F) (loadElem F lc.base.toNat i s.buf).im⟩) ∧
      ∀ a, ¬ inRegion F lc.base.toNat lc.m a → b.byte a = s.buf.byte a

/-- INORM multiplies both parts of every element of the region by 2^-m and flips the sign of the imaginary part; no byte
outside the region and no other state changes (spec/43_transform.md R132, R133). -/
def Obligations.InormScalesAndConjugates : Prop :=
  ∀ (s : State) (lc : Latched) (F : Format), s.lc = some lc →
    ∃ b : Buf, exec (.inorm F) s = .next { s with lc := none, done := true, buf := b } ∧
      (∀ i, i < 2 ^ lc.m →
        loadElem F lc.base.toNat i b =
          ⟨fscale (formatPrec F) (loadElem F lc.base.toNat i s.buf).re lc.m,
           fneg (formatPrec F) (fscale (formatPrec F) (loadElem F lc.base.toNat i s.buf).im lc.m)⟩) ∧
      ∀ a, ¬ inRegion F lc.base.toNat lc.m a → b.byte a = s.buf.byte a

/-- After BITREV index i holds the element that was at rev_m(i), in live and in LUT mode, and BITREV applied twice restores
every byte of BUF; no byte outside the region changes; LUT mode leaves PT[m] built, and nothing else changes
(spec/43_transform.md R123, R124). The premise on the tables is an invariant of every run (StepKeepsTheInvariant). -/
def Obligations.BitrevPermutesTheBuffer : Prop :=
  ∀ (s : State) (lc : Latched) (F : Format) (lut lut' : Bool), s.lc = some lc → SwapTablesRight s.pt →
    (∃ (b : Buf) (pt : List (Nat × List (Nat × Nat))),
      exec (.bitrev F lut) s = .next { s with lc := none, done := true, buf := b, pt := pt } ∧
      (∀ i, i < 2 ^ lc.m →
        loadElem F lc.base.toNat i b = loadElem F lc.base.toNat (bitRev lc.m i) s.buf) ∧
      (∀ a, ¬ inRegion F lc.base.toNat lc.m a → b.byte a = s.buf.byte a) ∧
      (lut = false → pt = s.pt) ∧
      (lut = true → findKey pt lc.m = some (swapPairs lc.m)) ∧
      ∀ k, k ≠ lc.m → findKey pt k = findKey s.pt k) ∧
    ∃ t, runLatched lc [.bitrev F lut, .bitrev F lut'] s = .next t ∧ ∀ a, t.buf.byte a = s.buf.byte a

/-- STAGE j, 1 ≤ j ≤ m, replaces the elements i and i + h, h = 2^(j-1), of every i with bit j-1 clear by the butterfly of
the two with the twiddle of offset i mod 2^j, in live and in LUT mode; no byte outside the region changes; LUT mode leaves
TT[m] built, and nothing else changes (spec/43_transform.md R126, R129, spec/41_lookup_tables.md R94, R95). The premise on
the tables is an invariant of every run (StepKeepsTheInvariant). -/
def Obligations.StageAppliesItsButterflies : Prop :=
  ∀ (s : State) (lc : Latched) (F : Format) (lut : Bool) (j : Nat),
    s.lc = some lc → TwiddleTablesRight s.tt → 1 ≤ j → j ≤ lc.m →
    ∃ (b : Buf) (tt : List (Nat × List TwiddlePair)),
      exec (.stage F lut j) s = .next { s with lc := none, done := true, buf := b, tt := tt } ∧
      (∀ i, i < 2 ^ lc.m → i / 2 ^ (j - 1) % 2 = 0 →
        (loadElem F lc.base.toNat i b, loadElem F lc.base.toNat (i + 2 ^ (j - 1)) b) =
          butterfly (formatPrec F) (loadElem F lc.base.toNat i s.buf)
            (loadElem F lc.base.toNat (i + 2 ^ (j - 1)) s.buf)
            (twiddleFactor (formatPrec F) (tw64 (i % 2 ^ j) j))) ∧
      (∀ a, ¬ inRegion F lc.base.toNat lc.m a → b.byte a = s.buf.byte a) ∧
      (lut = false → tt = s.tt) ∧
      (lut = true → findKey tt lc.m = some (twiddleTable lc.m)) ∧
      ∀ k, k ≠ lc.m → findKey tt k = findKey s.tt k

/-- For m ≥ 1 FFT completes, with exactly the state that its passes leave when each is run as a command of its own on the
same latched operands: CONJ (inverse only), BITREV, STAGE 1 to STAGE m, INORM (inverse only), in this order
(spec/43_transform.md R134, R136, R140). -/
def Obligations.FftEqualsItsPassSequence : Prop :=
  ∀ (s : State) (lc : Latched) (F : Format) (inv lut : Bool), s.lc = some lc → 1 ≤ lc.m →
    ∃ t : State, exec (.fft F inv lut) s = .next t ∧ runLatched lc (passCommands F inv lut lc.m) s = .next t

/-- An FFT on a buffer of magnitude 0 is accepted and completed and does nothing else: no byte of BUF and no table
changes, in either direction and mode (spec/43_transform.md R137). -/
def Obligations.FftOfMagnitudeZeroIsANoOp : Prop :=
  ∀ (s : State) (F : Format) (inv lut : Bool) (rest : List Input),
    s.lc = none → s.len = 2 → s.base.toNat % elemAlign F = 0 → s.base.toNat + elemSize F ≤ Config.bufBytes →
    s.inputs = .host (.writeReg 4 0x004 ((encode (.fft F inv lut)).setWidth 64)) :: .engine :: rest →
      core.run 2 s = .next { s with inputs := rest, reply := none, mag := 0, done := true }

/-- Execution is total: every command that is latched completes, whatever its operands and data, and raises no error and
sets no other status bit (spec/60_exceptions.md R148, spec/40_commands.md R89). -/
def Obligations.EveryLatchedCommandCompletes : Prop :=
  ∀ (i : Instr) (s : State), s.lc ≠ none →
    ∃ t, exec i s = .next t ∧ t.lc = none ∧ t.done = true ∧ t.err = s.err ∧ t.errcode = s.errcode ∧ t.ovr = s.ovr

/-- No command writes BASE, LEN, IDX, IEN, A, B or W, and each of BUF, Y0, Y1, the twiddle tables and the permutation tables
is written only by the commands that spec/30_encoding.md R75 lists for it (spec/40_commands.md R88); MAG is written at
acceptance, not here (R79). Of the tables only the one of the command's own magnitude is written, and that one is left built:
as it was, or with the contents of its magnitude (spec/41_lookup_tables.md R99). A buffer command leaves every byte outside
its region unchanged (spec/20_memory.md R48), where the permutation tables are right, an invariant of every run
(StepKeepsTheInvariant); for STAGE with j = 0 or j > m, which validation rejects, that rests on log entry 14. -/
def Obligations.CommandsWriteOnlyWhatTheyName : Prop :=
  ∀ (i : Instr) (s t : State) (lc : Latched), s.lc = some lc → exec i s = .next t →
    t.inputs = s.inputs ∧ t.reply = s.reply ∧ t.draws = s.draws ∧
    t.base = s.base ∧ t.len = s.len ∧ t.idx = s.idx ∧ t.mag = s.mag ∧
    t.doneIe = s.doneIe ∧ t.errIe = s.errIe ∧ t.ovrIe = s.ovrIe ∧ t.a = s.a ∧ t.b = s.b ∧ t.w = s.w ∧
    (i.bufferFormat = none → t.buf = s.buf) ∧
    (SwapTablesRight s.pt → ∀ F, i.bufferFormat = some F →
      ∀ a, ¬ inRegion F lc.base.toNat lc.m a → t.buf.byte a = s.buf.byte a) ∧
    ((∀ P lut m, i ≠ .twread P lut m) → (∀ P, i ≠ .cmul P) → (∀ P, i ≠ .bfly P) → t.y0 = s.y0) ∧
    ((∀ P, i ≠ .bfly P) → t.y1 = s.y1) ∧
    (i.buildsTwiddles lc.m = none → t.tt = s.tt) ∧
    (∀ k, i.buildsTwiddles lc.m ≠ some k → findKey t.tt k = findKey s.tt k) ∧
    (∀ k, i.buildsTwiddles lc.m = some k → findKey t.tt k = some ((findKey s.tt k).getD (twiddleTable k))) ∧
    (i.buildsSwaps lc.m = none → t.pt = s.pt) ∧
    (∀ k, i.buildsSwaps lc.m ≠ some k → findKey t.pt k = findKey s.pt k) ∧
    (∀ k, i.buildsSwaps lc.m = some k → findKey t.pt k = some ((findKey s.pt k).getD (swapPairs k)))

/-- Determinism: two states with the same latched command, right tables (which may differ in what is built) and, for a
buffer command, the same bytes in its region, complete with the same bytes in the region and the same results in Y0 and Y1
of the commands that write them (spec/70_reset_and_hazards.md R175). For STAGE with j = 0 or j > m and TWREAD with k ≥ 2^(m-1),
which validation rejects, it rests on log entries 14 and 15. -/
def Obligations.ResultsDependOnLatchedOperandsAndRegionOnly : Prop :=
  ∀ (i : Instr) (s s' : State) (lc : Latched),
    s.lc = some lc → s'.lc = some lc →
    TwiddleTablesRight s.tt → SwapTablesRight s.pt → TwiddleTablesRight s'.tt → SwapTablesRight s'.pt →
    (∀ F, i.bufferFormat = some F → ∀ a, inRegion F lc.base.toNat lc.m a → s.buf.byte a = s'.buf.byte a) →
      ∃ t t', exec i s = .next t ∧ exec i s' = .next t' ∧
        (∀ F, i.bufferFormat = some F → ∀ a, inRegion F lc.base.toNat lc.m a → t.buf.byte a = t'.buf.byte a) ∧
        (∀ P lut m, i = .twread P lut m → t.y0 = t'.y0) ∧
        (∀ P, i = .cmul P → t.y0 = t'.y0) ∧
        (∀ P, i = .bfly P → t.y0 = t'.y0 ∧ t.y1 = t'.y1)

/-- Table state never changes a result: a command run in live mode and in LUT mode, on right tables of which any may have
been built or not, leaves the same state but for the table caches (spec/41_lookup_tables.md R101). For STAGE with j = 0 or
j > m and TWREAD with k ≥ 2^(m-1), which validation rejects, it rests on log entries 14 and 15. -/
def Obligations.LiveAndLookupModesAgree : Prop :=
  ∀ (i : Instr) (s : State) (lc : Latched) (tt : List (Nat × List TwiddlePair)) (pt : List (Nat × List (Nat × Nat))),
    s.lc = some lc → TwiddleTablesRight s.tt → SwapTablesRight s.pt → TwiddleTablesRight tt → SwapTablesRight pt →
      ∀ lut lut' : Bool, ∃ t t',
        exec (i.withLut lut) s = .next t ∧ exec (i.withLut lut') { s with tt := tt, pt := pt } = .next t' ∧
        t' = { t with tt := t'.tt, pt := t'.pt }

/-- An F32 buffer and a PK64 buffer that hold the same values are transformed to the same values, bit for bit but for the
sign and payload of a NaN, in either direction and mode (spec/43_transform.md R141 (b)). -/
def Obligations.F32AndPk64TransformsAgree : Prop :=
  ∀ (s s' : State) (lc lc' : Latched) (inv lut lut' : Bool),
    s.lc = some lc → s'.lc = some lc' → lc.m = lc'.m →
    TwiddleTablesRight s.tt → SwapTablesRight s.pt → TwiddleTablesRight s'.tt → SwapTablesRight s'.pt →
    (∀ i, i < 2 ^ lc.m → loadElem .f32 lc.base.toNat i s.buf = loadElem .pk64 lc'.base.toNat i s'.buf) →
      ∃ t t', exec (.fft .f32 inv lut) s = .next t ∧ exec (.fft .pk64 inv lut') s' = .next t' ∧
        ∀ i, i < 2 ^ lc.m →
          cSame .p32 (loadElem .f32 lc.base.toNat i t.buf) (loadElem .pk64 lc'.base.toNat i t'.buf)

/-- CONJ and BITREV commute bit for bit (spec/43_transform.md R131). The premise on the tables is an invariant of every
run (StepKeepsTheInvariant). -/
def Obligations.ConjAndBitrevCommute : Prop :=
  ∀ (s : State) (lc : Latched) (F : Format) (lut : Bool), SwapTablesRight s.pt →
    ∃ t t', runLatched lc [.conj F, .bitrev F lut] s = .next t ∧ runLatched lc [.bitrev F lut, .conj F] s = .next t' ∧
      ∀ a, t.buf.byte a = t'.buf.byte a

/-- The swap pairs of a magnitude are pairwise disjoint, and the result of BITREV does not depend on the order in which its
swaps are made (spec/43_transform.md R125). -/
def Obligations.SwapOrderDoesNotMatter : Prop :=
  ∀ m : Nat,
    (swapPairs m).Pairwise (fun p q => p.1 ≠ q.1 ∧ p.1 ≠ q.2 ∧ p.2 ≠ q.1 ∧ p.2 ≠ q.2) ∧
    ∀ (F : Format) (base : Nat) (l : List (Nat × Nat)) (b : Buf), l.Perm (swapPairs m) →
      ∀ a, (swapElems F base l b).byte a = (swapElems F base (swapPairs m) b).byte a

/-- The result of STAGE does not depend on the order of its butterflies, each named by its offset o and its group g
(spec/43_transform.md R127). -/
def Obligations.ButterflyOrderDoesNotMatter : Prop :=
  ∀ (F : Format) (base m j : Nat) (tw : Nat → Cplx) (l : List (Nat × Nat)) (b : Buf), 1 ≤ j → j ≤ m →
    l.Perm ((List.range (2 ^ (j - 1))).flatMap fun o => (List.range (2 ^ (m - j))).map fun g => (o, g)) →
      ∀ a, (l.foldl (fun b' p => stagePair F base (2 ^ (j - 1)) (tw p.1) (p.1 + p.2 * 2 ^ j) b') b).byte a =
        (stageElems F base m j tw b).byte a

/-- The forward transform of the impulse (1, +0), (+0, +0), ... is (1, +0) at every element, exactly, for every m ≥ 1,
format, mode and twiddle generator that obeys the laws (the example of spec/43_transform.md R136 at every m). The value 1 is
0x3FF0000000000000 in F64 and 0x3F800000 in F32 and PK64. -/
def Obligations.ImpulseTransformsToOnes : Prop :=
  ∀ (s : State) (lc : Latched) (F : Format) (lut : Bool) (one : Dword),
    one = (if F = .f64 then 0x3FF0000000000000 else 0x3F800000) →
    s.lc = some lc → 1 ≤ lc.m → TwiddleTablesRight s.tt → SwapTablesRight s.pt →
    (∀ i, i < 2 ^ lc.m → loadElem F lc.base.toNat i s.buf = if i = 0 then ⟨one, 0⟩ else ⟨0, 0⟩) →
      ∃ t, exec (.fft F false lut) s = .next t ∧
        ∀ i, i < 2 ^ lc.m → loadElem F lc.base.toNat i t.buf = ⟨one, 0⟩

/-- FFT issued by the host, and the host sequence FFTSEQ or IFFTSEQ issued command by command with a WAIT after each, leave
the same bytes in BUF and the same tables (spec/43_transform.md R140, spec/30_encoding.md R73, R74). How WAIT becomes steps
is log entry 17. -/
def Obligations.HostSequenceEqualsFft : Prop :=
  ∀ (s : State) (F : Format) (inv lut : Bool) (m : Nat),
    s.lc = none → 1 ≤ m → s.validate (encode (.fft F inv lut)) = .ok m →
      ∃ t t',
        core.run 3 { s with inputs := programInputs [.issue (.fft F inv lut), .wait] } = .next t ∧
        core.run (programInputs (if inv then ifftSeq F lut m else fftSeq F lut m)).length
          { s with inputs := programInputs (if inv then ifftSeq F lut m else fftSeq F lut m) } = .next t' ∧
        (∀ a, t.buf.byte a = t'.buf.byte a) ∧ t.tt = t'.tt ∧ t.pt = t'.pt ∧ t.lc = none ∧ t'.lc = none

/-! The whole machine. -/

/-- Every step keeps the invariant: BUF canonical and inside its bounds, right tables, a latched command that passed
validation and whose copies equal the registers, a legal MAG, ERRCODE = 0 exactly when ERR = 0, DONE = 0 while BUSY. -/
def Obligations.StepKeepsTheInvariant : Prop :=
  ∀ s t : State, Inv s → step s = .next t → Inv t

/-- The invariant holds after reset. -/
def Obligations.ResetStateMeetsTheInvariant : Prop := Inv State.reset

/-- From a state that meets the invariant, with no refused access among the inputs, no run ends in a fault or a refusal:
every accepted command completes and never fails (spec/40_commands.md R89, spec/20_memory.md R43). -/
def Obligations.AdmittedRunsAreSafe : Prop :=
  ∀ s : State, Inv s → (∀ x ∈ s.inputs, x.admitted) → Safe s

/-- A BUSY command completes after finitely many steps, at most one more than the inputs still to come, if no reset is among
them (spec/40_commands.md R84). That the ENGINE moves when no input is left is the model's choice (log entry 1). -/
def Obligations.BusyCommandCompletes : Prop :=
  ∀ s : State, Inv s → s.lc ≠ none → (∀ x ∈ s.inputs, x.admitted) → (∀ x ∈ s.inputs, x ≠ .reset) →
    ∃ k t, k ≤ s.inputs.length + 1 ∧ core.run k s = .next t ∧ t.lc = none ∧ t.done = true

/-- Host accesses made while a command is BUSY neither disturb it nor see into it: whatever accesses come before the ENGINE's
turn, by offset or by bus address, none of them refused, the command leaves the same BUF, results, tables and host registers
as without them (spec/20_memory.md R42, R51, spec/70_reset_and_hazards.md R175). -/
def Obligations.HostCannotDisturbABusyCommand : Prop :=
  ∀ (s : State) (lc : Latched) (i : Instr) (xs : List Input),
    s.lc = some lc → decode lc.word = .ok i →
    (∀ x ∈ xs, (∃ y, x = .host y ∧ y.allowed) ∨ (∃ y, x = .bus y ∧ ∀ z, y.resolve = some z → z.allowed)) →
      ∃ t t',
        core.run 1 { s with inputs := [.engine] } = .next t ∧
        core.run (xs.length + 1) { s with inputs := xs ++ [.engine] } = .next t' ∧
        t'.buf = t.buf ∧ t'.y0 = t.y0 ∧ t'.y1 = t.y1 ∧ t'.tt = t.tt ∧ t'.pt = t.pt ∧ t'.mag = t.mag ∧
        t'.base = t.base ∧ t'.len = t.len ∧ t'.idx = t.idx ∧ t'.a = t.a ∧ t'.b = t.b ∧ t'.w = t.w ∧
        t'.lc = none ∧ t'.done = true

/-- Reset is the only event that empties a table; until then a built table is held unchanged (spec/10_state.md R38). -/
def Obligations.OnlyResetEmptiesATable : Prop :=
  ∀ s t : State, step s = .next t →
    (s.resetNext → ∀ m, findKey t.tt m = none ∧ findKey t.pt m = none) ∧
    (¬ s.resetNext → ∀ m,
      (∀ v, findKey s.tt m = some v → findKey t.tt m = some v) ∧
      (∀ v, findKey s.pt m = some v → findKey t.pt m = some v))

/-- No step sets two different STATUS bits (spec/60_exceptions.md R155). -/
def Obligations.NoStepSetsTwoStatusBits : Prop :=
  ∀ s t : State, step s = .next t →
    ([s.lc.isNone && t.lc.isSome, !s.done && t.done, !s.err && t.err, !s.ovr && t.ovr].count true) ≤ 1

/-- Each STATUS bit is set and cleared only by the events that spec/10_state.md R19 and spec/60_exceptions.md R153 list: BUSY
by acceptance and by completion or reset; DONE by completion and by a write of 1, a CMD write while IDLE, or reset; ERR by a
rejection, with its code, and by a write of 1 or reset; OVR by an access dropped or drawn while BUSY and by a write of 1 or
reset. -/
def Obligations.StatusBitsChangeOnlyAsListed : Prop :=
  ∀ s t : State, step s = .next t →
    (s.lc = none → t.lc ≠ none →
      ∃ v m, s.nextAccess = some (.writeReg 4 0x004 v) ∧ s.validate (v.setWidth 32) = .ok m) ∧
    (s.lc ≠ none → t.lc = none → s.engineNext ∨ s.resetNext) ∧
    (s.done = false → t.done = true → s.lc ≠ none ∧ t.lc = none ∧ s.engineNext) ∧
    (s.done = true → t.done = false →
      (∃ v, s.nextAccess = some (.writeReg 4 0x008 v) ∧ v.getLsbD 1 = true) ∨
      (s.lc = none ∧ ∃ v, s.nextAccess = some (.writeReg 4 0x004 v)) ∨ s.resetNext) ∧
    (s.err = false → t.err = true →
      s.lc = none ∧ ∃ v c, s.nextAccess = some (.writeReg 4 0x004 v) ∧ s.validate (v.setWidth 32) = .error c ∧
        t.errcode = c) ∧
    (s.err = true → t.err = false →
      ((∃ v, s.nextAccess = some (.writeReg 4 0x008 v) ∧ v.getLsbD 2 = true) ∨ s.resetNext) ∧ t.errcode = .none) ∧
    (s.ovr = false → t.ovr = true → s.lc ≠ none ∧ ∃ x, s.nextAccess = some x ∧ x.overruns) ∧
    (s.ovr = true → t.ovr = false →
      (∃ v, s.nextAccess = some (.writeReg 4 0x008 v) ∧ v.getLsbD 3 = true) ∨ s.resetNext)

/-- Reset, in any state, BUSY or not, leaves every piece of state as R37 lists it: IDLE with no latched command, every
register 0, every table empty, and every byte of BUF an arbitrary value that depends on nothing but its address and how many
resets there have been (spec/70_reset_and_hazards.md R164, R165; that function is log entry 2). The inputs and the count of
draws go on, and no value is returned (log entry 13). -/
def Obligations.ResetClearsEverything : Prop :=
  ∀ (s : State) (rest : List Input), s.inputs = .reset :: rest →
    ∃ t, step s = .next t ∧
      t.lc = none ∧ t.done = false ∧ t.err = false ∧ t.ovr = false ∧ t.errcode = .none ∧
      t.base = 0 ∧ t.len = 0 ∧ t.idx = 0 ∧ t.mag = 0 ∧
      t.doneIe = false ∧ t.errIe = false ∧ t.ovrIe = false ∧ t.irq = false ∧
      t.a = ⟨0, 0⟩ ∧ t.b = ⟨0, 0⟩ ∧ t.w = ⟨0, 0⟩ ∧ t.y0 = ⟨0, 0⟩ ∧ t.y1 = ⟨0, 0⟩ ∧
      (∀ m, findKey t.tt m = none ∧ findKey t.pt m = none) ∧
      (∀ a, t.buf.byte a = Config.bufDraw (s.buf.epoch + 1) a) ∧
      t.inputs = rest ∧ t.reply = none ∧ t.draws = s.draws

/-! The arithmetic. -/

/-- fadd and fsub of finite values return the exact sum or difference rounded once with roundTiesToEven, overflowing to
infinity; an exact zero is -0 exactly when both terms are negative zeros (spec/42_complex_multiplier.md R108, R109). Where a
term is an infinity and the operation is not invalid (R110), the result is that infinity, with the term's sign, which the
model takes from IEEE 754 (log entry 22). The infinities are the bit patterns that the last line gives (R107). -/
def Obligations.SumsAreCorrectlyRounded : Prop :=
  (∀ (P : Prec) (x y : Dword), fpIsFinite P x = true → fpIsFinite P y = true →
    RoundsTo P (fpSigned P x + fpSigned P y) 0 (fadd P x y) ∧
    (fpSigned P x + fpSigned P y = 0 →
      fpIsZero P (fadd P x y) = true ∧ fpSign P (fadd P x y) = (fpSign P x && fpSign P y)) ∧
    RoundsTo P (fpSigned P x - fpSigned P y) 0 (fsub P x y) ∧
    (fpSigned P x - fpSigned P y = 0 →
      fpIsZero P (fsub P x y) = true ∧ fpSign P (fsub P x y) = (fpSign P x && !fpSign P y))) ∧
  (∀ (P : Prec) (x y : Dword), fpIsInf P x = true → fpIsNaN P y = false →
    (fpIsInf P y = false ∨ fpSign P x = fpSign P y → fadd P x y = fpPack P (fpSign P x) (fpInfMag P)) ∧
    (fpIsInf P y = false ∨ fpSign P x ≠ fpSign P y → fsub P x y = fpPack P (fpSign P x) (fpInfMag P))) ∧
  (∀ (P : Prec) (x y : Dword), fpIsNaN P x = false → fpIsInf P y = true →
    (fpIsInf P x = false ∨ fpSign P x = fpSign P y → fadd P x y = fpPack P (fpSign P y) (fpInfMag P)) ∧
    (fpIsInf P x = false ∨ fpSign P x ≠ fpSign P y → fsub P x y = fpPack P (!fpSign P y) (fpInfMag P))) ∧
  fpPack .p32 false (fpInfMag .p32) = 0x7F800000 ∧ fpPack .p32 true (fpInfMag .p32) = 0xFF800000 ∧
  fpPack .p64 false (fpInfMag .p64) = 0x7FF0000000000000 ∧ fpPack .p64 true (fpInfMag .p64) = 0xFFF0000000000000

/-- fmul of finite values returns the exact product rounded once with roundTiesToEven, subnormals included, overflowing to
infinity (spec/42_complex_multiplier.md R108, R109), and an infinity times what is neither a zero nor a NaN is an infinity;
the sign is in each case the exclusive or of the signs, which for a zero and an infinity the model takes from IEEE 754 (log
entry 22). -/
def Obligations.ProductsAreCorrectlyRounded : Prop :=
  (∀ (P : Prec) (x y : Dword), fpIsFinite P x = true → fpIsFinite P y = true →
    RoundsTo P (fpSigned P x * fpSigned P y) (fpQuantum P) (fmul P x y) ∧
    fpSign P (fmul P x y) = (fpSign P x ^^ fpSign P y)) ∧
  ∀ (P : Prec) (x y : Dword),
    (fpIsInf P x = true ∧ fpIsNaN P y = false ∧ fpIsZero P y = false) ∨
      (fpIsInf P y = true ∧ fpIsNaN P x = false ∧ fpIsZero P x = false) →
    fmul P x y = fpPack P (fpSign P x ^^ fpSign P y) (fpInfMag P)

/-- scale_P(x, m) of a finite x, 0 ≤ m ≤ 30, returns x · 2^-m rounded once, with the sign of x (spec/42_complex_multiplier.md
R117); RN_32 of a finite binary64 value rounds it once to binary32, with its sign, and RN_64 is the identity
(spec/41_lookup_tables.md R95, spec/00_scope.md R9). Each keeps an infinity. The sign of a zero result and what becomes of an
infinity the model takes from IEEE 754 (log entry 22). -/
def Obligations.ScalingAndNarrowingAreCorrectlyRounded : Prop :=
  (∀ (P : Prec) (x : Dword) (m : Nat), m ≤ 30 →
    (fpIsFinite P x = true → RoundsTo P (fpSigned P x) m (fscale P x m) ∧ fpSign P (fscale P x m) = fpSign P x) ∧
    (fpIsInf P x = true → fscale P x m = fpPack P (fpSign P x) (fpInfMag P))) ∧
  (∀ x : Dword,
    (fpIsFinite .p64 x = true →
      RoundsTo .p32 (fpSigned .p64 x) 925 (fpRound .p32 x) ∧ fpSign .p32 (fpRound .p32 x) = fpSign .p64 x) ∧
    (fpIsInf .p64 x = true → fpRound .p32 x = fpPack .p32 (fpSign .p64 x) (fpInfMag .p32))) ∧
  ∀ x : Dword, fpRound .p64 x = x

/-- An operation returns a NaN exactly when an operand is NaN or the operation is invalid: infinities of unlike signs added,
of like signs subtracted, or zero times infinity (spec/42_complex_multiplier.md R110). What the NaN is stays open
(NAN_FN, log entry 8). -/
def Obligations.NanResultsExactlyWhenInvalid : Prop :=
  ∀ (P : Prec) (x y : Dword),
    (fpIsNaN P (fadd P x y) = true ↔
      fpIsNaN P x = true ∨ fpIsNaN P y = true ∨
        (fpIsInf P x = true ∧ fpIsInf P y = true ∧ fpSign P x ≠ fpSign P y)) ∧
    (fpIsNaN P (fsub P x y) = true ↔
      fpIsNaN P x = true ∨ fpIsNaN P y = true ∨
        (fpIsInf P x = true ∧ fpIsInf P y = true ∧ fpSign P x = fpSign P y)) ∧
    (fpIsNaN P (fmul P x y) = true ↔
      fpIsNaN P x = true ∨ fpIsNaN P y = true ∨
        (fpIsInf P x = true ∧ fpIsZero P y = true) ∨ (fpIsZero P x = true ∧ fpIsInf P y = true))

/-- The complex multiplier is commutative, bit for bit except in a NaN's sign and payload; and multiplying conjugates gives
the conjugate of the product, in the real part bit for bit except in a NaN, in the imaginary part except in a NaN and in the
sign of a zero (spec/42_complex_multiplier.md R119, its last two items). The two are the same bit for bit exactly when the
imaginary part is not an exact zero that two products of unlike signs leave: there R108 makes the sum +0 on both sides, and
the conjugate of one is -0 (log entry 18). -/
def Obligations.MultiplierSymmetries : Prop :=
  ∀ (P : Prec) (w z : Cplx),
    cSame P (cmul P w z) (cmul P z w) ∧
    fpSame P (cmul P (cconj P w) (cconj P z)).re (cconj P (cmul P w z)).re ∧
    fpSameUpToZero P (cmul P (cconj P w) (cconj P z)).im (cconj P (cmul P w z)).im ∧
    (cSame P (cmul P (cconj P w) (cconj P z)) (cconj P (cmul P w z)) ↔
      ¬ (fpIsZero P (cmul P w z).im = true ∧ fpSign P (fmul P w.re z.im) ≠ fpSign P (fmul P w.im z.re)))

/-- R119's sixth item as it stands: multiplying conjugates gives the conjugate of the product, bit for bit except in a
NaN's sign and payload. Expected to FAIL: where the two products of the imaginary part cancel exactly, R108 makes the sum +0
on both sides and the conjugate then -0 on one (log entry 18). -/
def Obligations.ConjugateSymmetryBitForBit : Prop :=
  ∀ (P : Prec) (w z : Cplx), cSame P (cmul P (cconj P w) (cconj P z)) (cconj P (cmul P w z))

/-- The laws of the twiddle generator: TW-ZERO, TW-SCALE and TW-FINITE (spec/41_lookup_tables.md R92). -/
def Obligations.TwiddleLawsHold : Prop :=
  (∀ m, 1 ≤ m → tw64 0 m = ⟨0x0000000000000000, 0x3FF0000000000000⟩) ∧
  (∀ k m a, k < 2 ^ (m - 1) → tw64 (k * 2 ^ a) (m + a) = tw64 k m) ∧
  (∀ k m, fpIsFinite .p64 (tw64 k m).sin = true ∧ fpQuanta .p64 (tw64 k m).sin ≤ 2 ^ 1074 ∧
    fpIsFinite .p64 (tw64 k m).cos = true ∧ fpQuanta .p64 (tw64 k m).cos ≤ 2 ^ 1074)

/-- rev_m moves bit b to bit m-1-b, stays below 2^m, and is its own inverse (spec/41_lookup_tables.md R97). -/
def Obligations.BitReversalIsAnInvolution : Prop :=
  bitRev 0 0 = 0 ∧
  ∀ m k : Nat, k < 2 ^ m →
    bitRev m k < 2 ^ m ∧ bitRev m (bitRev m k) = k ∧
    ∀ b, b < m → (bitRev m k).testBit (m - 1 - b) = k.testBit b

/-- PT[m] has (2^m - 2^ceil(m/2)) / 2 pairs (spec/41_lookup_tables.md R105). -/
def Obligations.SwapTableSize : Prop :=
  ∀ m : Nat, (swapPairs m).length = (2 ^ m - 2 ^ ((m + 1) / 2)) / 2

/-! The element formats. -/

/-- The three element formats in numbers: FMT, ES, AL and P(F); FMT = 3 is no format, and a buffer command with it is
BAD_FIELD; and LoadElem and StoreElem of element i byte address by byte address: F32 re at base + 8i and im at base + 8i + 4,
F64 re at base + 16i and im at base + 16i + 8, PK64 one word at base + 8i with re in its upper and im in its lower half
(spec/20_memory.md R44 to R47). -/
def Obligations.FormatsLayOutTheirElements : Prop :=
  (Format.ofBits 0 = some .f32 ∧ elemSize .f32 = 8 ∧ elemAlign .f32 = 4 ∧ formatPrec .f32 = .p32) ∧
  (Format.ofBits 1 = some .f64 ∧ elemSize .f64 = 16 ∧ elemAlign .f64 = 8 ∧ formatPrec .f64 = .p64) ∧
  (Format.ofBits 2 = some .pk64 ∧ elemSize .pk64 = 8 ∧ elemAlign .pk64 = 8 ∧ formatPrec .pk64 = .p32) ∧
  (Format.ofBits 3 = none ∧
    ∀ w : Word, 1 ≤ (opField w).toNat → (opField w).toNat ≤ 5 → fmtField w = 3 → decode w = .error .badField) ∧
  ∀ (base i : Nat) (b : Buf) (re im : Dword),
    loadElem .f32 base i b = ⟨memRead b (base + 8 * i) 4, memRead b (base + 8 * i + 4) 4⟩ ∧
    loadElem .f64 base i b = ⟨memRead b (base + 16 * i) 8, memRead b (base + 16 * i + 8) 8⟩ ∧
    loadElem .pk64 base i b =
      ⟨((memRead b (base + 8 * i) 8).extractLsb' 32 32).setWidth 64,
       ((memRead b (base + 8 * i) 8).extractLsb' 0 32).setWidth 64⟩ ∧
    storeElem .f32 base i ⟨re, im⟩ b = memWrite (memWrite b (base + 8 * i) 4 re) (base + 8 * i + 4) 4 im ∧
    storeElem .f64 base i ⟨re, im⟩ b = memWrite (memWrite b (base + 16 * i) 8 re) (base + 16 * i + 8) 8 im ∧
    storeElem .pk64 base i ⟨re, im⟩ b = memWrite b (base + 8 * i) 8 (re.extractLsb' 0 32 ++ im.extractLsb' 0 32)

end ObligationStatements
end

