-- ==== Sys2Proof/Laws/Keyed.lean ====
section
/-! SUPPORT. The laws of lists keyed by a number: what a key holds after one is set, and that rising keys stay so. -/

namespace Sys2Proof.Machine

variable {α : Type}

theorem findKey_setKey_same (l : List (Nat × α)) (k : Nat) (v : α) : findKey (setKey l k v) k = some v := by
  induction l with
  | nil => simp [setKey, findKey]
  | cons e r ih =>
    obtain ⟨j, u⟩ := e
    unfold setKey
    split
    · rename_i h
      simp [findKey, Nat.ne_of_lt h, ih]
    · split <;> simp [findKey]

theorem findKey_setKey_other (l : List (Nat × α)) {k k' : Nat} (v : α) (h : k' ≠ k) :
    findKey (setKey l k v) k' = findKey l k' := by
  induction l with
  | nil => simp [setKey, findKey, h.symm]
  | cons e r ih =>
    obtain ⟨j, u⟩ := e
    unfold setKey
    split
    · simp [findKey, ih]
    · split
      · rename_i hjk
        subst hjk
        simp [findKey, h.symm]
      · simp [findKey, h.symm]

/-- What a key holds after a key is set. -/
theorem findKey_setKey (l : List (Nat × α)) (k k' : Nat) (v : α) :
    findKey (setKey l k v) k' = if k' = k then some v else findKey l k' := by
  by_cases h : k' = k
  · subst h; simp [findKey_setKey_same]
  · simp [h, findKey_setKey_other l v h]

theorem keysAbove_setKey (l : List (Nat × α)) {n k : Nat} (v : α) (h : keysAbove n l = true) (hk : n < k) :
    keysAbove n (setKey l k v) = true := by
  induction l generalizing n with
  | nil => simp [setKey, keysAbove, hk]
  | cons e r ih =>
    obtain ⟨j, u⟩ := e
    simp only [keysAbove, Bool.and_eq_true, decide_eq_true_eq] at h
    unfold setKey
    split
    · rename_i hjk
      simp [keysAbove, h.1, ih h.2 hjk]
    · split
      · rename_i hjk
        subst hjk
        simp [keysAbove, h.1, h.2]
      · rename_i h1 h2
        have hkj : k < j := by omega
        simp [keysAbove, hk, hkj, h.2]

/-- Setting a key keeps the keys rising. -/
theorem keysRising_setKey (l : List (Nat × α)) (k : Nat) (v : α) (h : keysRising l = true) :
    keysRising (setKey l k v) = true := by
  cases l with
  | nil => simp [setKey, keysRising, keysAbove]
  | cons e r =>
    obtain ⟨j, u⟩ := e
    simp only [keysRising] at h
    unfold setKey
    split
    · rename_i hjk
      exact keysAbove_setKey r v h hjk
    · split
      · rename_i hjk
        subst hjk
        exact h
      · rename_i h1 h2
        have hkj : k < j := by omega
        simp [keysRising, keysAbove, hkj, h]

/-- The entries after a key is set: the new one, or old ones. -/
theorem mem_setKey {l : List (Nat × α)} {k : Nat} {v : α} {e : Nat × α} (h : e ∈ setKey l k v) :
    e = (k, v) ∨ e ∈ l := by
  induction l with
  | nil => simpa [setKey] using h
  | cons x r ih =>
    obtain ⟨j, u⟩ := x
    unfold setKey at h
    split at h
    · rcases List.mem_cons.1 h with h | h
      · exact .inr (by simp [h])
      · rcases ih h with h | h
        · exact .inl h
        · exact .inr (List.mem_cons_of_mem _ h)
    · split at h
      · rcases List.mem_cons.1 h with h | h
        · exact .inl h
        · exact .inr (List.mem_cons_of_mem _ h)
      · rcases List.mem_cons.1 h with h | h
        · exact .inl h
        · exact .inr h

/-- A key that is found is listed with its value. -/
theorem mem_of_findKey {l : List (Nat × α)} {k : Nat} {v : α} (h : findKey l k = some v) : (k, v) ∈ l := by
  induction l with
  | nil => simp [findKey] at h
  | cons x r ih =>
    obtain ⟨j, u⟩ := x
    unfold findKey at h
    split at h
    · rename_i hj
      simp only [Option.some.injEq] at h
      simp [hj, h]
    · exact List.mem_cons_of_mem _ (ih h)

/-- One more turn of a loop. -/
theorem forRange_succ {β : Type} (n : Nat) (f : Nat → β → β) (x : β) :
    forRange (n + 1) f x = f n (forRange n f x) := rfl

@[simp] theorem forRange_zero {β : Type} (f : Nat → β → β) (x : β) : forRange 0 f x = x := rfl

/-- A loop keeps a property that every turn keeps. -/
theorem forRange_keeps {β : Type} (p : β → Prop) (f : Nat → β → β) (n : Nat) (x : β) (hx : p x)
    (hf : ∀ i y, i < n → p y → p (f i y)) : p (forRange n f x) := by
  induction n with
  | zero => exact hx
  | succ n ih => exact hf n _ (Nat.lt_succ_self n) (ih fun i y hi => hf i y (Nat.lt_succ_of_lt hi))

/-- Two loops with bodies that agree on their range agree. -/
theorem forRange_congr {β : Type} {f g : Nat → β → β} (n : Nat) (x : β)
    (h : ∀ i y, i < n → f i y = g i y) : forRange n f x = forRange n g x := by
  induction n with
  | zero => rfl
  | succ n ih =>
    rw [forRange_succ, forRange_succ, ih fun i y hi => h i y (Nat.lt_succ_of_lt hi)]
    exact h n _ (Nat.lt_succ_self n)

end Sys2Proof.Machine
end

