-- ==== Sys2Proof/Laws/Buffer.lean ====
section
/-! SUPPORT. The laws of BUF: a byte after a byte is written, MemRead and MemWrite byte by byte, and the canonical form. -/

namespace Sys2Proof.Machine

@[simp] theorem setByte_epoch (b : Buf) (a : Nat) (v : Byte) : (b.setByte a v).epoch = b.epoch := rfl

/-- One byte after one byte is written. -/
theorem byte_setByte (b : Buf) (a a' : Nat) (v : Byte) :
    (b.setByte a v).byte a' = if a' = a then v else b.byte a' := by
  unfold Buf.byte Buf.setByte Buf.unlisted
  simp only [findKey_setKey]
  by_cases h : a' = a <;> simp [h]

theorem writeNat_succ (b : Buf) (a n v : Nat) :
    b.writeNat a (n + 1) v = (b.setByte a (BitVec.ofNat 8 v)).writeNat (a + 1) n (v / 256) := rfl

theorem readNat_succ (b : Buf) (a n : Nat) : b.readNat a (n + 1) = (b.byte a).toNat + 256 * b.readNat (a + 1) n := rfl

/-- A write changes only the bytes it stores to. -/
theorem byte_writeNat_outside (b : Buf) (a n v x : Nat) (h : x < a ∨ a + n ≤ x) :
    (b.writeNat a n v).byte x = b.byte x := by
  induction n generalizing b a v with
  | zero => rfl
  | succ n ih =>
    rw [writeNat_succ, ih _ _ _ (by omega), byte_setByte, if_neg (by omega)]

/-- The bytes a write stores. -/
theorem byte_writeNat_inside (b : Buf) (a n v j : Nat) (h : j < n) :
    (b.writeNat a n v).byte (a + j) = BitVec.ofNat 8 (v / 256 ^ j) := by
  induction n generalizing b a v j with
  | zero => omega
  | succ n ih =>
    rw [writeNat_succ]
    cases j with
    | zero => rw [byte_writeNat_outside _ _ _ _ _ (by omega), byte_setByte]; simp
    | succ j =>
      rw [show a + (j + 1) = a + 1 + j by omega, ih _ _ _ _ (by omega), Nat.div_div_eq_div_mul, Nat.pow_succ, Nat.mul_comm 256]

/-- A read depends only on the bytes it reads. -/
theorem readNat_congr (b b' : Buf) (a n : Nat) (h : ∀ x, a ≤ x → x < a + n → b.byte x = b'.byte x) :
    b.readNat a n = b'.readNat a n := by
  induction n generalizing a with
  | zero => rfl
  | succ n ih =>
    rw [readNat_succ, readNat_succ, h a (by omega) (by omega), ih (a + 1) fun x h1 h2 => h x (by omega) (by omega)]

theorem readNat_lt (b : Buf) (a n : Nat) : b.readNat a n < 256 ^ n := by
  induction n generalizing a with
  | zero => simp [Buf.readNat]
  | succ n ih =>
    rw [readNat_succ, Nat.pow_succ]
    have h1 := ih (a + 1)
    have h2 := (b.byte a).isLt
    omega

/-- Reading what was just written. -/
theorem readNat_writeNat_same (b : Buf) (a n v : Nat) : (b.writeNat a n v).readNat a n = v % 256 ^ n := by
  induction n generalizing b a v with
  | zero => simp [Buf.readNat, Nat.mod_one]
  | succ n ih =>
    rw [readNat_succ, writeNat_succ, byte_writeNat_outside _ _ _ _ _ (by omega), byte_setByte, if_pos rfl, ih]
    rw [Nat.pow_succ, Nat.mul_comm (256 ^ n) 256, Nat.mod_mul]
    simp [BitVec.toNat_ofNat]

/-- Reading bytes that a write leaves alone. -/
theorem readNat_writeNat_apart (b : Buf) (a n v a' n' : Nat) (h : a' + n' ≤ a ∨ a + n ≤ a') :
    (b.writeNat a n v).readNat a' n' = b.readNat a' n' :=
  readNat_congr _ _ _ _ fun x h1 h2 => byte_writeNat_outside _ _ _ _ _ (by omega)

theorem memRead_toNat (b : Buf) (a n : Nat) (h : n ≤ 8) : (memRead b a n).toNat = b.readNat a n := by
  unfold memRead
  rw [BitVec.toNat_ofNat, Nat.mod_eq_of_lt]
  exact Nat.lt_of_lt_of_le (readNat_lt b a n) (by
    calc 256 ^ n ≤ 256 ^ 8 := Nat.pow_le_pow_right (by omega) h
      _ = 2 ^ 64 := by norm_num)

/-- MemRead after MemWrite at the same place. -/
theorem memRead_memWrite_same (b : Buf) (a n : Nat) (v : Dword) (h : n ≤ 8) :
    memRead (memWrite b a n v) a n = lowBytes n v := by
  apply BitVec.eq_of_toNat_eq
  rw [memRead_toNat _ _ _ h]
  unfold memWrite lowBytes
  rw [readNat_writeNat_same, BitVec.toNat_ofNat, show (256 : Nat) ^ n = 2 ^ (8 * n) by rw [Nat.pow_mul]]
  rw [Nat.mod_eq_of_lt (b := 2 ^ 64)]
  exact Nat.lt_of_le_of_lt (Nat.mod_le _ _) v.isLt

/-- MemRead of bytes that a MemWrite leaves alone. -/
theorem memRead_memWrite_apart (b : Buf) (a n : Nat) (v : Dword) (a' n' : Nat) (h : a' + n' ≤ a ∨ a + n ≤ a') :
    memRead (memWrite b a n v) a' n' = memRead b a' n' := by
  unfold memRead memWrite
  rw [readNat_writeNat_apart _ _ _ _ _ _ h]

theorem memRead_congr (b b' : Buf) (a n : Nat) (h : ∀ x, a ≤ x → x < a + n → b.byte x = b'.byte x) :
    memRead b a n = memRead b' a n := by
  unfold memRead
  rw [readNat_congr b b' a n h]

theorem byte_memWrite_outside (b : Buf) (a n : Nat) (v : Dword) (x : Nat) (h : x < a ∨ a + n ≤ x) :
    (memWrite b a n v).byte x = b.byte x := byte_writeNat_outside _ _ _ _ _ h

@[simp] theorem lowBytes_eight (v : Dword) : lowBytes 8 v = v := by
  apply BitVec.eq_of_toNat_eq
  have := v.isLt
  simp [lowBytes]
  omega

/-! The canonical form. -/

theorem setByte_wf (b : Buf) (a : Nat) (v : Byte) (h : Memory.wf b = true) : Memory.wf (b.setByte a v) = true :=
  keysRising_setKey b.cells a v h

theorem writeNat_wf (b : Buf) (a n v : Nat) (h : Memory.wf b = true) : Memory.wf (b.writeNat a n v) = true := by
  induction n generalizing b a v with
  | zero => exact h
  | succ n ih => exact ih _ _ _ (setByte_wf _ _ _ h)

/-- Every memory operation keeps the canonical form. -/
theorem memWrite_wf (b : Buf) (a n : Nat) (v : Dword) (h : Memory.wf b = true) : Memory.wf (memWrite b a n v) = true :=
  writeNat_wf _ _ _ _ h

theorem reset_buf_wf : Memory.wf State.reset.buf = true := rfl

theorem setByte_cells_inside (b : Buf) (a : Nat) (v : Byte) (n : Nat) (h : ∀ c ∈ b.cells, c.1 < n) (ha : a < n) :
    ∀ c ∈ (b.setByte a v).cells, c.1 < n := by
  intro c hc
  rcases mem_setKey hc with rfl | hc
  · exact ha
  · exact h c hc

/-- A write inside a bound keeps every listed address inside it. -/
theorem memWrite_cells_inside (b : Buf) (a k : Nat) (v : Dword) (n : Nat) (h : ∀ c ∈ b.cells, c.1 < n)
    (ha : a + k ≤ n) : ∀ c ∈ (memWrite b a k v).cells, c.1 < n := by
  unfold memWrite
  generalize v.toNat = u
  induction k generalizing b a u with
  | zero => exact h
  | succ k ih => exact ih _ _ (setByte_cells_inside b a _ n h (by omega)) (by omega) _

end Sys2Proof.Machine
end

