-- ==== Sys2Proof/Laws/Decode.lean ====
section
/-! SUPPORT. The laws of the command word: a word is its fields, and a masked match fixes the fields under the mask. -/

namespace Sys2Proof

theorem opField_toNat (w : Word) : (opField w).toNat = w.toNat % 16 := by
  simp [opField, BitVec.extractLsb'_toNat]

theorem fmtField_toNat (w : Word) : (fmtField w).toNat = w.toNat / 16 % 4 := by
  simp [fmtField, BitVec.extractLsb'_toNat, Nat.shiftRight_eq_div_pow]

theorem argField_eq (w : Word) : argField w = w.toNat / 256 % 32 := by
  simp [argField, BitVec.extractLsb'_toNat, Nat.shiftRight_eq_div_pow]

theorem invField_toNat (w : Word) : (invField w).toNat = w.toNat / 64 % 2 := by
  simp only [invField, BitVec.getLsbD, Nat.testBit_eq_decide_div_mod_eq]
  rcases Nat.mod_two_eq_zero_or_one (w.toNat / 2 ^ 6) with h | h <;> simp_all

theorem lutField_toNat (w : Word) : (lutField w).toNat = w.toNat / 128 % 2 := by
  simp only [lutField, BitVec.getLsbD, Nat.testBit_eq_decide_div_mod_eq]
  rcases Nat.mod_two_eq_zero_or_one (w.toNat / 2 ^ 7) with h | h <;> simp_all

/-- A word is the sum of its six fields. -/
theorem word_toNat_fields (w : Word) :
    w.toNat = (opField w).toNat + (fmtField w).toNat * 2 ^ 4 + (invField w).toNat * 2 ^ 6 +
      (lutField w).toNat * 2 ^ 7 + argField w * 2 ^ 8 + w.toNat / 8192 * 8192 := by
  rw [opField_toNat, fmtField_toNat, invField_toNat, lutField_toNat, argField_eq]
  omega

/-- A word whose RSV field is 0 is the command word of its fields. -/
theorem commandWord_of_fields (w : Word) (h : w.toNat / 8192 = 0) :
    commandWord (opField w).toNat (fmtField w).toNat (invField w) (lutField w) (argField w) = w := by
  apply BitVec.eq_of_toNat_eq
  unfold commandWord
  have h1 := word_toNat_fields w
  have h2 := w.isLt
  rw [BitVec.toNat_ofNat]
  omega

/-- A masked match fixes every field that the mask covers. -/
theorem extract_of_masked {w mask pattern : Word} (h : w &&& mask = pattern) (s n : Nat)
    (hm : mask.extractLsb' s n = BitVec.allOnes n) : w.extractLsb' s n = pattern.extractLsb' s n := by
  rw [← h, BitVec.extractLsb'_and, hm, BitVec.and_allOnes]

/-- A masked match fixes every bit that the mask covers. -/
theorem bit_of_masked {w mask pattern : Word} (h : w &&& mask = pattern) (k : Nat) (hm : mask.getLsbD k = true) :
    w.getLsbD k = pattern.getLsbD k := by
  rw [← h, BitVec.getLsbD_and, hm, Bool.and_true]

theorem opMap_rsv : ∀ r ∈ opMap, r.mask.extractLsb' 13 19 = BitVec.allOnes 19 ∧ r.pattern.extractLsb' 13 19 = 0#19 := by
  decide

/-- RSV is covered by every row's mask and 0 in every row's pattern. -/
theorem rsv_zero_of_masked {w : Word} {r : OpRow} (hr : r ∈ opMap) (h : w &&& r.mask = r.pattern) : w.toNat / 8192 = 0 := by
  have hx := extract_of_masked h 13 19 (opMap_rsv r hr).1
  rw [(opMap_rsv r hr).2] at hx
  have := congrArg BitVec.toNat hx
  simp only [BitVec.extractLsb'_toNat, Nat.shiftRight_eq_div_pow, BitVec.toNat_ofNat] at this
  have h2 := w.isLt
  omega

end Sys2Proof
end

