-- ==== Sys2Proof/Laws/Float.lean ====
section
/-! SUPPORT. Small laws of the arithmetic: packing, and that every result is a value of its precision. -/

namespace Sys2Proof.Machine

/-- A half that holds a value of precision P and nothing above it. -/
def IsValue (P : Prec) (x : Dword) : Prop := x.toNat < 2 ^ fpWidth P

/-- A complex value of precision P. -/
def IsCValue (P : Prec) (z : Cplx) : Prop := IsValue P z.re ∧ IsValue P z.im

theorem isValue_p64 (x : Dword) : IsValue .p64 x := x.isLt

theorem isValue_fpTake (P : Prec) (x : Dword) : IsValue P (fpTake P x) := by
  unfold IsValue fpTake
  rw [BitVec.toNat_ofNat]
  exact Nat.lt_of_le_of_lt (Nat.mod_le _ _) (Nat.mod_lt _ (by positivity))

theorem fpTake_of_isValue {P : Prec} {x : Dword} (h : IsValue P x) : fpTake P x = x := by
  apply BitVec.eq_of_toNat_eq
  unfold fpTake
  rw [BitVec.toNat_ofNat, Nat.mod_eq_of_lt h, Nat.mod_eq_of_lt x.isLt]

theorem operandOf_of_isCValue {P : Prec} {z : Cplx} (h : IsCValue P z) : operandOf P z = z := by
  unfold operandOf
  rw [fpTake_of_isValue h.1, fpTake_of_isValue h.2]

theorem isCValue_operandOf (P : Prec) (z : Cplx) : IsCValue P (operandOf P z) :=
  ⟨isValue_fpTake P _, isValue_fpTake P _⟩

theorem fpInfMag_lt (P : Prec) : fpInfMag P + 2 ^ fpFrac P ≤ 2 ^ (fpWidth P - 1) := by
  cases P <;> decide +kernel

theorem fpWidth_le (P : Prec) : fpWidth P ≤ 64 := by cases P <;> decide

theorem pow_fpWidth (P : Prec) : 2 ^ fpWidth P = 2 ^ (fpWidth P - 1) + 2 ^ (fpWidth P - 1) := by
  cases P <;> decide +kernel

theorem fpPack_toNat (P : Prec) (neg : Bool) (m : Nat) (h : m < 2 ^ (fpWidth P - 1)) :
    (fpPack P neg m).toNat = m + if neg then 2 ^ (fpWidth P - 1) else 0 := by
  unfold fpPack
  rw [BitVec.toNat_ofNat, Nat.mod_eq_of_lt]
  have h1 := pow_fpWidth P
  have h2 : 2 ^ fpWidth P ≤ 2 ^ 64 := Nat.pow_le_pow_right (by omega) (fpWidth_le P)
  split <;> omega

theorem isValue_fpPack (P : Prec) (neg : Bool) (m : Nat) (h : m < 2 ^ (fpWidth P - 1)) : IsValue P (fpPack P neg m) := by
  unfold IsValue
  rw [fpPack_toNat P neg m h]
  have := pow_fpWidth P
  split <;> omega

/-- The magnitude of a packed value. -/
theorem fpMag_fpPack (P : Prec) (neg : Bool) (m : Nat) (h : m < 2 ^ (fpWidth P - 1)) : fpMag P (fpPack P neg m) = m := by
  unfold fpMag
  rw [fpPack_toNat P neg m h]
  split
  · rw [Nat.add_mod_right, Nat.mod_eq_of_lt h]
  · rw [Nat.add_zero, Nat.mod_eq_of_lt h]

/-- The sign of a packed value. -/
theorem fpSign_fpPack (P : Prec) (neg : Bool) (m : Nat) (h : m < 2 ^ (fpWidth P - 1)) :
    fpSign P (fpPack P neg m) = neg := by
  have hlow : Nat.testBit m (fpWidth P - 1) = false := Nat.testBit_lt_two_pow h
  unfold fpSign
  rw [BitVec.getLsbD, fpPack_toNat P neg m h]
  cases neg
  · simp [hlow]
  · rw [if_pos rfl, Nat.add_comm, Nat.testBit_two_pow_add_eq, hlow]; rfl

theorem roundMag_le (P : Prec) (n s : Nat) : roundMag P n s ≤ fpInfMag P := Nat.min_le_right _ _

theorem fpInfMag_lt_top (P : Prec) : fpInfMag P < 2 ^ (fpWidth P - 1) := by
  have := fpInfMag_lt P
  have := Nat.two_pow_pos (fpFrac P)
  omega

theorem roundMag_lt_top (P : Prec) (n s : Nat) : roundMag P n s < 2 ^ (fpWidth P - 1) :=
  Nat.lt_of_le_of_lt (roundMag_le P n s) (fpInfMag_lt_top P)

theorem nanMag_lt_top (P : Prec) (k : Nat) : fpInfMag P + 1 + k % (2 ^ fpFrac P - 1) < 2 ^ (fpWidth P - 1) := by
  have h := fpInfMag_lt P
  have hp : 0 < 2 ^ fpFrac P - 1 := by cases P <;> decide +kernel
  have := Nat.mod_lt k hp
  omega

theorem isValue_fpNaN (op : FpOp) (P : Prec) (x y : Dword) : IsValue P (fpNaN op P x y) :=
  isValue_fpPack _ _ _ (nanMag_lt_top P _)

/-- NAN_FN's NaN is a NaN. -/
theorem fpIsNaN_fpNaN (op : FpOp) (P : Prec) (x y : Dword) : fpIsNaN P (fpNaN op P x y) = true := by
  unfold fpIsNaN fpNaN
  rw [fpMag_fpPack _ _ _ (nanMag_lt_top P _)]
  simp only [decide_eq_true_eq]
  omega

theorem isValue_fpSum (P : Prec) (x y : Dword) : IsValue P (fpSum P x y) := by
  unfold fpSum
  split
  · exact isValue_fpPack _ _ _ (fpInfMag_lt_top P)
  · split
    · exact isValue_fpPack _ _ _ (fpInfMag_lt_top P)
    · dsimp only
      split
      · exact isValue_fpPack _ _ _ (Nat.two_pow_pos _)
      · exact isValue_fpPack _ _ _ (roundMag_lt_top P _ _)

theorem isValue_fadd (P : Prec) (x y : Dword) : IsValue P (fadd P x y) := by
  unfold fadd
  split
  · exact isValue_fpNaN _ _ _ _
  · exact isValue_fpSum _ _ _

theorem isValue_fsub (P : Prec) (x y : Dword) : IsValue P (fsub P x y) := by
  unfold fsub
  split
  · exact isValue_fpNaN _ _ _ _
  · exact isValue_fpSum _ _ _

theorem isValue_fmul (P : Prec) (x y : Dword) : IsValue P (fmul P x y) := by
  unfold fmul
  split
  · exact isValue_fpNaN _ _ _ _
  · split
    · exact isValue_fpPack _ _ _ (fpInfMag_lt_top P)
    · exact isValue_fpPack _ _ _ (roundMag_lt_top P _ _)

theorem fneg_toNat (P : Prec) (x : Dword) : (fneg P x).toNat = x.toNat ^^^ 2 ^ (fpWidth P - 1) := by
  unfold fneg
  rw [BitVec.toNat_xor, BitVec.toNat_ofNat, Nat.mod_eq_of_lt]
  exact Nat.pow_lt_pow_right (by omega) (by cases P <;> decide)

theorem isValue_fneg {P : Prec} {x : Dword} (h : IsValue P x) : IsValue P (fneg P x) := by
  unfold IsValue at *
  rw [fneg_toNat]
  exact Nat.xor_lt_two_pow h (Nat.pow_lt_pow_right (by omega) (by cases P <;> decide))

/-- Flipping the sign twice restores the value. -/
@[simp] theorem fneg_fneg (P : Prec) (x : Dword) : fneg P (fneg P x) = x := by
  unfold fneg
  rw [BitVec.xor_assoc, BitVec.xor_self, BitVec.xor_zero]

theorem fneg_getLsbD (P : Prec) (x : Dword) (i : Nat) :
    (fneg P x).getLsbD i = (x.getLsbD i ^^ decide (i = fpWidth P - 1)) := by
  rw [BitVec.getLsbD, fneg_toNat, Nat.testBit_xor, Nat.testBit_two_pow]
  simp [BitVec.getLsbD, eq_comm]

@[simp] theorem fpSign_fneg (P : Prec) (x : Dword) : fpSign P (fneg P x) = !fpSign P x := by
  simp [fpSign, fneg_getLsbD]

@[simp] theorem fpMag_fneg (P : Prec) (x : Dword) : fpMag P (fneg P x) = fpMag P x := by
  unfold fpMag
  rw [fneg_toNat, Nat.xor_mod_two_pow, Nat.mod_self, Nat.xor_zero]

@[simp] theorem fpIsNaN_fneg (P : Prec) (x : Dword) : fpIsNaN P (fneg P x) = fpIsNaN P x := by simp [fpIsNaN]

@[simp] theorem fpIsInf_fneg (P : Prec) (x : Dword) : fpIsInf P (fneg P x) = fpIsInf P x := by simp [fpIsInf]

@[simp] theorem fpIsZero_fneg (P : Prec) (x : Dword) : fpIsZero P (fneg P x) = fpIsZero P x := by simp [fpIsZero]

@[simp] theorem fpQuanta_fneg (P : Prec) (x : Dword) : fpQuanta P (fneg P x) = fpQuanta P x := by simp [fpQuanta]

@[simp] theorem fpSigned_fneg (P : Prec) (x : Dword) : fpSigned P (fneg P x) = -fpSigned P x := by
  unfold fpSigned
  rw [fpSign_fneg, fpQuanta_fneg]
  cases fpSign P x <;> simp

theorem isCValue_cadd (P : Prec) (x y : Cplx) : IsCValue P (cadd P x y) := ⟨isValue_fadd _ _ _, isValue_fadd _ _ _⟩

theorem isCValue_csub (P : Prec) (x y : Cplx) : IsCValue P (csub P x y) := ⟨isValue_fsub _ _ _, isValue_fsub _ _ _⟩

theorem isCValue_cmul (P : Prec) (x y : Cplx) : IsCValue P (cmul P x y) := ⟨isValue_fsub _ _ _, isValue_fadd _ _ _⟩

theorem isCValue_butterfly (P : Prec) (x c w : Cplx) :
    IsCValue P (butterfly P x c w).1 ∧ IsCValue P (butterfly P x c w).2 := ⟨isCValue_cadd _ _ _, isCValue_csub _ _ _⟩

theorem isCValue_cconj {P : Prec} {z : Cplx} (h : IsCValue P z) : IsCValue P (cconj P z) := ⟨h.1, isValue_fneg h.2⟩

theorem isCValue_cnorm (P : Prec) (z : Cplx) (m : Nat) : IsCValue P (cnorm P z m) :=
  ⟨isValue_fmul _ _ _, isValue_fneg (isValue_fmul _ _ _)⟩

theorem isValue_fpRound (P : Prec) (x : Dword) : IsValue P (fpRound P x) := by
  cases P with
  | p64 => exact isValue_p64 _
  | p32 =>
    unfold fpRound
    dsimp only
    split
    · exact isValue_fpNaN _ _ _ _
    · split
      · exact isValue_fpPack _ _ _ (fpInfMag_lt_top _)
      · exact isValue_fpPack _ _ _ (roundMag_lt_top _ _ _)

/-- No value equals itself with the sign flipped. -/
theorem fneg_ne (P : Prec) (x : Dword) : fneg P x ≠ x := by
  intro h
  have := fpSign_fneg P x
  rw [h] at this
  cases hs : fpSign P x <;> simp [hs] at this

/-- The fifth and sixth items of spec/42_complex_multiplier.md R119 (commutativity, conjugate symmetry) exclude each other:
any multiplier whatever that has both returns a NaN imaginary part for every product w · conj w (log entry 18). -/
theorem symmetry_items_force_nan (P : Prec) (mul : Cplx → Cplx → Cplx)
    (comm : ∀ w z, cSame P (mul w z) (mul z w))
    (conj : ∀ w z, cSame P (mul (cconj P w) (cconj P z)) (cconj P (mul w z))) (w : Cplx) :
    fpIsNaN P (mul w (cconj P w)).im = true := by
  have hc := (comm w (cconj P w)).2
  have hj := (conj w (cconj P w)).2
  have hw : cconj P (cconj P w) = w := by simp [cconj]
  have hi : (cconj P (mul w (cconj P w))).im = fneg P (mul w (cconj P w)).im := rfl
  rw [hw, hi] at hj
  rcases hc with hc | ⟨hn, -⟩
  · rcases hj with hj | ⟨-, hn⟩
    · exact absurd (hj.symm.trans hc.symm) (fneg_ne P _)
    · rwa [fpIsNaN_fneg] at hn
  · exact hn

end Sys2Proof.Machine
end

