-- ==== Sys2Proof/Laws/Elements.lean ====
section
/-! SUPPORT. The laws of buffer elements: a load after a store, what a store leaves alone, and what one loop over the
elements does. -/

namespace Sys2Proof.Machine

/-- An element that is loaded is a value of the format's precision. -/
theorem isCValue_loadElem (F : Format) (base i : Nat) (b : Buf) : IsCValue (formatPrec F) (loadElem F base i b) := by
  cases F with
  | f64 => exact ⟨isValue_p64 _, isValue_p64 _⟩
  | f32 =>
    refine ⟨?_, ?_⟩ <;>
    · change (memRead b _ 4).toNat < 2 ^ 32
      rw [memRead_toNat _ _ _ (by omega)]
      exact readNat_lt b _ 4
  | pk64 =>
    refine ⟨?_, isValue_fpTake _ _⟩
    change (memRead b _ 8 >>> 32).toNat < 2 ^ 32
    have := (memRead b (elemAddr .pk64 base i) 8).isLt
    rw [BitVec.toNat_ushiftRight, Nat.shiftRight_eq_div_pow]
    omega

/-- A load depends only on the element's own bytes. -/
theorem loadElem_congr (F : Format) (base i : Nat) (b b' : Buf)
    (h : ∀ x, elemAddr F base i ≤ x → x < elemAddr F base i + elemSize F → b.byte x = b'.byte x) :
    loadElem F base i b = loadElem F base i b' := by
  cases F with
  | f64 =>
    simp only [elemSize] at h
    simp only [loadElem]
    rw [memRead_congr b b' _ 8 fun x h1 h2 => h x h1 (by omega),
      memRead_congr b b' _ 8 fun x h1 h2 => h x (by omega) (by omega)]
  | f32 =>
    simp only [elemSize] at h
    simp only [loadElem]
    rw [memRead_congr b b' _ 4 fun x h1 h2 => h x h1 (by omega),
      memRead_congr b b' _ 4 fun x h1 h2 => h x (by omega) (by omega)]
  | pk64 =>
    simp only [elemSize] at h
    simp only [loadElem]
    rw [memRead_congr b b' _ 8 fun x h1 h2 => h x h1 (by omega)]

/-- A store changes only the element's own bytes. -/
theorem byte_storeElem_outside (F : Format) (base i : Nat) (z : Cplx) (b : Buf) (x : Nat)
    (h : x < elemAddr F base i ∨ elemAddr F base i + elemSize F ≤ x) :
    (storeElem F base i z b).byte x = b.byte x := by
  cases F with
  | f64 =>
    simp only [elemSize] at h
    simp only [storeElem]
    rw [byte_memWrite_outside _ _ _ _ _ (by omega), byte_memWrite_outside _ _ _ _ _ (by omega)]
  | f32 =>
    simp only [elemSize] at h
    simp only [storeElem]
    rw [byte_memWrite_outside _ _ _ _ _ (by omega), byte_memWrite_outside _ _ _ _ _ (by omega)]
  | pk64 =>
    simp only [elemSize] at h
    simp only [storeElem]
    rw [byte_memWrite_outside _ _ _ _ _ (by omega)]

theorem elemAddr_apart (F : Format) (base : Nat) {i j : Nat} (h : i ≠ j) :
    elemAddr F base i + elemSize F ≤ elemAddr F base j ∨ elemAddr F base j + elemSize F ≤ elemAddr F base i := by
  unfold elemAddr
  rcases Nat.lt_or_gt_of_ne h with h | h
  · left
    have : elemSize F * (i + 1) ≤ elemSize F * j := Nat.mul_le_mul_left _ h
    rw [Nat.mul_add, Nat.mul_one] at this
    omega
  · right
    have : elemSize F * (j + 1) ≤ elemSize F * i := Nat.mul_le_mul_left _ h
    rw [Nat.mul_add, Nat.mul_one] at this
    omega

/-- A load of another element than the one stored. -/
theorem loadElem_storeElem_other (F : Format) (base : Nat) {i j : Nat} (z : Cplx) (b : Buf) (h : j ≠ i) :
    loadElem F base j (storeElem F base i z b) = loadElem F base j b := by
  apply loadElem_congr
  intro x h1 h2
  apply byte_storeElem_outside
  rcases elemAddr_apart F base h with h | h <;> omega

theorem lowBytes_four_of_isValue {x : Dword} (h : IsValue .p32 x) : lowBytes 4 x = x := fpTake_of_isValue h

theorem pk64_word_halves {re im : Dword} (h1 : IsValue .p32 re) (h2 : IsValue .p32 im) :
    ((re <<< 32 ||| fpTake .p32 im) >>> 32 = re) ∧ fpTake .p32 (re <<< 32 ||| fpTake .p32 im) = im := by
  rw [fpTake_of_isValue h2]
  unfold IsValue at h1 h2
  simp only [fpWidth] at h1 h2
  have hcat : (re <<< 32 ||| im).toNat = re.toNat * 2 ^ 32 + im.toNat := by
    rw [BitVec.toNat_or, BitVec.toNat_shiftLeft, Nat.shiftLeft_eq, Nat.mod_eq_of_lt (by omega),
      Nat.mul_comm, Nat.two_pow_add_eq_or_of_lt h2]
  constructor
  · apply BitVec.eq_of_toNat_eq
    rw [BitVec.toNat_ushiftRight, hcat, Nat.shiftRight_eq_div_pow]
    omega
  · apply BitVec.eq_of_toNat_eq
    unfold fpTake
    rw [BitVec.toNat_ofNat, hcat]
    simp only [fpWidth]
    omega

/-- A load of the element just stored. -/
theorem loadElem_storeElem_same (F : Format) (base i : Nat) (z : Cplx) (b : Buf) (h : IsCValue (formatPrec F) z) :
    loadElem F base i (storeElem F base i z b) = z := by
  cases F with
  | f64 =>
    simp only [loadElem, storeElem]
    rw [memRead_memWrite_same _ _ _ _ (by omega), memRead_memWrite_apart _ _ _ _ _ _ (by omega),
      memRead_memWrite_same _ _ _ _ (by omega), lowBytes_eight, lowBytes_eight]
  | f32 =>
    simp only [loadElem, storeElem]
    rw [memRead_memWrite_same _ _ _ _ (by omega), memRead_memWrite_apart _ _ _ _ _ _ (by omega),
      memRead_memWrite_same _ _ _ _ (by omega), lowBytes_four_of_isValue h.1, lowBytes_four_of_isValue h.2]
  | pk64 =>
    simp only [loadElem, storeElem]
    rw [memRead_memWrite_same _ _ _ _ (by omega), lowBytes_eight, (pk64_word_halves h.1 h.2).1, (pk64_word_halves h.1 h.2).2]

/-- A load after a store. -/
theorem loadElem_storeElem (F : Format) (base i j : Nat) (z : Cplx) (b : Buf) (h : IsCValue (formatPrec F) z) :
    loadElem F base j (storeElem F base i z b) = if j = i then z else loadElem F base j b := by
  by_cases hj : j = i
  · rw [if_pos hj, hj, loadElem_storeElem_same _ _ _ _ _ h]
  · rw [if_neg hj, loadElem_storeElem_other _ _ _ _ hj]

/-- An element of a region lies inside the region. -/
theorem elem_inside (F : Format) (base m i : Nat) (h : i < 2 ^ m) :
    base ≤ elemAddr F base i ∧ elemAddr F base i + elemSize F ≤ base + 2 ^ m * elemSize F := by
  unfold elemAddr
  have : elemSize F * (i + 1) ≤ elemSize F * 2 ^ m := Nat.mul_le_mul_left _ h
  rw [Nat.mul_add, Nat.mul_one, Nat.mul_comm (elemSize F) (2 ^ m)] at this
  omega

/-- A store of an element of a region changes no byte outside the region. -/
theorem byte_storeElem_outside_region (F : Format) (base m i : Nat) (z : Cplx) (b : Buf) (x : Nat) (hi : i < 2 ^ m)
    (h : ¬ inRegion F base m x) : (storeElem F base i z b).byte x = b.byte x := by
  apply byte_storeElem_outside
  have := elem_inside F base m i hi
  unfold inRegion at h
  omega

theorem storeElem_wf (F : Format) (base i : Nat) (z : Cplx) (b : Buf) (h : Memory.wf b = true) :
    Memory.wf (storeElem F base i z b) = true := by
  cases F with
  | f64 => exact memWrite_wf _ _ _ _ (memWrite_wf _ _ _ _ h)
  | f32 => exact memWrite_wf _ _ _ _ (memWrite_wf _ _ _ _ h)
  | pk64 => exact memWrite_wf _ _ _ _ h

theorem storeElem_cells_inside (F : Format) (base i : Nat) (z : Cplx) (b : Buf) (n : Nat)
    (h : ∀ c ∈ b.cells, c.1 < n) (hi : elemAddr F base i + elemSize F ≤ n) :
    ∀ c ∈ (storeElem F base i z b).cells, c.1 < n := by
  cases F with
  | f64 =>
    simp only [elemSize] at hi
    exact memWrite_cells_inside _ _ _ _ _ (memWrite_cells_inside _ _ _ _ _ h (by omega)) (by omega)
  | f32 =>
    simp only [elemSize] at hi
    exact memWrite_cells_inside _ _ _ _ _ (memWrite_cells_inside _ _ _ _ _ h (by omega)) (by omega)
  | pk64 =>
    simp only [elemSize] at hi
    exact memWrite_cells_inside _ _ _ _ _ h (by omega)

/-! One loop over the elements. -/

theorem mapElems_succ (F : Format) (base n : Nat) (f : Cplx → Cplx) (b : Buf) :
    mapElems F base (n + 1) f b =
      storeElem F base n (f (loadElem F base n (mapElems F base n f b))) (mapElems F base n f b) := rfl

/-- What mapElems does to every element: those below n are replaced by their image, the others stay. -/
theorem loadElem_mapElems (F : Format) (base n : Nat) (f : Cplx → Cplx) (b : Buf) (i : Nat)
    (hf : ∀ z, IsCValue (formatPrec F) z → IsCValue (formatPrec F) (f z)) :
    loadElem F base i (mapElems F base n f b) = if i < n then f (loadElem F base i b) else loadElem F base i b := by
  induction n with
  | zero => simp [mapElems]
  | succ n ih =>
    rw [mapElems_succ, loadElem_storeElem _ _ _ _ _ _ (hf _ (isCValue_loadElem _ _ _ _)), ih]
    by_cases h1 : i = n
    · subst h1
      rw [if_pos rfl, ih]
      simp
    · rw [if_neg h1]
      by_cases h2 : i < n
      · rw [if_pos h2, if_pos (by omega)]
      · rw [if_neg h2, if_neg (by omega)]

/-- mapElems over a region changes no byte outside it. -/
theorem byte_mapElems_outside (F : Format) (base m : Nat) (f : Cplx → Cplx) (b : Buf) (x : Nat)
    (h : ¬ inRegion F base m x) : (mapElems F base (2 ^ m) f b).byte x = b.byte x :=
  forRange_keeps (fun b' : Buf => b'.byte x = b.byte x) _ _ _ rfl fun i y hi hy => by
    rw [byte_storeElem_outside_region F base m i _ y x hi h, hy]

end Sys2Proof.Machine
end

