-- ==== Sys2Proof/Laws/PerInstr.lean ====
section
/-! SUPPORT. The family OpcodeField: for every command, its word carries its OP and meets its row of the opcode map. -/

namespace Sys2Proof

/-- The word of a well-formed command has the command's OP, matches the row of that OP under its mask, and has an FMT
value the row lists (spec/30_encoding.md R62, R68). -/
def Laws.OpcodeField.Statement (i : Instr) : Prop :=
  i.wellFormed = true →
    opField (encode i) = i.opcode ∧
      ∃ r ∈ opMap, r.op = i.opcode ∧ encode i &&& r.mask = r.pattern ∧ r.fmts.contains (fmtField (encode i)) = true

theorem Laws.OpcodeField.nop : Laws.OpcodeField.Statement .nop := by
  unfold Laws.OpcodeField.Statement; decide

theorem Laws.OpcodeField.fft (fmt : Format) (inv lut : Bool) : Laws.OpcodeField.Statement (.fft fmt inv lut) := by
  unfold Laws.OpcodeField.Statement; cases fmt <;> cases inv <;> cases lut <;> decide

theorem Laws.OpcodeField.bitrev (fmt : Format) (lut : Bool) : Laws.OpcodeField.Statement (.bitrev fmt lut) := by
  unfold Laws.OpcodeField.Statement; cases fmt <;> cases lut <;> decide

theorem Laws.OpcodeField.stage (fmt : Format) (lut : Bool) (j : Nat) :
    Laws.OpcodeField.Statement (.stage fmt lut j) := by
  intro h
  have hj : j < 32 := of_decide_eq_true h
  clear h
  revert j
  cases fmt <;> cases lut <;> decide

theorem Laws.OpcodeField.conj (fmt : Format) : Laws.OpcodeField.Statement (.conj fmt) := by
  unfold Laws.OpcodeField.Statement; cases fmt <;> decide

theorem Laws.OpcodeField.inorm (fmt : Format) : Laws.OpcodeField.Statement (.inorm fmt) := by
  unfold Laws.OpcodeField.Statement; cases fmt <;> decide

theorem Laws.OpcodeField.twgen (m : Nat) : Laws.OpcodeField.Statement (.twgen m) := by
  intro h
  have hm : m < 32 := of_decide_eq_true h
  clear h
  revert m
  decide

theorem Laws.OpcodeField.ptgen (m : Nat) : Laws.OpcodeField.Statement (.ptgen m) := by
  intro h
  have hm : m < 32 := of_decide_eq_true h
  clear h
  revert m
  decide

theorem Laws.OpcodeField.twread (prec : Prec) (lut : Bool) (m : Nat) :
    Laws.OpcodeField.Statement (.twread prec lut m) := by
  intro h
  have hm : m < 32 := of_decide_eq_true h
  clear h
  revert m
  cases prec <;> cases lut <;> decide

theorem Laws.OpcodeField.cmul (prec : Prec) : Laws.OpcodeField.Statement (.cmul prec) := by
  unfold Laws.OpcodeField.Statement; cases prec <;> decide

theorem Laws.OpcodeField.bfly (prec : Prec) : Laws.OpcodeField.Statement (.bfly prec) := by
  unfold Laws.OpcodeField.Statement; cases prec <;> decide

end Sys2Proof
end

