-- ==== Sys2Proof/Laws/State.lean ====
section
/-! SUPPORT. What each named update of the state leaves in each field. -/

namespace Sys2Proof.Machine

/-! complete -/

@[simp] theorem complete_lc (s : State) : (s.complete).lc = none := rfl
@[simp] theorem complete_done (s : State) : (s.complete).done = true := rfl
@[simp] theorem complete_err (s : State) : (s.complete).err = s.err := rfl
@[simp] theorem complete_ovr (s : State) : (s.complete).ovr = s.ovr := rfl
@[simp] theorem complete_errcode (s : State) : (s.complete).errcode = s.errcode := rfl
@[simp] theorem complete_base (s : State) : (s.complete).base = s.base := rfl
@[simp] theorem complete_len (s : State) : (s.complete).len = s.len := rfl
@[simp] theorem complete_idx (s : State) : (s.complete).idx = s.idx := rfl
@[simp] theorem complete_mag (s : State) : (s.complete).mag = s.mag := rfl
@[simp] theorem complete_doneIe (s : State) : (s.complete).doneIe = s.doneIe := rfl
@[simp] theorem complete_errIe (s : State) : (s.complete).errIe = s.errIe := rfl
@[simp] theorem complete_ovrIe (s : State) : (s.complete).ovrIe = s.ovrIe := rfl
@[simp] theorem complete_a (s : State) : (s.complete).a = s.a := rfl
@[simp] theorem complete_b (s : State) : (s.complete).b = s.b := rfl
@[simp] theorem complete_w (s : State) : (s.complete).w = s.w := rfl
@[simp] theorem complete_y0 (s : State) : (s.complete).y0 = s.y0 := rfl
@[simp] theorem complete_y1 (s : State) : (s.complete).y1 = s.y1 := rfl
@[simp] theorem complete_tt (s : State) : (s.complete).tt = s.tt := rfl
@[simp] theorem complete_pt (s : State) : (s.complete).pt = s.pt := rfl
@[simp] theorem complete_buf (s : State) : (s.complete).buf = s.buf := rfl
@[simp] theorem complete_inputs (s : State) : (s.complete).inputs = s.inputs := rfl
@[simp] theorem complete_reply (s : State) : (s.complete).reply = s.reply := rfl
@[simp] theorem complete_draws (s : State) : (s.complete).draws = s.draws := rfl

/-! reject -/

@[simp] theorem reject_lc (s : State) (c : ErrCode) : (s.reject c).lc = s.lc := rfl
@[simp] theorem reject_done (s : State) (c : ErrCode) : (s.reject c).done = false := rfl
@[simp] theorem reject_err (s : State) (c : ErrCode) : (s.reject c).err = true := rfl
@[simp] theorem reject_ovr (s : State) (c : ErrCode) : (s.reject c).ovr = s.ovr := rfl
@[simp] theorem reject_errcode (s : State) (c : ErrCode) : (s.reject c).errcode = c := rfl
@[simp] theorem reject_base (s : State) (c : ErrCode) : (s.reject c).base = s.base := rfl
@[simp] theorem reject_len (s : State) (c : ErrCode) : (s.reject c).len = s.len := rfl
@[simp] theorem reject_idx (s : State) (c : ErrCode) : (s.reject c).idx = s.idx := rfl
@[simp] theorem reject_mag (s : State) (c : ErrCode) : (s.reject c).mag = s.mag := rfl
@[simp] theorem reject_doneIe (s : State) (c : ErrCode) : (s.reject c).doneIe = s.doneIe := rfl
@[simp] theorem reject_errIe (s : State) (c : ErrCode) : (s.reject c).errIe = s.errIe := rfl
@[simp] theorem reject_ovrIe (s : State) (c : ErrCode) : (s.reject c).ovrIe = s.ovrIe := rfl
@[simp] theorem reject_a (s : State) (c : ErrCode) : (s.reject c).a = s.a := rfl
@[simp] theorem reject_b (s : State) (c : ErrCode) : (s.reject c).b = s.b := rfl
@[simp] theorem reject_w (s : State) (c : ErrCode) : (s.reject c).w = s.w := rfl
@[simp] theorem reject_y0 (s : State) (c : ErrCode) : (s.reject c).y0 = s.y0 := rfl
@[simp] theorem reject_y1 (s : State) (c : ErrCode) : (s.reject c).y1 = s.y1 := rfl
@[simp] theorem reject_tt (s : State) (c : ErrCode) : (s.reject c).tt = s.tt := rfl
@[simp] theorem reject_pt (s : State) (c : ErrCode) : (s.reject c).pt = s.pt := rfl
@[simp] theorem reject_buf (s : State) (c : ErrCode) : (s.reject c).buf = s.buf := rfl
@[simp] theorem reject_inputs (s : State) (c : ErrCode) : (s.reject c).inputs = s.inputs := rfl
@[simp] theorem reject_reply (s : State) (c : ErrCode) : (s.reject c).reply = s.reply := rfl
@[simp] theorem reject_draws (s : State) (c : ErrCode) : (s.reject c).draws = s.draws := rfl

/-! acknowledge -/

@[simp] theorem acknowledge_lc (s : State) : (s.acknowledge).lc = s.lc := rfl
@[simp] theorem acknowledge_done (s : State) : (s.acknowledge).done = s.done := rfl
@[simp] theorem acknowledge_err (s : State) : (s.acknowledge).err = false := rfl
@[simp] theorem acknowledge_ovr (s : State) : (s.acknowledge).ovr = s.ovr := rfl
@[simp] theorem acknowledge_errcode (s : State) : (s.acknowledge).errcode = .none := rfl
@[simp] theorem acknowledge_base (s : State) : (s.acknowledge).base = s.base := rfl
@[simp] theorem acknowledge_len (s : State) : (s.acknowledge).len = s.len := rfl
@[simp] theorem acknowledge_idx (s : State) : (s.acknowledge).idx = s.idx := rfl
@[simp] theorem acknowledge_mag (s : State) : (s.acknowledge).mag = s.mag := rfl
@[simp] theorem acknowledge_doneIe (s : State) : (s.acknowledge).doneIe = s.doneIe := rfl
@[simp] theorem acknowledge_errIe (s : State) : (s.acknowledge).errIe = s.errIe := rfl
@[simp] theorem acknowledge_ovrIe (s : State) : (s.acknowledge).ovrIe = s.ovrIe := rfl
@[simp] theorem acknowledge_a (s : State) : (s.acknowledge).a = s.a := rfl
@[simp] theorem acknowledge_b (s : State) : (s.acknowledge).b = s.b := rfl
@[simp] theorem acknowledge_w (s : State) : (s.acknowledge).w = s.w := rfl
@[simp] theorem acknowledge_y0 (s : State) : (s.acknowledge).y0 = s.y0 := rfl
@[simp] theorem acknowledge_y1 (s : State) : (s.acknowledge).y1 = s.y1 := rfl
@[simp] theorem acknowledge_tt (s : State) : (s.acknowledge).tt = s.tt := rfl
@[simp] theorem acknowledge_pt (s : State) : (s.acknowledge).pt = s.pt := rfl
@[simp] theorem acknowledge_buf (s : State) : (s.acknowledge).buf = s.buf := rfl
@[simp] theorem acknowledge_inputs (s : State) : (s.acknowledge).inputs = s.inputs := rfl
@[simp] theorem acknowledge_reply (s : State) : (s.acknowledge).reply = s.reply := rfl
@[simp] theorem acknowledge_draws (s : State) : (s.acknowledge).draws = s.draws := rfl

/-! overrun -/

@[simp] theorem overrun_lc (s : State) : (s.overrun).lc = s.lc := rfl
@[simp] theorem overrun_done (s : State) : (s.overrun).done = s.done := rfl
@[simp] theorem overrun_err (s : State) : (s.overrun).err = s.err := rfl
@[simp] theorem overrun_ovr (s : State) : (s.overrun).ovr = true := rfl
@[simp] theorem overrun_errcode (s : State) : (s.overrun).errcode = s.errcode := rfl
@[simp] theorem overrun_base (s : State) : (s.overrun).base = s.base := rfl
@[simp] theorem overrun_len (s : State) : (s.overrun).len = s.len := rfl
@[simp] theorem overrun_idx (s : State) : (s.overrun).idx = s.idx := rfl
@[simp] theorem overrun_mag (s : State) : (s.overrun).mag = s.mag := rfl
@[simp] theorem overrun_doneIe (s : State) : (s.overrun).doneIe = s.doneIe := rfl
@[simp] theorem overrun_errIe (s : State) : (s.overrun).errIe = s.errIe := rfl
@[simp] theorem overrun_ovrIe (s : State) : (s.overrun).ovrIe = s.ovrIe := rfl
@[simp] theorem overrun_a (s : State) : (s.overrun).a = s.a := rfl
@[simp] theorem overrun_b (s : State) : (s.overrun).b = s.b := rfl
@[simp] theorem overrun_w (s : State) : (s.overrun).w = s.w := rfl
@[simp] theorem overrun_y0 (s : State) : (s.overrun).y0 = s.y0 := rfl
@[simp] theorem overrun_y1 (s : State) : (s.overrun).y1 = s.y1 := rfl
@[simp] theorem overrun_tt (s : State) : (s.overrun).tt = s.tt := rfl
@[simp] theorem overrun_pt (s : State) : (s.overrun).pt = s.pt := rfl
@[simp] theorem overrun_buf (s : State) : (s.overrun).buf = s.buf := rfl
@[simp] theorem overrun_inputs (s : State) : (s.overrun).inputs = s.inputs := rfl
@[simp] theorem overrun_reply (s : State) : (s.overrun).reply = s.reply := rfl
@[simp] theorem overrun_draws (s : State) : (s.overrun).draws = s.draws := rfl

/-! accept -/

@[simp] theorem accept_lc (s : State) (x : Word) (m : Nat) : (s.accept x m).lc = some (s.latch x m) := rfl
@[simp] theorem accept_done (s : State) (x : Word) (m : Nat) : (s.accept x m).done = false := rfl
@[simp] theorem accept_err (s : State) (x : Word) (m : Nat) : (s.accept x m).err = s.err := rfl
@[simp] theorem accept_ovr (s : State) (x : Word) (m : Nat) : (s.accept x m).ovr = s.ovr := rfl
@[simp] theorem accept_errcode (s : State) (x : Word) (m : Nat) : (s.accept x m).errcode = s.errcode := rfl
@[simp] theorem accept_base (s : State) (x : Word) (m : Nat) : (s.accept x m).base = s.base := rfl
@[simp] theorem accept_len (s : State) (x : Word) (m : Nat) : (s.accept x m).len = s.len := rfl
@[simp] theorem accept_idx (s : State) (x : Word) (m : Nat) : (s.accept x m).idx = s.idx := rfl
@[simp] theorem accept_mag (s : State) (x : Word) (m : Nat) : (s.accept x m).mag = if isBufferOp x then BitVec.ofNat 5 m else s.mag := rfl
@[simp] theorem accept_doneIe (s : State) (x : Word) (m : Nat) : (s.accept x m).doneIe = s.doneIe := rfl
@[simp] theorem accept_errIe (s : State) (x : Word) (m : Nat) : (s.accept x m).errIe = s.errIe := rfl
@[simp] theorem accept_ovrIe (s : State) (x : Word) (m : Nat) : (s.accept x m).ovrIe = s.ovrIe := rfl
@[simp] theorem accept_a (s : State) (x : Word) (m : Nat) : (s.accept x m).a = s.a := rfl
@[simp] theorem accept_b (s : State) (x : Word) (m : Nat) : (s.accept x m).b = s.b := rfl
@[simp] theorem accept_w (s : State) (x : Word) (m : Nat) : (s.accept x m).w = s.w := rfl
@[simp] theorem accept_y0 (s : State) (x : Word) (m : Nat) : (s.accept x m).y0 = s.y0 := rfl
@[simp] theorem accept_y1 (s : State) (x : Word) (m : Nat) : (s.accept x m).y1 = s.y1 := rfl
@[simp] theorem accept_tt (s : State) (x : Word) (m : Nat) : (s.accept x m).tt = s.tt := rfl
@[simp] theorem accept_pt (s : State) (x : Word) (m : Nat) : (s.accept x m).pt = s.pt := rfl
@[simp] theorem accept_buf (s : State) (x : Word) (m : Nat) : (s.accept x m).buf = s.buf := rfl
@[simp] theorem accept_inputs (s : State) (x : Word) (m : Nat) : (s.accept x m).inputs = s.inputs := rfl
@[simp] theorem accept_reply (s : State) (x : Word) (m : Nat) : (s.accept x m).reply = s.reply := rfl
@[simp] theorem accept_draws (s : State) (x : Word) (m : Nat) : (s.accept x m).draws = s.draws := rfl

/-! drawReply -/

@[simp] theorem drawReply_lc (s : State) (n : Nat) : (s.drawReply n).lc = s.lc := rfl
@[simp] theorem drawReply_done (s : State) (n : Nat) : (s.drawReply n).done = s.done := rfl
@[simp] theorem drawReply_err (s : State) (n : Nat) : (s.drawReply n).err = s.err := rfl
@[simp] theorem drawReply_ovr (s : State) (n : Nat) : (s.drawReply n).ovr = s.ovr := rfl
@[simp] theorem drawReply_errcode (s : State) (n : Nat) : (s.drawReply n).errcode = s.errcode := rfl
@[simp] theorem drawReply_base (s : State) (n : Nat) : (s.drawReply n).base = s.base := rfl
@[simp] theorem drawReply_len (s : State) (n : Nat) : (s.drawReply n).len = s.len := rfl
@[simp] theorem drawReply_idx (s : State) (n : Nat) : (s.drawReply n).idx = s.idx := rfl
@[simp] theorem drawReply_mag (s : State) (n : Nat) : (s.drawReply n).mag = s.mag := rfl
@[simp] theorem drawReply_doneIe (s : State) (n : Nat) : (s.drawReply n).doneIe = s.doneIe := rfl
@[simp] theorem drawReply_errIe (s : State) (n : Nat) : (s.drawReply n).errIe = s.errIe := rfl
@[simp] theorem drawReply_ovrIe (s : State) (n : Nat) : (s.drawReply n).ovrIe = s.ovrIe := rfl
@[simp] theorem drawReply_a (s : State) (n : Nat) : (s.drawReply n).a = s.a := rfl
@[simp] theorem drawReply_b (s : State) (n : Nat) : (s.drawReply n).b = s.b := rfl
@[simp] theorem drawReply_w (s : State) (n : Nat) : (s.drawReply n).w = s.w := rfl
@[simp] theorem drawReply_y0 (s : State) (n : Nat) : (s.drawReply n).y0 = s.y0 := rfl
@[simp] theorem drawReply_y1 (s : State) (n : Nat) : (s.drawReply n).y1 = s.y1 := rfl
@[simp] theorem drawReply_tt (s : State) (n : Nat) : (s.drawReply n).tt = s.tt := rfl
@[simp] theorem drawReply_pt (s : State) (n : Nat) : (s.drawReply n).pt = s.pt := rfl
@[simp] theorem drawReply_buf (s : State) (n : Nat) : (s.drawReply n).buf = s.buf := rfl
@[simp] theorem drawReply_inputs (s : State) (n : Nat) : (s.drawReply n).inputs = s.inputs := rfl
@[simp] theorem drawReply_reply (s : State) (n : Nat) : (s.drawReply n).reply = some (lowBytes n (Config.readDraw s.draws)) := rfl
@[simp] theorem drawReply_draws (s : State) (n : Nat) : (s.drawReply n).draws = s.draws + 1 := rfl

/-! answer -/

@[simp] theorem answer_lc (s : State) (v : Dword) : (s.answer v).lc = s.lc := rfl
@[simp] theorem answer_done (s : State) (v : Dword) : (s.answer v).done = s.done := rfl
@[simp] theorem answer_err (s : State) (v : Dword) : (s.answer v).err = s.err := rfl
@[simp] theorem answer_ovr (s : State) (v : Dword) : (s.answer v).ovr = s.ovr := rfl
@[simp] theorem answer_errcode (s : State) (v : Dword) : (s.answer v).errcode = s.errcode := rfl
@[simp] theorem answer_base (s : State) (v : Dword) : (s.answer v).base = s.base := rfl
@[simp] theorem answer_len (s : State) (v : Dword) : (s.answer v).len = s.len := rfl
@[simp] theorem answer_idx (s : State) (v : Dword) : (s.answer v).idx = s.idx := rfl
@[simp] theorem answer_mag (s : State) (v : Dword) : (s.answer v).mag = s.mag := rfl
@[simp] theorem answer_doneIe (s : State) (v : Dword) : (s.answer v).doneIe = s.doneIe := rfl
@[simp] theorem answer_errIe (s : State) (v : Dword) : (s.answer v).errIe = s.errIe := rfl
@[simp] theorem answer_ovrIe (s : State) (v : Dword) : (s.answer v).ovrIe = s.ovrIe := rfl
@[simp] theorem answer_a (s : State) (v : Dword) : (s.answer v).a = s.a := rfl
@[simp] theorem answer_b (s : State) (v : Dword) : (s.answer v).b = s.b := rfl
@[simp] theorem answer_w (s : State) (v : Dword) : (s.answer v).w = s.w := rfl
@[simp] theorem answer_y0 (s : State) (v : Dword) : (s.answer v).y0 = s.y0 := rfl
@[simp] theorem answer_y1 (s : State) (v : Dword) : (s.answer v).y1 = s.y1 := rfl
@[simp] theorem answer_tt (s : State) (v : Dword) : (s.answer v).tt = s.tt := rfl
@[simp] theorem answer_pt (s : State) (v : Dword) : (s.answer v).pt = s.pt := rfl
@[simp] theorem answer_buf (s : State) (v : Dword) : (s.answer v).buf = s.buf := rfl
@[simp] theorem answer_inputs (s : State) (v : Dword) : (s.answer v).inputs = s.inputs := rfl
@[simp] theorem answer_reply (s : State) (v : Dword) : (s.answer v).reply = some v := rfl
@[simp] theorem answer_draws (s : State) (v : Dword) : (s.answer v).draws = s.draws := rfl

/-! noAnswer -/

@[simp] theorem noAnswer_lc (s : State) : (s.noAnswer).lc = s.lc := rfl
@[simp] theorem noAnswer_done (s : State) : (s.noAnswer).done = s.done := rfl
@[simp] theorem noAnswer_err (s : State) : (s.noAnswer).err = s.err := rfl
@[simp] theorem noAnswer_ovr (s : State) : (s.noAnswer).ovr = s.ovr := rfl
@[simp] theorem noAnswer_errcode (s : State) : (s.noAnswer).errcode = s.errcode := rfl
@[simp] theorem noAnswer_base (s : State) : (s.noAnswer).base = s.base := rfl
@[simp] theorem noAnswer_len (s : State) : (s.noAnswer).len = s.len := rfl
@[simp] theorem noAnswer_idx (s : State) : (s.noAnswer).idx = s.idx := rfl
@[simp] theorem noAnswer_mag (s : State) : (s.noAnswer).mag = s.mag := rfl
@[simp] theorem noAnswer_doneIe (s : State) : (s.noAnswer).doneIe = s.doneIe := rfl
@[simp] theorem noAnswer_errIe (s : State) : (s.noAnswer).errIe = s.errIe := rfl
@[simp] theorem noAnswer_ovrIe (s : State) : (s.noAnswer).ovrIe = s.ovrIe := rfl
@[simp] theorem noAnswer_a (s : State) : (s.noAnswer).a = s.a := rfl
@[simp] theorem noAnswer_b (s : State) : (s.noAnswer).b = s.b := rfl
@[simp] theorem noAnswer_w (s : State) : (s.noAnswer).w = s.w := rfl
@[simp] theorem noAnswer_y0 (s : State) : (s.noAnswer).y0 = s.y0 := rfl
@[simp] theorem noAnswer_y1 (s : State) : (s.noAnswer).y1 = s.y1 := rfl
@[simp] theorem noAnswer_tt (s : State) : (s.noAnswer).tt = s.tt := rfl
@[simp] theorem noAnswer_pt (s : State) : (s.noAnswer).pt = s.pt := rfl
@[simp] theorem noAnswer_buf (s : State) : (s.noAnswer).buf = s.buf := rfl
@[simp] theorem noAnswer_inputs (s : State) : (s.noAnswer).inputs = s.inputs := rfl
@[simp] theorem noAnswer_reply (s : State) : (s.noAnswer).reply = none := rfl
@[simp] theorem noAnswer_draws (s : State) : (s.noAnswer).draws = s.draws := rfl

end Sys2Proof.Machine
end

