-- ==== Sys2Proof/Laws/Tables.lean ====
section
/-! SUPPORT. The laws of the lookup tables: what building changes, that right tables stay right, and what an entry of a
right table is. -/

namespace Sys2Proof.Machine

/-- What buildTT changes: the cache alone. -/
theorem buildTT_eq (s : State) (m : Nat) : s.buildTT m = { s with tt := (s.buildTT m).tt } := by
  unfold State.buildTT
  split <;> rfl

/-- What buildPT changes: the cache alone. -/
theorem buildPT_eq (s : State) (m : Nat) : s.buildPT m = { s with pt := (s.buildPT m).pt } := by
  unfold State.buildPT
  split <;> rfl

/-- The cache after buildTT. -/
theorem findKey_buildTT (s : State) (m k : Nat) :
    findKey (s.buildTT m).tt k = if k = m then some ((findKey s.tt m).getD (twiddleTable m)) else findKey s.tt k := by
  unfold State.buildTT
  split
  · rename_i h
    by_cases hk : k = m
    · subst hk; simp [h]
    · simp [hk]
  · rename_i h
    by_cases hk : k = m
    · subst hk; simp [h, findKey_setKey_same]
    · simp [hk, findKey_setKey_other _ _ hk]

/-- The cache after buildPT. -/
theorem findKey_buildPT (s : State) (m k : Nat) :
    findKey (s.buildPT m).pt k = if k = m then some ((findKey s.pt m).getD (swapPairs m)) else findKey s.pt k := by
  unfold State.buildPT
  split
  · rename_i h
    by_cases hk : k = m
    · subst hk; simp [h]
    · simp [hk]
  · rename_i h
    by_cases hk : k = m
    · subst hk; simp [h, findKey_setKey_same]
    · simp [hk, findKey_setKey_other _ _ hk]

theorem buildTT_right (s : State) (m : Nat) (h : TwiddleTablesRight s.tt) (hm : m ≤ Config.mmax) :
    TwiddleTablesRight (s.buildTT m).tt := by
  unfold State.buildTT
  split
  · exact h
  · refine ⟨keysRising_setKey _ _ _ h.1, fun e he => ?_⟩
    rcases mem_setKey he with rfl | he
    · exact ⟨hm, rfl⟩
    · exact h.2 e he

theorem buildPT_right (s : State) (m : Nat) (h : SwapTablesRight s.pt) (hm : m ≤ Config.mmax) :
    SwapTablesRight (s.buildPT m).pt := by
  unfold State.buildPT
  split
  · exact h
  · refine ⟨keysRising_setKey _ _ _ h.1, fun e he => ?_⟩
    rcases mem_setKey he with rfl | he
    · exact ⟨hm, rfl⟩
    · exact h.2 e he

theorem findKey_twiddles_right {tt : List (Nat × List TwiddlePair)} (h : TwiddleTablesRight tt) {m : Nat}
    {t : List TwiddlePair} (hf : findKey tt m = some t) : t = twiddleTable m := (h.2 _ (mem_of_findKey hf)).2

theorem findKey_swaps_right {pt : List (Nat × List (Nat × Nat))} (h : SwapTablesRight pt) {m : Nat}
    {t : List (Nat × Nat)} (hf : findKey pt m = some t) : t = swapPairs m := (h.2 _ (mem_of_findKey hf)).2

/-- An entry of a twiddle table. -/
theorem twiddleTable_getElem? {m k : Nat} {t : TwiddlePair} (h : (twiddleTable m)[k]? = some t) : t = tw64 k m := by
  unfold twiddleTable at h
  split at h
  · simp at h
  · rw [List.getElem?_map, Option.map_eq_some_iff] at h
    obtain ⟨j, hj, rfl⟩ := h
    rw [List.getElem?_eq_some_iff] at hj
    obtain ⟨_, hj⟩ := hj
    simp at hj
    rw [hj]

/-- A read of right tables is the generator's value, whether or not the table has been built. -/
theorem tableEntry_right {tt : List (Nat × List TwiddlePair)} (h : TwiddleTablesRight tt) (m k : Nat) :
    tableEntry tt m k = tw64 k m := by
  unfold tableEntry
  cases hf : findKey tt m with
  | none => rfl
  | some t =>
    rw [findKey_twiddles_right h hf]
    simp only [Option.bind_some]
    cases he : (twiddleTable m)[k]? with
    | none => rfl
    | some p => exact twiddleTable_getElem? he

/-- The swaps BITREV makes, where the tables are right, are the live bit reverser's. -/
theorem bitrevPairs_right {pt : List (Nat × List (Nat × Nat))} (h : SwapTablesRight pt) (lut : Bool) (m : Nat) :
    bitrevPairs lut pt m = swapPairs m := by
  unfold bitrevPairs
  cases lut with
  | false => rfl
  | true =>
    cases hf : findKey pt m with
    | none => rfl
    | some t => simp [findKey_swaps_right h hf]

/-- Doubling numerator and denominator leaves the fraction in lowest terms unchanged. -/
theorem lowestTerms_double (m k : Nat) : lowestTerms (m + 1) (k * 2) = lowestTerms m k := by
  rw [lowestTerms, if_pos (by omega), Nat.mul_div_cancel _ (by omega)]

theorem lowestTerms_scale (m k n : Nat) : lowestTerms (m + n) (k * 2 ^ n) = lowestTerms m k := by
  induction n with
  | zero => simp
  | succ n ih => rw [Nat.pow_succ, ← Nat.mul_assoc, ← Nat.add_assoc, lowestTerms_double, ih]

/-- A generator's value depends only on the fraction k/2^m. -/
theorem twiddleOf_scale (c : Nat → Nat → TwiddleBits) (m k n : Nat) :
    twiddleOf c (k * 2 ^ n) (m + n) = twiddleOf c k m := by
  unfold twiddleOf
  rw [lowestTerms_scale]

/-- Live mode and right tables give the same twiddle. -/
theorem twiddlePair_right {tt : List (Nat × List TwiddlePair)} (h : TwiddleTablesRight tt) (lut : Bool) {m j : Nat}
    (o : Nat) (hj : j ≤ m) : twiddlePair lut tt m j o = tw64 o j := by
  unfold twiddlePair
  cases lut with
  | false => rfl
  | true =>
    rw [if_pos rfl, tableEntry_right h]
    have hs := twiddleOf_scale (Config.twiddleFn.getD crChoice) j o (m - j)
    rw [Nat.add_sub_cancel' hj] at hs
    exact hs

end Sys2Proof.Machine
end

