-- ==== Sys2Proof/Laws/Step.lean ====
section
/-! SUPPORT. What a step can do, said once: the ENGINE step, a host step, the passes over the buffer. -/

namespace Sys2Proof.Machine

/-- The ENGINE step of a latched command completes with what its rule leaves. -/
theorem engineStep_latched {body : Latched → State → State} {s : State} {lc : Latched} (h : s.lc = some lc) :
    engineStep body s = .next (body lc s).complete := by
  unfold engineStep
  rw [h]

/-- If the ENGINE step answers a next state, a command was latched and completed. -/
theorem engineStep_next {body : Latched → State → State} {s t : State} (h : engineStep body s = .next t) :
    ∃ lc, s.lc = some lc ∧ t = (body lc s).complete := by
  unfold engineStep at h
  split at h
  · cases h
  · rename_i lc hlc
    cases h
    exact ⟨lc, hlc, rfl⟩

/-- A host step answers the access, where it is admitted. -/
theorem hostStep_admitted {x : HostAccess} {s : State} (h : x.admitted = true) : hostStep x s = .next (s.access x) := by
  unfold hostStep
  rw [if_pos h]

/-- A refused access is a host fault. -/
theorem hostStep_refused {x : HostAccess} {s : State} (h : x.admitted = false) :
    hostStep x s = .fault .hostAccessRefused := by
  unfold hostStep
  rw [if_neg (by simp [h])]

theorem hostStep_next {x : HostAccess} {s t : State} (h : hostStep x s = .next t) :
    x.admitted = true ∧ t = s.access x := by
  unfold hostStep at h
  split at h
  · rename_i hx
    cases h
    exact ⟨hx, rfl⟩
  · cases h

/-- With inputs left, a step performs the first. -/
theorem step_cons {s : State} {x : Input} {rest : List Input} (h : s.inputs = x :: rest) :
    step s = performInput x { s with inputs := rest } := by
  unfold step
  rw [h]

/-- With no inputs left, a step is the ENGINE's turn. -/
theorem step_nil {s : State} (h : s.inputs = []) : step s = engineTurn s := by
  unfold step
  rw [h]

/-- The ENGINE's turn runs the command of the latched word. -/
theorem engineTurn_latched {s : State} {lc : Latched} {i : Instr} (h : s.lc = some lc) (hd : decode lc.word = .ok i) :
    engineTurn s = exec i s := by
  unfold engineTurn
  rw [h]
  simp only [hd]

/-- The ENGINE has no step while IDLE. -/
theorem engineTurn_idle {s : State} (h : s.lc = none) : engineTurn s = .next s := by
  unfold engineTurn
  rw [h]

/-! What each pass leaves in each field: the buffer changes, and in LUT mode a table cache. -/

theorem conjPass_eq (F : Format) (lc : Latched) (s : State) :
    conjPass F lc s = { s with buf := mapElems F lc.base.toNat (2 ^ lc.m) (cconj (formatPrec F)) s.buf } := rfl

theorem inormPass_eq (F : Format) (lc : Latched) (s : State) :
    inormPass F lc s =
      { s with buf := mapElems F lc.base.toNat (2 ^ lc.m) (fun z => cnorm (formatPrec F) z lc.m) s.buf } := rfl

/-- The permutation pass: the swaps of the buffer, and PT[m] built in LUT mode. -/
theorem bitrevPass_eq (F : Format) (lut : Bool) (lc : Latched) (s : State) :
    bitrevPass F lut lc s =
      { s with
        pt := if lut then (s.buildPT lc.m).pt else s.pt
        buf := swapElems F lc.base.toNat
          (bitrevPairs lut (if lut then (s.buildPT lc.m).pt else s.pt) lc.m) s.buf } := by
  unfold bitrevPass
  cases lut with
  | false => rfl
  | true =>
    simp only [if_true]
    rw [buildPT_eq]

/-- A butterfly stage: the butterflies of the buffer, and TT[m] built in LUT mode. -/
theorem stagePass_eq (F : Format) (lut : Bool) (j : Nat) (lc : Latched) (s : State) :
    stagePass F lut j lc s =
      { s with
        tt := if lut then (s.buildTT lc.m).tt else s.tt
        buf := stageElems F lc.base.toNat lc.m j
          (fun o => twiddleFactor (formatPrec F)
            (twiddlePair lut (if lut then (s.buildTT lc.m).tt else s.tt) lc.m j o)) s.buf } := by
  unfold stagePass
  cases lut with
  | false => rfl
  | true =>
    simp only [if_true]
    rw [buildTT_eq]

/-- A pass and the transform change nothing but BUF and the table caches. -/
theorem fftPasses_frame (F : Format) (inv lut : Bool) (lc : Latched) (s : State) :
    fftPasses F inv lut lc s =
      { s with
        tt := (fftPasses F inv lut lc s).tt
        pt := (fftPasses F inv lut lc s).pt
        buf := (fftPasses F inv lut lc s).buf } := by
  let Frame : State → Prop := fun t => t = { s with tt := t.tt, pt := t.pt, buf := t.buf }
  have hbit : ∀ t, Frame t → Frame (bitrevPass F lut lc t) := by
    intro t ht
    show bitrevPass F lut lc t = _
    rw [bitrevPass_eq, ht]
  have hstage : ∀ j t, Frame t → Frame (stagePass F lut j lc t) := by
    intro j t ht
    show stagePass F lut j lc t = _
    rw [stagePass_eq, ht]
  have hconj : ∀ t, Frame t → Frame (conjPass F lc t) := by
    intro t ht
    show conjPass F lc t = _
    rw [conjPass_eq, ht]
  have hinorm : ∀ t, Frame t → Frame (inormPass F lc t) := by
    intro t ht
    show inormPass F lc t = _
    rw [inormPass_eq, ht]
  show Frame (fftPasses F inv lut lc s)
  unfold fftPasses
  split
  · rfl
  · have hstages : ∀ t, Frame t → Frame (forRange lc.m (fun i u => stagePass F lut (i + 1) lc u) t) := fun t ht =>
      forRange_keeps Frame _ lc.m t ht fun i u _ hu => hstage (i + 1) u hu
    cases inv with
    | false => exact hstages _ (hbit _ rfl)
    | true => exact hinorm _ (hstages _ (hbit _ (hconj _ rfl)))

/-! Swaps and butterflies on elements. -/

/-- One swap exchanges two elements and leaves the others. -/
theorem loadElem_swap (F : Format) (base i r k : Nat) (b : Buf) :
    loadElem F base k (storeElem F base r (loadElem F base i b) (storeElem F base i (loadElem F base r b) b)) =
      if k = r then loadElem F base i b else if k = i then loadElem F base r b else loadElem F base k b := by
  rw [loadElem_storeElem _ _ _ _ _ _ (isCValue_loadElem _ _ _ _), loadElem_storeElem _ _ _ _ _ _ (isCValue_loadElem _ _ _ _)]

/-- One butterfly replaces its two elements and leaves the others. -/
theorem loadElem_stagePair (F : Format) (base h i k : Nat) (w : Cplx) (b : Buf) :
    loadElem F base k (stagePair F base h w i b) =
      if k = i + h then (butterfly (formatPrec F) (loadElem F base i b) (loadElem F base (i + h) b) w).2
      else if k = i then (butterfly (formatPrec F) (loadElem F base i b) (loadElem F base (i + h) b) w).1
      else loadElem F base k b := by
  unfold stagePair
  dsimp only
  rw [loadElem_storeElem _ _ _ _ _ _ (isCValue_butterfly _ _ _ _).2,
    loadElem_storeElem _ _ _ _ _ _ (isCValue_butterfly _ _ _ _).1]

/-- The two elements of every butterfly lie in the buffer. -/
theorem stage_index_lt {m j o g : Nat} (ho : o < 2 ^ j / 2) (hg : g < 2 ^ m / 2 ^ j) :
    o + g * 2 ^ j + 2 ^ j / 2 < 2 ^ m := by
  have h1 : (g + 1) * 2 ^ j ≤ 2 ^ m := by
    calc (g + 1) * 2 ^ j ≤ 2 ^ m / 2 ^ j * 2 ^ j := Nat.mul_le_mul_right _ hg
      _ ≤ 2 ^ m := Nat.div_mul_le_self _ _
  rw [Nat.add_mul, Nat.one_mul] at h1
  omega

/-- A stage keeps a property of the buffer that every one of its butterflies keeps. -/
theorem stageElems_keeps (p : Buf → Prop) (F : Format) (base m j : Nat) (tw : Nat → Cplx) (b : Buf) (hb : p b)
    (h : ∀ o g y, o < 2 ^ j / 2 → g < 2 ^ m / 2 ^ j → p y → p (stagePair F base (2 ^ j / 2) (tw o) (o + g * 2 ^ j) y)) :
    p (stageElems F base m j tw b) :=
  forRange_keeps p _ _ _ hb fun o _ ho hy => forRange_keeps p _ _ _ hy fun g y hg hy => h o g y ho hg hy

/-- The swaps keep a property of the buffer that every one of them keeps. -/
theorem swapElems_keeps (p : Buf → Prop) (F : Format) (base : Nat) (pairs : List (Nat × Nat)) (b : Buf) (hb : p b)
    (h : ∀ e ∈ pairs, ∀ y, p y →
      p (storeElem F base e.2 (loadElem F base e.1 y) (storeElem F base e.1 (loadElem F base e.2 y) y))) :
    p (swapElems F base pairs b) := by
  induction pairs generalizing b with
  | nil => exact hb
  | cons e rest ih =>
    obtain ⟨i, r⟩ := e
    exact ih _ (h (i, r) List.mem_cons_self b hb) fun e he => h e (List.mem_cons_of_mem _ he)

end Sys2Proof.Machine
end

