-- ==== Sys2Proof/Tests/Slice0.lean ====
section
/-! SUPPORT. Tests of the model. Expected values are those of spec/95_test_vectors.md (the section is named at each) or of a
numbered rule's own example, never the model's answers; then, for each statement that has hypotheses, a witness that meets
them. -/

namespace Sys2Proof.Tests

open Sys2Proof Sys2Proof.Machine

/-! WellFormed refuses an ARG of 32, which the 5-bit field cannot hold (R66, R72). -/

theorem test_wellFormed_refuses_stage_32 : (Instr.stage .f64 false 32).wellFormed = false := by decide
theorem test_wellFormed_refuses_twgen_32 : (Instr.twgen 32).wellFormed = false := by decide
theorem test_wellFormed_refuses_ptgen_32 : (Instr.ptgen 32).wellFormed = false := by decide
theorem test_wellFormed_refuses_twread_32 : (Instr.twread .p32 true 32).wellFormed = false := by decide
theorem test_wellFormed_accepts_31 : (Instr.stage .f64 false 31).wellFormed = true := by decide

/-! Decode. -/

/-- One word of each command, written bit by bit: RSV, ARG, LUT, INV, FMT, OP (R62, the bit patterns of R68). -/
theorem test_decode_bit_patterns :
    ∀ p ∈ [ (0b0000000000000000000_00000_0_0_00_0000#32, Instr.nop),
            (0b0000000000000000000_00000_1_1_01_0001#32, .fft .f64 true true),
            (0b0000000000000000000_00000_1_0_10_0010#32, .bitrev .pk64 true),
            (0b0000000000000000000_10011_1_0_01_0011#32, .stage .f64 true 19),
            (0b0000000000000000000_00000_0_0_10_0100#32, .conj .pk64),
            (0b0000000000000000000_00000_0_0_01_0101#32, .inorm .f64),
            (0b0000000000000000000_10010_0_0_00_0110#32, .twgen 18),
            (0b0000000000000000000_01101_0_0_00_0111#32, .ptgen 13),
            (0b0000000000000000000_00111_1_0_01_1000#32, .twread .p64 true 7),
            (0b0000000000000000000_00000_0_0_01_1001#32, .cmul .p64),
            (0b0000000000000000000_00000_0_0_00_1010#32, .bfly .p32) ],
      (decode p.1).toOption = some p.2 := by decide

/-- spec/95_test_vectors.md 2.1, first part. -/
theorem test_decode_words_fft_bitrev :
    ∀ p ∈ [ ((0x00000001 : Word), Instr.fft .f32 false false), (0x00000011, .fft .f64 false false),
            (0x00000021, .fft .pk64 false false), (0x00000041, .fft .f32 true false), (0x00000051, .fft .f64 true false),
            (0x00000061, .fft .pk64 true false), (0x00000081, .fft .f32 false true), (0x00000091, .fft .f64 false true),
            (0x000000A1, .fft .pk64 false true), (0x00000002, .bitrev .f32 false), (0x00000012, .bitrev .f64 false),
            (0x00000022, .bitrev .pk64 false), (0x00000092, .bitrev .f64 true) ],
      (decode p.1).toOption = some p.2 := by decide

/-- spec/95_test_vectors.md 2.1, second part. -/
theorem test_decode_words_others :
    ∀ p ∈ [ ((0x00000113 : Word), Instr.stage .f64 false 1), (0x00000213, .stage .f64 false 2),
            (0x00000383, .stage .f32 true 3), (0x00001F13, .stage .f64 false 31), (0x00000004, .conj .f32),
            (0x00000014, .conj .f64), (0x00000005, .inorm .f32), (0x00000025, .inorm .pk64), (0x00000006, .twgen 0),
            (0x00000306, .twgen 3), (0x00000007, .ptgen 0), (0x00000307, .ptgen 3), (0x00000308, .twread .p32 false 3),
            (0x00000318, .twread .p64 false 3), (0x00000388, .twread .p32 true 3), (0x00000009, .cmul .p32),
            (0x0000001A, .bfly .p64) ],
      (decode p.1).toOption = some p.2 := by decide

/-- Whether a word fails to decode with this error. -/
def failsWith (w : Word) (e : DecodeError) : Bool :=
  match decode w with
  | .ok _ => false
  | .error d => d == e

/-- spec/95_test_vectors.md 2.1, the words that fail decode. -/
theorem test_decode_rejects :
    ([(0x0000000B : Word), 0x0000000F, 0x8000000C].all fun w => failsWith w .badOpcode) = true ∧
    ([(0x00000010 : Word), 0x00000100, 0x00000031, 0x00000101, 0x00002011, 0x80000011, 0x00000052, 0x00000053,
      0x00000094, 0x00000045, 0x00000034, 0x00000316, 0x00000386, 0x00000347, 0x00000328, 0x00000348, 0x00000029,
      0x00000089, 0x00000049, 0x00000109, 0x0000002A, 0x0000010A].all fun w => failsWith w .badField) = true := by
  decide

theorem test_decodeTableWord :
    decodeTableWord 32 0x00000213 = some (.stage .f64 false 2) ∧ decodeTableWord 32 0x0000000B = none := by decide

/-- The assembler's examples of R72, the pseudo IFFT of R73, and lines it refuses. -/
theorem test_assembler :
    (assemble ⟨.fft, some .f64, false, true, none⟩).map encode = some 0x00000091#32 ∧
    (assemble ⟨.fft, some .f32, true, false, none⟩).map encode = some 0x00000041#32 ∧
    (assemble ⟨.twread, some .f64, false, true, some 3⟩).map encode = some 0x00000398#32 ∧
    (assemble ⟨.cmul, some .f32, false, false, none⟩).map encode = some 0x00000009#32 ∧
    encode (ifft .f64 false) = 0x00000051#32 ∧
    assemble ⟨.cmul, some .pk64, false, false, none⟩ = none ∧
    assemble ⟨.conj, some .f64, false, true, none⟩ = none ∧
    assemble ⟨.twgen, none, false, false, some 32⟩ = none ∧
    assemble ⟨.stage, some .f64, false, false, none⟩ = none := by decide

/-! Validation. -/

/-- Whether validation, for MMAX = 18 and BUF_BYTES = 0x10000, ends in this way. -/
def validates (w len base idx : Word) (r : ErrCode ⊕ Nat) : Bool :=
  match validateWord ⟨18, 0x10000⟩ base len idx w, r with
  | .ok m, .inr n => m == n
  | .error c, .inl d => c == d
  | _, _ => false

/-- spec/60_exceptions.md R145. -/
theorem test_validation_priority :
    validates 0x0000000B 5 5 5 (.inl .badOpcode) = true ∧ validates 0x00002011 16 0 0 (.inl .badField) = true ∧
    validates 0x00000031 7 0 0 (.inl .badField) = true ∧ validates 0x00000011 7 3 0 (.inl .lenOdd) = true ∧
    validates 0x00000011 12 0 0 (.inl .lenPow2) = true ∧ validates 0x00000011 0 0 0 (.inl .lenPow2) = true ∧
    validates 0x00000011 16 4 0 (.inl .align) = true ∧ validates 0x00000513 16 4 0 (.inl .align) = true ∧
    validates 0x00000513 16 0 0 (.inl .argRange) = true ∧ validates 0x00000113 2 0 0 (.inl .argRange) = true := by
  decide

/-- spec/95_test_vectors.md 2.2, buffer commands. -/
theorem test_validation_buffer :
    validates 0x00000011 2 0 0 (.inr 0) = true ∧ validates 0x00000011 4 0 0 (.inr 1) = true ∧
    validates 0x00000011 0x00080000 0 0 (.inl .bufRange) = true ∧
    validates 0x00000011 0x00100000 0 0 (.inl .magRange) = true ∧
    validates 0x00000011 0x80000000 0 0 (.inl .magRange) = true ∧
    validates 0x00000011 0xFFFFFFFF 0 0 (.inl .lenOdd) = true ∧ validates 0x00000011 6 0 0 (.inl .lenPow2) = true ∧
    validates 0x00000011 8 0x0000FFC0 0 (.inr 2) = true ∧ validates 0x00000011 8 0x0000FFD0 0 (.inl .bufRange) = true ∧
    validates 0x00000011 8 8 0 (.inr 2) = true ∧ validates 0x00000001 8 4 0 (.inr 2) = true ∧
    validates 0x00000021 8 4 0 (.inl .align) = true ∧ validates 0x00000001 8 2 0 (.inl .align) = true ∧
    validates 0x00000013 16 0 0 (.inl .argRange) = true ∧ validates 0x00000313 16 0 0 (.inr 3) = true ∧
    validates 0x00000413 16 0 0 (.inl .argRange) = true ∧ validates 0x00000015 2 0 0 (.inr 0) = true := by
  decide

/-- spec/95_test_vectors.md 2.2, the other commands. -/
theorem test_validation_others :
    validates 0x00000006 0 0 0 (.inr 0) = true ∧ validates 0x00001206 0 0 0 (.inr 18) = true ∧
    validates 0x00001306 0 0 0 (.inl .argRange) = true ∧ validates 0x00001307 0 0 0 (.inl .argRange) = true ∧
    validates 0x00000018 0 0 0 (.inl .argRange) = true ∧ validates 0x00000118 0 0 0 (.inr 1) = true ∧
    validates 0x00000118 0 0 1 (.inl .argRange) = true ∧ validates 0x00000318 0 0 3 (.inr 3) = true ∧
    validates 0x00000318 0 0 4 (.inl .argRange) = true ∧ validates 0x00000318 0 0 0xFFFFFFFF (.inl .argRange) = true ∧
    validates 0x00000019 7 3 0 (.inr 0) = true ∧ validates 0x0000001A 0 0 0 (.inr 0) = true ∧
    validates 0x00000000 0 0 0 (.inr 0) = true := by
  decide

/-! The arithmetic. -/

/-- spec/95_test_vectors.md 2.4: products that are not plain. -/
theorem test_cmul_signed_zeros :
    cmul .p64 ⟨0x3FF0000000000000, 0x8000000000000000⟩ ⟨0x8000000000000000, 0x3FF0000000000000⟩ =
      ⟨0x0000000000000000, 0x3FF0000000000000⟩ ∧
    cmul .p64 ⟨0x3FF0000000000000, 0x8000000000000000⟩ ⟨0x8000000000000000, 0x8000000000000000⟩ =
      ⟨0x8000000000000000, 0x0000000000000000⟩ ∧
    cmul .p64 ⟨0x3FF0000000000000, 0x8000000000000000⟩ ⟨0xC000000000000000, 0x8000000000000000⟩ =
      ⟨0xC000000000000000, 0x0000000000000000⟩ ∧
    cmul .p64 ⟨0x3FE6A09E667F3BCD, 0xBFE6A09E667F3BCD⟩ ⟨0x3FF0000000000000, 0x3FF0000000000000⟩ =
      ⟨0x3FF6A09E667F3BCD, 0x0000000000000000⟩ := by
  decide +kernel

/-- spec/95_test_vectors.md 2.4: an overflow, an underflow; P32 differs from rounded P64. -/
theorem test_cmul_extremes :
    (cmul .p64 ⟨0x3FF0000000000000, 0x8000000000000000⟩ ⟨0x7FF0000000000000, 0⟩).re = 0x7FF0000000000000 ∧
    cmul .p64 ⟨0x3FE0000000000000, 0x3FE0000000000000⟩ ⟨1, 1⟩ = ⟨0, 0⟩ ∧
    cmul .p32 ⟨0x7F61B1E6, 0⟩ ⟨0x40000000, 0⟩ = ⟨0x7F800000, 0⟩ ∧
    cmul .p32 ⟨0x3DCCCCCD, 0x3E4CCCCD⟩ ⟨0x3E99999A, 0x3F333333⟩ = ⟨0xBDE147AE, 0x3E051EB8⟩ := by
  decide +kernel

/-- spec/95_test_vectors.md 2.4, (2, 3) times (2, -3) is (13, +0), read in both orders (spec/42_complex_multiplier.md R119,
commutativity): the conjugates' product is not (13, -0), the conjugate of the product (log entry 18). For
MultiplierSymmetries it is the case of cancellation. -/
theorem test_product_with_conjugate :
    cmul .p64 ⟨0x4000000000000000, 0x4008000000000000⟩ ⟨0x4000000000000000, 0xC008000000000000⟩ =
      ⟨0x402A000000000000, 0⟩ ∧
    cmul .p64 ⟨0x4000000000000000, 0xC008000000000000⟩ ⟨0x4000000000000000, 0x4008000000000000⟩ =
      ⟨0x402A000000000000, 0⟩ ∧
    cconj .p64 ⟨0x402A000000000000, 0⟩ = ⟨0x402A000000000000, 0x8000000000000000⟩ := by
  decide +kernel

/-- spec/95_test_vectors.md 2.4: -0 times infinity is a NaN. -/
theorem test_fmul_invalid : fpIsNaN .p64 (fmul .p64 0x8000000000000000 0x7FF0000000000000) = true := by
  have h : (fpIsNaN .p64 0x8000000000000000 || fpIsNaN .p64 0x7FF0000000000000 ||
      (fpIsInf .p64 0x8000000000000000 && fpIsZero .p64 0x7FF0000000000000) ||
      (fpIsZero .p64 0x8000000000000000 && fpIsInf .p64 0x7FF0000000000000)) = true := by decide
  unfold fmul
  rw [if_pos h]
  exact fpIsNaN_fpNaN _ _ _ _

/-- spec/95_test_vectors.md 2.5: rows 1, 4, 6 and 7. -/
theorem test_butterfly_rows :
    butterfly .p64 ⟨0x3FF0000000000000, 0x4000000000000000⟩ ⟨0x4008000000000000, 0x4010000000000000⟩
        ⟨0, 0xBFF0000000000000⟩ =
      (⟨0x4014000000000000, 0xBFF0000000000000⟩, ⟨0xC008000000000000, 0x4014000000000000⟩) ∧
    butterfly .p64 ⟨0x7FF0000000000000, 0⟩ ⟨0x3FF0000000000000, 0⟩ ⟨0x3FF0000000000000, 0x8000000000000000⟩ =
      (⟨0x7FF0000000000000, 0⟩, ⟨0x7FF0000000000000, 0⟩) ∧
    butterfly .p64 ⟨0x7FE1CCF385EBC8A0, 0⟩ ⟨0x7FE1CCF385EBC8A0, 0⟩ ⟨0x3FF0000000000000, 0x8000000000000000⟩ =
      (⟨0x7FF0000000000000, 0⟩, ⟨0, 0⟩) ∧
    butterfly .p64 ⟨0x4000000000000000, 0⟩ ⟨0x3FF0000000000000, 0x3FF0000000000000⟩
        ⟨0x3FE6A09E667F3BCD, 0xBFE6A09E667F3BCD⟩ =
      (⟨0x400B504F333F9DE6, 0⟩, ⟨0x3FE2BEC333018866, 0⟩) := by
  decide +kernel

/-- spec/95_test_vectors.md 2.7: INORM's rounding cases. -/
theorem test_cnorm_rounding :
    cnorm .p64 ⟨0x0000000000000001, 0x8000000000000001⟩ 1 = ⟨0, 0⟩ ∧
    cnorm .p64 ⟨0x0000000000000003, 0x0000000000000006⟩ 1 = ⟨0x0000000000000002, 0x8000000000000003⟩ ∧
    cnorm .p32 ⟨0x00000001, 0x00000002⟩ 1 = ⟨0x00000000, 0x80000001⟩ ∧
    cnorm .p64 ⟨0x4010000000000000, 0xC010000000000000⟩ 3 = ⟨0x3FE0000000000000, 0x3FE0000000000000⟩ ∧
    cnorm .p64 ⟨0x3FF0000000000000, 0x8000000000000000⟩ 0 = ⟨0x3FF0000000000000, 0x0000000000000000⟩ := by
  decide +kernel

/-- spec/95_test_vectors.md 2.7: CONJ keeps a NaN's payload. -/
theorem test_cconj :
    cconj .p64 ⟨0x3FF0000000000000, 0x7FF8000000000001⟩ = ⟨0x3FF0000000000000, 0xFFF8000000000001⟩ ∧
    cconj .p32 ⟨0x3F800000, 0x7F800000⟩ = ⟨0x3F800000, 0xFF800000⟩ := by
  decide

/-- spec/95_test_vectors.md 2.3: TT[4] under TW_CR, and the twiddle factors of k = 1 in both precisions. -/
theorem test_twCr_table :
    (List.range 8).map (fun k => twCr k 4) =
      [⟨0x0000000000000000, 0x3FF0000000000000⟩, ⟨0x3FD87DE2A6AEA963, 0x3FED906BCF328D46⟩,
       ⟨0x3FE6A09E667F3BCD, 0x3FE6A09E667F3BCD⟩, ⟨0x3FED906BCF328D46, 0x3FD87DE2A6AEA963⟩,
       ⟨0x3FF0000000000000, 0x0000000000000000⟩, ⟨0x3FED906BCF328D46, 0xBFD87DE2A6AEA963⟩,
       ⟨0x3FE6A09E667F3BCD, 0xBFE6A09E667F3BCD⟩, ⟨0x3FD87DE2A6AEA963, 0xBFED906BCF328D46⟩] ∧
    twiddleFactor .p64 (twCr 1 4) = ⟨0x3FED906BCF328D46, 0xBFD87DE2A6AEA963⟩ ∧
    twiddleFactor .p32 (twCr 1 4) = ⟨0x3F6C835E, 0xBEC3EF15⟩ := by
  decide +kernel

/-- spec/95_test_vectors.md 1.2: PT[m] and the examples of rev_m. -/
theorem test_swapPairs :
    swapPairs 0 = [] ∧ swapPairs 1 = [] ∧ swapPairs 2 = [(1, 2)] ∧ swapPairs 3 = [(1, 4), (3, 6)] ∧
    swapPairs 4 = [(1, 8), (2, 4), (3, 12), (5, 10), (7, 14), (11, 13)] ∧
    bitRev 3 5 = 5 ∧ bitRev 4 11 = 13 ∧ bitRev 5 3 = 24 := by
  decide

/-! One step of each command, placed as the machine's next instruction. -/

/-- The next state, if there is one. -/
def nextOf (o : Host.Outcome State Fault Refusal) : Option State :=
  match o with
  | .next s => some s
  | .fault _ => none
  | .refused _ => none

/-- BUF holding these 64-bit words from address 0. -/
def bufOf : List Dword → Buf
  | [] => ⟨[], 0⟩
  | v :: r =>
    let b := bufOf r
    memWrite ⟨b.cells.map fun c => (c.1 + 8, c.2), 0⟩ 0 8 v

/-- A reset state with these words in BUF, LEN = len, BASE = 0 and the tables TT[1], TT[2], PT[2] of spec/95_test_vectors.md
2.3 and 1.2 built. -/
def bufferState (words : List Dword) (len : Word) : State :=
  { State.reset with
    buf := bufOf words
    len := len
    tt := [(1, [⟨0, 0x3FF0000000000000⟩]), (2, [⟨0, 0x3FF0000000000000⟩, ⟨0x3FF0000000000000, 0⟩])]
    pt := [(2, [(1, 2)])] }

/-- The 64-bit words of BUF from address 0 after one step that runs a command word. -/
def wordsAfter (words : List Dword) (len : Word) (w : Nat) : Option (List Dword) :=
  (nextOf (step ((bufferState words len).withFetchWord 32 w))).map fun s =>
    (List.range words.length).map fun i => memRead s.buf (8 * i) 8

/-- (1, 2), (3, 4), (5, 6), (7, 8) in F64. -/
def fourPoints : List Dword :=
  [0x3FF0000000000000, 0x4000000000000000, 0x4008000000000000, 0x4010000000000000,
   0x4014000000000000, 0x4018000000000000, 0x401C000000000000, 0x4020000000000000]

/-- spec/95_test_vectors.md 2.8 (and program P1): FFT.F64.LUT of the 4-point buffer. -/
theorem test_fft_forward :
    wordsAfter fourPoints 8 0x00000091 = some
      [0x4030000000000000, 0x4034000000000000, 0xC020000000000000, 0x0000000000000000,
       0xC010000000000000, 0xC010000000000000, 0x0000000000000000, 0xC020000000000000] := by
  decide +kernel

/-- Program P2: FFT.F64.INV (here with LUT) of that output gives the input back. -/
theorem test_fft_inverse :
    wordsAfter
      [0x4030000000000000, 0x4034000000000000, 0xC020000000000000, 0x0000000000000000,
       0xC010000000000000, 0xC010000000000000, 0x0000000000000000, 0xC020000000000000] 8 0x000000D1 =
      some fourPoints := by
  decide +kernel

/-- spec/95_test_vectors.md 2.6: BITREV.F64 of the 4-point buffer. -/
theorem test_bitrev :
    wordsAfter fourPoints 8 0x00000012 = some
      [0x3FF0000000000000, 0x4000000000000000, 0x4014000000000000, 0x4018000000000000,
       0x4008000000000000, 0x4010000000000000, 0x401C000000000000, 0x4020000000000000] := by
  decide

/-- spec/43_transform.md R126: STAGE.F64 1 (here with LUT) of (1, 0), (3, 0). -/
theorem test_stage :
    wordsAfter [0x3FF0000000000000, 0, 0x4008000000000000, 0] 4 0x00000193 = some
      [0x4010000000000000, 0, 0xC000000000000000, 0] := by
  decide +kernel

/-- Program P5: in PK64 the real part is the upper half; FFT.PK64.LUT gives (16, 20), (-8, +0), (-4, -4), (+0, -8). -/
theorem test_fft_pk64 :
    wordsAfter [0x3F80000040000000, 0x4040000040800000, 0x40A0000040C00000, 0x40E0000041000000] 8 0x000000A1 = some
      [0x4180000041A00000, 0xC100000000000000, 0xC0800000C0800000, 0x00000000C1000000] := by
  decide +kernel

/-- spec/95_test_vectors.md 2.7: CONJ.F64 of (5, +0), and CONJ.PK64 of (1, 2). -/
theorem test_conj :
    wordsAfter [0x4014000000000000, 0] 2 0x00000014 = some [0x4014000000000000, 0x8000000000000000] ∧
    wordsAfter [0x3F80000040000000] 2 0x00000024 = some [0x3F800000C0000000] := by
  decide

/-- spec/95_test_vectors.md 2.7: INORM.F64 at m = 0 of (1, 1). At m = 1: halves. -/
theorem test_inorm :
    wordsAfter [0x3FF0000000000000, 0x3FF0000000000000] 2 0x00000015 = some
      [0x3FF0000000000000, 0xBFF0000000000000] ∧
    wordsAfter [3, 6, 1, 0x8000000000000001] 4 0x00000015 = some [2, 0x8000000000000003, 0, 0] := by
  decide +kernel

/-- The result registers after one step that runs a command word. -/
def resultsAfter (s : State) (w : Nat) : Option (Cplx × Cplx) :=
  (nextOf (step (s.withFetchWord 32 w))).map fun t => (t.y0, t.y1)

/-- spec/42_complex_multiplier.md R118; the upper words are ignored in P32 (spec/95_test_vectors.md P3). -/
theorem test_cmul_step :
    resultsAfter
        { State.reset with
          a := ⟨0x3FF0000000000000, 0x4000000000000000⟩, b := ⟨0x4008000000000000, 0x4010000000000000⟩ } 0x19 =
      some (⟨0xC014000000000000, 0x4024000000000000⟩, ⟨0, 0⟩) ∧
    resultsAfter
        { State.reset with
          a := ⟨0x400000003DCCCCCD, 0x3E4CCCCD⟩, b := ⟨0x3FF000003E99999A, 0x3FF000003F333333⟩ } 0x09 =
      some (⟨0xBDE147AE, 0x3E051EB8⟩, ⟨0, 0⟩) := by
  decide +kernel

/-- spec/42_complex_multiplier.md R120 in P64, and spec/95_test_vectors.md 2.5 row 1 in P32. -/
theorem test_bfly_step :
    resultsAfter
        { State.reset with
          a := ⟨0x3FF0000000000000, 0x4000000000000000⟩, b := ⟨0x4008000000000000, 0x4010000000000000⟩
          w := ⟨0, 0xBFF0000000000000⟩ } 0x1A =
      some (⟨0x4014000000000000, 0xBFF0000000000000⟩, ⟨0xC008000000000000, 0x4014000000000000⟩) ∧
    resultsAfter
        { State.reset with a := ⟨0x3F800000, 0x40000000⟩, b := ⟨0x40400000, 0x40800000⟩, w := ⟨0, 0xBF800000⟩ } 0x0A =
      some (⟨0x40A00000, 0xBF800000⟩, ⟨0xC0400000, 0x40A00000⟩) := by
  decide +kernel

/-- spec/95_test_vectors.md 2.3: TWREAD.F64.LUT 3 and TWREAD.F32.LUT 3 with IDX = 1, from the table TT[3] given there. -/
theorem test_twread :
    let s : State :=
      { State.reset with
        idx := 1
        tt := [(3, [⟨0, 0x3FF0000000000000⟩, ⟨0x3FE6A09E667F3BCD, 0x3FE6A09E667F3BCD⟩, ⟨0x3FF0000000000000, 0⟩,
          ⟨0x3FE6A09E667F3BCD, 0xBFE6A09E667F3BCD⟩])] }
    resultsAfter s 0x398 = some (⟨0x3FE6A09E667F3BCD, 0xBFE6A09E667F3BCD⟩, ⟨0, 0⟩) ∧
    resultsAfter s 0x388 = some (⟨0x3F3504F3, 0xBF3504F3⟩, ⟨0, 0⟩) := by
  decide +kernel

/-- spec/41_lookup_tables.md R102: TWGEN 3 sets bit 3 of TVALID; R96: the table has 4 entries; TT[0] is empty. -/
theorem test_twgen :
    (nextOf (step (State.reset.withFetchWord 32 0x306))).map (fun t => (findKey t.tt 3).map List.length) =
      some (some 4) ∧
    (nextOf (step (State.reset.withFetchWord 32 0x006))).map (fun t => findKey t.tt 0) = some (some []) := by
  decide

/-- spec/41_lookup_tables.md R103: PTGEN 3 leaves PT[3] = [(1, 4), (3, 6)]. -/
theorem test_ptgen :
    (nextOf (step (State.reset.withFetchWord 32 0x307))).map (fun t => findKey t.pt 3) = some (some [(1, 4), (3, 6)]) := by
  decide

/-- spec/40_commands.md R85: a NOP ends with STATUS = 0x00000002. -/
theorem test_nop : (nextOf (step (State.reset.withFetchWord 32 0))).map State.statusWord = some 0x00000002#32 := by
  decide

/-! The register protocol (spec/95_test_vectors.md 2.9), one step each. -/

/-- A reset state that holds a NOP accepted and not yet executed. -/
def busyNop : State := State.reset.accept 0 0

/-- STATUS and ERRCODE after a host write of a value to a register offset. -/
def statusAfterWrite (s : State) (off : Nat) (v : Dword) : Option (Word × Word) :=
  (nextOf (step { s with inputs := [.host (.writeReg 4 off v)] })).map fun t => (t.statusWord, t.errcodeWord)

/-- What a host read returns. -/
def readBack (s : State) (x : HostAccess) : Option Dword := (nextOf (hostStep x s)).bind fun t => t.reply

theorem test_issue_bad_words :
    statusAfterWrite State.reset 0x004 0x0000000B = some (4, 1) ∧
    statusAfterWrite (State.reset.reject .badOpcode) 0x004 0x00000031 = some (4, 2) ∧
    statusAfterWrite (State.reset.reject .badOpcode) 0x008 0x00000004 = some (0, 0) := by
  decide

theorem test_issue_nop_and_overrun :
    statusAfterWrite State.reset 0x004 0x00000000 = some (1, 0) ∧
    statusAfterWrite busyNop 0x004 0x00000000 = some (9, 0) ∧
    statusAfterWrite { State.reset with done := true } 0x008 0x00000001 = some (2, 0) := by
  decide

theorem test_reserved_and_read_only :
    readBack State.reset (.readReg 4 0x02C) = some 0 ∧ readBack State.reset (.readReg 4 0x004) = some 0 ∧
    (nextOf (hostStep (.writeReg 4 0x070 0x12345678) State.reset)).map (fun t => t.y0.re) = some 0 := by
  decide

theorem test_len_write_while_busy :
    (nextOf (hostStep (.writeReg 4 0x014 4) { busyNop with len := 8 })).map (fun t => (t.len, t.ovr)) = some (8, true) := by
  decide

theorem test_refused_accesses :
    nextOf (hostStep (.readBuf 4 0x2) State.reset) = none ∧ nextOf (hostStep (.writeBuf 8 0x4 0) State.reset) = none ∧
    nextOf (hostStep (.readReg 4 0x002) State.reset) = none ∧ nextOf (hostStep (.readReg 8 0x000) State.reset) = none := by
  decide

/-- 1.0 written as 8 bytes: BR8 7, BR16 6, BR32 4. -/
theorem test_buf_widths :
    let b := memWrite State.reset.buf 0 8 0x3FF0000000000000
    memRead b 7 1 = 0x3F ∧ memRead b 6 2 = 0x3FF0 ∧ memRead b 4 4 = 0x3FF00000 := by
  decide

theorem test_irq :
    ({ State.reset.reject .badOpcode with errIe := true } : State).irq = true ∧
    ({ State.reset with doneIe := true, errIe := true, ovrIe := true } : State).irq = false := by
  decide

theorem test_reset_while_busy :
    (nextOf (step { busyNop with inputs := [.reset] })).map State.statusWord = some 0 := by
  decide

/-- spec/42_complex_multiplier.md R119 and spec/95_test_vectors.md 2.5 row 6: infinities keep their sign. -/
theorem test_infinities :
    fadd .p64 0x7FF0000000000000 0xC000000000000000 = 0x7FF0000000000000 ∧
    fsub .p64 0x3FF0000000000000 0x7FF0000000000000 = 0xFFF0000000000000 ∧
    fmul .p64 0x3FF0000000000000 0x7FF0000000000000 = 0x7FF0000000000000 := by
  decide

/-- A CMD write by host bus address does what one by offset does. -/
theorem test_bus_write :
    (⟨Config.regBase + 4, 4, some 0⟩ : BusAccess).resolve = some (.writeReg 4 4 0) := by
  simp [BusAccess.resolve]

/-! Witnesses: for each statement that has hypotheses, a concrete state and operands that meet them together. -/

/-- An LC that holds this word, with the register values of reset. -/
def latchOf (w : Word) (m : Nat) : Latched := ⟨w, 0, 0, m, 0, ⟨0, 0⟩, ⟨0, 0⟩, ⟨0, 0⟩⟩

/-- A reset state BUSY with that LC. -/
def busyWith (w : Word) (m : Nat) : State := { State.reset with lc := some (latchOf w m) }

theorem eight_le_bufBytes : 8 ≤ Config.bufBytes := by
  unfold Config.bufBytes; omega

theorem tables_right_nil : TwiddleTablesRight [] ∧ SwapTablesRight [] := by
  simp [TwiddleTablesRight, SwapTablesRight, keysRising]

theorem tables_right_built : TwiddleTablesRight [(0, [])] ∧ SwapTablesRight [(1, [])] := by
  have h := (by unfold Config.mmax; omega : 1 ≤ Config.mmax)
  refine ⟨⟨rfl, ?_⟩, ⟨rfl, ?_⟩⟩
  · simp [twiddleTable]
  · intro e he
    simp only [List.mem_singleton] at he
    subst he
    exact ⟨h, by decide⟩

theorem witness_EveryWellFormedCommandDecodesBack : (Instr.stage .pk64 true 31).wellFormed = true := by decide

/-- Each clause at its boundary: OP 0xB; OP 0xA with a field that is not allowed; OP 0xA and OP 0 with allowed ones. -/
theorem witness_EveryWordIsOneCommandOrAnError :
    0xB ≤ (opField 0x0000000B).toNat ∧
    ((opField 0x0000002A).toNat < 0xB ∧ ¬ fieldsAllowed 0x0000002A) ∧
    ((opField 0x0000001A).toNat < 0xB ∧ fieldsAllowed 0x0000001A) ∧
    ((opField 0x00000000).toNat < 0xB ∧ fieldsAllowed 0x00000000) := by
  refine ⟨by decide, ⟨by decide, ?_⟩, ⟨by decide, ?_⟩, ⟨by decide, ?_⟩⟩
  · rintro ⟨_, h⟩
    exact absurd h.1 (by decide)
  · exact ⟨by decide, by decide, by decide, by decide, by decide⟩
  · exact ⟨by decide, by decide, by decide, by decide, by decide⟩

theorem witness_StepRunsTheLatchedCommand :
    (busyWith 0x19 0).lc = some (latchOf 0x19 0) ∧ decode (latchOf 0x19 0).word = .ok (.cmul .p64) ∧
    (busyWith 0x19 0).inputs = [] ∧
    ({ busyWith 0x19 0 with inputs := [.engine] } : State).inputs = .engine :: [] := ⟨rfl, rfl, rfl, rfl⟩

theorem witness_HostStepsPerformTheAccess :
    ({ State.reset with inputs := [.host (.readReg 4 0)] } : State).nextAccess = some (.readReg 4 0) ∧
    ({ State.reset with inputs := [.bus ⟨Config.regBase + 0xFFC, 4, none⟩] } : State).nextAccess =
      some (.readReg 4 0xFFC) ∧
    0 < Config.bufBytes ∧ Config.bufBytes - 1 < Config.bufBytes := by
  have := eight_le_bufBytes
  refine ⟨rfl, ?_, by omega, by omega⟩
  simp [State.nextAccess, BusAccess.resolve]

/-- Each clause at a boundary, MMAX = 18. -/
theorem witness_LengthCheckReportsTheFirstCause :
    7 % 2 = 1 ∧ (12 % 2 = 0 ∧ ∀ m : Nat, 12 ≠ 2 * 2 ^ m) ∧ (0 % 2 = 0 ∧ ∀ m : Nat, 0 ≠ 2 * 2 ^ m) ∧
    (0x100000 = 2 * 2 ^ 19 ∧ 18 < 19) ∧ (0x80000 = 2 * 2 ^ 18 ∧ 18 ≤ 18) ∧ (2 = 2 * 2 ^ 0 ∧ 0 ≤ 18) := by
  refine ⟨by decide, ⟨by decide, fun m => ?_⟩, ⟨by decide, fun m => ?_⟩, by decide, by decide, by decide⟩
  · have h3 : m < 3 ∨ 3 ≤ m := by omega
    rcases h3 with h | h
    · interval_cases m <;> decide
    · have := Nat.pow_le_pow_right (n := 2) (by omega) h
      omega
  · have := Nat.two_pow_pos m
    omega

/-- Each clause of a buffer command at a boundary: word FFT.F64 or STAGE.F64, MMAX = 18, BUF_BYTES = 0x10000. -/
theorem witness_ValidationReportsErrorsInOrder_buffer :
    (decode 0x0000000B = .error .badOpcode ∧ decode 0x00002011 = .error .badField) ∧
    (decode 0x00000011 = .ok (.fft .f64 false false) ∧ (Instr.fft .f64 false false).bufferFormat = some .f64) ∧
    ((7 : Word).toNat % 2 = 1 ∧ (12 : Word).toNat % 2 = 0) ∧
    ((0x100000 : Word).toNat = 2 * 2 ^ 19 ∧ 18 < 19) ∧
    ((16 : Word).toNat = 2 * 2 ^ 3 ∧ (4 : Word).toNat % elemAlign .f64 ≠ 0) ∧
    ((8 : Word).toNat = 2 * 2 ^ 2 ∧ (0xFFC8 : Word).toNat % elemAlign .f64 = 0 ∧
      0x10000 < (0xFFC8 : Word).toNat + 2 ^ 2 * elemSize .f64) ∧
    ((0xFFC0 : Word).toNat % elemAlign .f64 = 0 ∧ (0xFFC0 : Word).toNat + 2 ^ 2 * elemSize .f64 ≤ 0x10000) ∧
    (decode 0x00000313 = .ok (.stage .f64 false 3) ∧ 2 < 3 ∧ (1 ≤ 3 ∧ 3 ≤ 3)) := by
  refine ⟨⟨rfl, rfl⟩, ⟨rfl, rfl⟩, ?_, ?_, ?_, ?_, ?_, ⟨rfl, ?_⟩⟩ <;> decide

/-- Each clause of the other commands at a boundary, MMAX = 18. -/
theorem witness_ValidationReportsErrorsInOrder_others :
    (decode 0x00001306 = .ok (.twgen 19) ∧ 18 < 19) ∧ (decode 0x00001207 = .ok (.ptgen 18) ∧ 18 ≤ 18) ∧
    (decode 0x00000018 = .ok (.twread .p64 false 0) ∧ 0 < 1) ∧
    (decode 0x00000318 = .ok (.twread .p64 false 3) ∧ 1 ≤ 3 ∧ 3 ≤ 18 ∧ 2 ^ (3 - 1) ≤ (4 : Word).toNat ∧
      (3 : Word).toNat < 2 ^ (3 - 1)) ∧
    decode 0x00000000 = .ok .nop ∧ decode 0x00000009 = .ok (.cmul .p32) ∧ decode 0x0000001A = .ok (.bfly .p64) := by
  refine ⟨⟨rfl, by decide⟩, ⟨rfl, by decide⟩, ⟨rfl, by decide⟩, ⟨rfl, by decide, by decide, by decide, by decide⟩,
    rfl, rfl, rfl⟩

theorem witness_RejectionRecordsTheErrorAndNothingElse :
    ({ State.reset with inputs := [.host (.writeReg 4 0x004 ((0x0000000B : Word).setWidth 64))] } : State).lc = none ∧
    ({ State.reset with inputs := [.host (.writeReg 4 0x004 ((0x0000000B : Word).setWidth 64))] } : State).validate
      0x0000000B = .error .badOpcode := ⟨rfl, rfl⟩

/-- A command of one element at address 0 in F32 is accepted by every instance. -/
theorem validates_one_element (w : Word) (i : Instr) (h : decode w = .ok i) (hf : i.bufferFormat = some .f32)
    (ha : checkArg Config.params i 0 0 = none) (s : State) (h1 : s.base = 0) (h2 : s.len = 2) (h3 : s.idx = 0) :
    s.validate w = .ok 0 := by
  have h8 := eight_le_bufBytes
  have hl : checkLength Config.params (2 : Word).toNat = .ok 0 := by
    unfold checkLength
    rw [if_neg (by decide), if_neg (by decide), if_neg]
    · rfl
    · show ¬ Config.mmax < 0
      omega
  have hr : checkRegion Config.params .f32 (0 : Word).toNat 0 = none := by
    unfold checkRegion
    rw [if_neg (by decide), if_neg]
    simpa [Config.params, elemSize] using h8
  unfold State.validate validateWord
  rw [h1, h2, h3, h]
  simp only [hf, hl, hr]
  simp [ha]

theorem witness_AcceptanceLatchesTheOperands :
    ({ State.reset with len := 2 } : State).lc = none ∧
    ({ State.reset with len := 2 } : State).validate 0x00000004 = .ok 0 ∧ decode 0x00000004 = .ok (.conj .f32) ∧
    State.reset.validate 0x00000000 = .ok 0 ∧ decode 0x00000000 = .ok .nop :=
  ⟨rfl, validates_one_element _ (.conj .f32) rfl rfl rfl _ rfl rfl rfl, rfl, rfl, rfl⟩

theorem witness_HostAccessFaultsExactlyWhenRefused :
    ¬ (HostAccess.readReg 4 0x002).allowed ∧ (HostAccess.readReg 4 0xFFC).allowed ∧
    ¬ (HostAccess.readBuf 8 0x004).allowed ∧ (HostAccess.readBuf 8 0).allowed := by
  have := eight_le_bufBytes
  simp [HostAccess.allowed, this]

/-- Each clause at both ends of its offsets, BUSY with a NOP. -/
theorem witness_BusyPhaseDropsWritesAndDrawsReads :
    busyNop.lc ≠ none ∧
    (∀ off ∈ [0x004, 0x010, 0x018, 0x040, 0x06C],
      off % 4 = 0 ∧ (off = 0x004 ∨ (0x010 ≤ off ∧ off ≤ 0x018) ∨ (0x040 ≤ off ∧ off ≤ 0x06C))) ∧
    (∀ off ∈ [0x070, 0x08C], off % 4 = 0 ∧ 0x070 ≤ off ∧ off ≤ 0x08C) ∧
    (HostAccess.writeBuf 8 0 0).allowed ∧ (HostAccess.readBuf 1 0).allowed := by
  have := eight_le_bufBytes
  refine ⟨nofun, by decide, by decide, ?_, ?_⟩ <;> simp [HostAccess.allowed] <;> omega

theorem witness_RegistersReadTheirValues :
    State.reset.lc = none ∧ State.reset.errcode = .none ∧ (State.reset.reject .argRange).errcode = .argRange :=
  ⟨rfl, rfl, rfl⟩

theorem witness_ReservedOffsetsReadZeroAndIgnoreWrites :
    ∀ off ∈ [0x02C, 0x03C, 0x090, 0xFFC],
      off % 4 = 0 ∧ ((0x02C ≤ off ∧ off ≤ 0x03C) ∨ (0x090 ≤ off ∧ off ≤ 0xFFC)) := by
  decide

theorem witness_RegisterWritesChangeOnlyTheirRegister :
    State.reset.lc = none ∧
    (∀ off ∈ [0x010, 0x018, 0x040, 0x06C],
      off % 4 = 0 ∧ ((0x010 ≤ off ∧ off ≤ 0x018) ∨ (0x040 ≤ off ∧ off ≤ 0x06C))) ∧
    (0xFFC % 4 = 0 ∧ 0xFFC ≠ 0x010 ∧ 0xFFC ≤ 0xFFC) ∧
    (∀ off ∈ [0x000, 0x00C, 0x01C, 0x024, 0x070, 0x08C],
      off % 4 = 0 ∧ (off = 0x000 ∨ off = 0x00C ∨ (0x01C ≤ off ∧ off ≤ 0x024) ∨ (0x070 ≤ off ∧ off ≤ 0x08C))) := by
  decide

theorem witness_BufAccessesAreLittleEndian :
    (8 = 1 ∨ 8 = 2 ∨ 8 = 4 ∨ 8 = 8) ∧ State.reset.lc = none ∧ (HostAccess.readBuf 8 0).allowed ∧ 7 < 8 ∧ 8 * 8 ≤ 64 := by
  have := eight_le_bufBytes
  simp [HostAccess.allowed, State.reset, this]

/-- NOP, TWGEN, PTGEN, CMUL, BFLY, CONJ, INORM, and the statements about any latched command. -/
theorem witness_latched_command :
    (busyWith 0x00000005 0).lc = some (latchOf 0x00000005 0) ∧ (busyWith 0x00000005 0).lc ≠ none ∧
    0 < 2 ^ (latchOf 0x00000005 0).m := ⟨rfl, nofun, by decide⟩

theorem witness_TwgenBuildsTheTwiddleTable :
    (busyWith 0x00000006 0).lc = some (latchOf 0x00000006 0) ∧ findKey (busyWith 0x00000006 0).tt 0 = none ∧
    findKey ({ busyWith 0x00000006 0 with tt := [(0, [])] } : State).tt 0 = some [] := ⟨rfl, rfl, rfl⟩

theorem witness_PtgenBuildsTheSwapTable :
    (busyWith 0x00000107 1).lc = some (latchOf 0x00000107 1) ∧ findKey (busyWith 0x00000107 1).pt 1 = none ∧
    findKey ({ busyWith 0x00000107 1 with pt := [(1, [])] } : State).pt 1 = some [] := ⟨rfl, rfl, rfl⟩

theorem witness_right_tables :
    (busyWith 0x00000118 1).lc = some (latchOf 0x00000118 1) ∧ TwiddleTablesRight (busyWith 0x00000118 1).tt ∧
    SwapTablesRight (busyWith 0x00000118 1).pt := ⟨rfl, tables_right_nil.1, tables_right_nil.2⟩

theorem witness_StageAppliesItsButterflies :
    (busyWith 0x00000113 1).lc = some (latchOf 0x00000113 1) ∧ TwiddleTablesRight (busyWith 0x00000113 1).tt ∧
    1 ≤ 1 ∧ 1 ≤ (latchOf 0x00000113 1).m ∧ (0 < 2 ^ (latchOf 0x00000113 1).m ∧ 0 / 2 ^ (1 - 1) % 2 = 0) :=
  ⟨rfl, tables_right_nil.1, by decide, by decide, by decide⟩

theorem witness_FftEqualsItsPassSequence :
    (busyWith 0x00000011 1).lc = some (latchOf 0x00000011 1) ∧ 1 ≤ (latchOf 0x00000011 1).m := ⟨rfl, by decide⟩

theorem witness_FftOfMagnitudeZeroIsANoOp :
    State.reset.lc = none ∧ ({ State.reset with len := 2 } : State).len = 2 ∧
    State.reset.base.toNat % elemAlign .f32 = 0 ∧ State.reset.base.toNat + elemSize .f32 ≤ Config.bufBytes :=
  ⟨rfl, rfl, rfl, by have := eight_le_bufBytes; simpa [State.reset, elemSize] using this⟩

theorem witness_CommandsWriteOnlyWhatTheyName :
    (busyWith 0x00000004 0).lc = some (latchOf 0x00000004 0) ∧
    (∃ t, exec (.conj .f32) (busyWith 0x00000004 0) = .next t) ∧
    SwapTablesRight (busyWith 0x00000004 0).pt ∧ (Instr.conj .f32).bufferFormat = some .f32 ∧
    ¬ inRegion .f32 0 0 8 ∧ Instr.nop.bufferFormat = none ∧
    ((busyWith 0x00000082 1).lc = some (latchOf 0x00000082 1) ∧
      (∃ t, exec (.bitrev .f32 true) (busyWith 0x00000082 1) = .next t) ∧
      (Instr.bitrev .f32 true).buildsSwaps 1 = some 1 ∧ (Instr.bitrev .f32 true).buildsSwaps 1 ≠ some 2 ∧
      (Instr.bitrev .f32 true).buildsTwiddles 1 = none ∧ (Instr.twgen 3).buildsTwiddles 1 = some 3) :=
  ⟨rfl, ⟨_, rfl⟩, tables_right_nil.2, rfl, by simp [inRegion, elemSize], rfl, rfl, ⟨_, rfl⟩, rfl, by decide, rfl, rfl⟩

/-- Two states that differ outside the region of CONJ.F32 (bytes 0 to 7) and in the tables built. -/
theorem witness_ResultsDependOnLatchedOperandsAndRegionOnly :
    let s := busyWith 0x00000004 0
    let s' : State := { s with buf := ⟨[(8, 0xFF)], 0⟩, tt := [(0, [])], pt := [(1, [])] }
    s.lc = some (latchOf 0x00000004 0) ∧ s'.lc = some (latchOf 0x00000004 0) ∧
    TwiddleTablesRight s.tt ∧ SwapTablesRight s.pt ∧ TwiddleTablesRight s'.tt ∧ SwapTablesRight s'.pt ∧
    ∀ F, (Instr.conj .f32).bufferFormat = some F →
      ∀ a, inRegion F (latchOf 0x00000004 0).base.toNat 0 a → s.buf.byte a = s'.buf.byte a := by
  refine ⟨rfl, rfl, tables_right_nil.1, tables_right_nil.2, tables_right_built.1, tables_right_built.2, ?_⟩
  intro F hF a ha
  cases hF
  have ha : a < 8 := by simpa [inRegion, elemSize, latchOf] using ha
  have : ¬ 8 = a := by omega
  simp [Buf.byte, Buf.unlisted, findKey, busyWith, State.reset, this]

theorem witness_LiveAndLookupModesAgree :
    (busyWith 0x00000112 1).lc = some (latchOf 0x00000112 1) ∧ TwiddleTablesRight (busyWith 0x00000112 1).tt ∧
    SwapTablesRight (busyWith 0x00000112 1).pt ∧ TwiddleTablesRight [(0, [])] ∧ SwapTablesRight [(1, [])] :=
  ⟨rfl, tables_right_nil.1, tables_right_nil.2, tables_right_built.1, tables_right_built.2⟩

/-- (1, 2) at address 0, as F32 and as PK64. -/
theorem witness_F32AndPk64TransformsAgree :
    let s : State := { busyWith 0x00000001 0 with buf := bufOf [0x400000003F800000] }
    let s' : State := { busyWith 0x00000021 0 with buf := bufOf [0x3F80000040000000] }
    s.lc = some (latchOf 0x00000001 0) ∧ s'.lc = some (latchOf 0x00000021 0) ∧
    (latchOf 0x00000001 0).m = (latchOf 0x00000021 0).m ∧
    TwiddleTablesRight s.tt ∧ SwapTablesRight s.pt ∧ TwiddleTablesRight s'.tt ∧ SwapTablesRight s'.pt ∧
    ∀ i, i < 2 ^ (latchOf 0x00000001 0).m → loadElem .f32 0 i s.buf = loadElem .pk64 0 i s'.buf := by
  refine ⟨rfl, rfl, rfl, tables_right_nil.1, tables_right_nil.2, tables_right_nil.1, tables_right_nil.2, fun i hi => ?_⟩
  have hi : i < 1 := hi
  obtain rfl : i = 0 := by omega
  decide

theorem witness_SwapOrderDoesNotMatter : List.Perm [(3, 6), (1, 4)] (swapPairs 3) := by decide

theorem witness_ButterflyOrderDoesNotMatter :
    1 ≤ 2 ∧ 2 ≤ 3 ∧
    List.Perm [(1, 1), (0, 1), (1, 0), (0, 0)]
      ((List.range (2 ^ (2 - 1))).flatMap fun o => (List.range (2 ^ (3 - 2))).map fun g => (o, g)) := by
  decide

/-- The impulse at m = 1 in F32. -/
theorem witness_ImpulseTransformsToOnes :
    let s : State := { busyWith 0x00000001 1 with buf := bufOf [0x000000003F800000, 0] }
    s.lc = some (latchOf 0x00000001 1) ∧ 1 ≤ (latchOf 0x00000001 1).m ∧
    (0x3F800000 : Dword) = (if Format.f32 = .f64 then 0x3FF0000000000000 else 0x3F800000) ∧
    TwiddleTablesRight s.tt ∧ SwapTablesRight s.pt ∧
    ∀ i, i < 2 ^ (latchOf 0x00000001 1).m →
      loadElem .f32 0 i s.buf = if i = 0 then ⟨0x3F800000, 0⟩ else ⟨0, 0⟩ := by
  refine ⟨rfl, by decide, by decide, tables_right_nil.1, tables_right_nil.2, fun i hi => ?_⟩
  have hi : i < 2 := hi
  interval_cases i <;> decide

/-- In every instance whose BUF holds two F32 elements (BUF_BYTES is an open parameter and may be as small as 8). -/
theorem witness_HostSequenceEqualsFft (h : 16 ≤ Config.bufBytes) :
    ({ State.reset with len := 4 } : State).lc = none ∧ 1 ≤ 1 ∧
    ({ State.reset with len := 4 } : State).validate (encode (.fft .f32 false true)) = .ok 1 := by
  refine ⟨rfl, by decide, ?_⟩
  have hm := (by unfold Config.mmax; omega : 18 ≤ Config.mmax)
  have hd : decode (encode (.fft .f32 false true)) = .ok (.fft .f32 false true) := rfl
  have hl : checkLength Config.params (4 : Word).toNat = .ok 1 := by
    unfold checkLength
    rw [if_neg (by decide), if_neg (by decide), if_neg]
    · rfl
    · show ¬ Config.mmax < 1
      omega
  have hr : checkRegion Config.params .f32 (0 : Word).toNat 1 = none := by
    unfold checkRegion
    rw [if_neg (by decide), if_neg]
    simpa [Config.params, elemSize] using h
  unfold State.validate validateWord
  rw [hd]
  show (match checkLength Config.params (4 : Word).toNat with
    | .error c => Except.error c
    | .ok m => _) = _
  rw [hl]
  show (match checkRegion Config.params .f32 (0 : Word).toNat 1 with
    | some c => Except.error c
    | none => _) = _
  rw [hr]
  rfl

/-- The state BUSY with a NOP meets the invariant. -/
theorem witness_inv : Inv busyNop where
  bufWf := rfl
  bufInside := by intro c hc; cases hc
  twiddles := tables_right_nil.1
  swaps := tables_right_nil.2
  latchValid := by
    intro lc h
    cases h
    exact (rfl : validateWord Config.params 0 0 0 0 = .ok 0)
  latchCurrent := by
    intro lc h
    cases h
    exact ⟨rfl, rfl, rfl, rfl, rfl, rfl, fun h => absurd h (by decide)⟩
  magLegal := Nat.zero_le _
  errRecorded := ⟨fun _ => rfl, fun _ => rfl⟩
  busyNotDone := fun _ => rfl

theorem witness_StepKeepsTheInvariant : Inv busyNop ∧ ∃ t, step busyNop = .next t := ⟨witness_inv, _, rfl⟩

/-- For AdmittedRunsAreSafe and BusyCommandCompletes. -/
theorem witness_BusyCommandCompletes :
    let s : State := { busyNop with inputs := [.host (.readReg 4 0x008), .engine] }
    Inv s ∧ s.lc ≠ none ∧ (∀ x ∈ s.inputs, x.admitted) ∧ (∀ x ∈ s.inputs, x ≠ .reset) := by
  obtain ⟨h1, h2, h3, h4, h5, h6, h7, h8, h9⟩ := witness_inv
  refine ⟨⟨h1, h2, h3, h4, h5, h6, h7, h8, h9⟩, nofun, ?_, by decide⟩
  simp [Input.admitted, HostAccess.admitted, regAdmitted]

theorem witness_HostCannotDisturbABusyCommand :
    busyNop.lc = some (State.reset.latch 0 0) ∧ decode (State.reset.latch 0 0).word = .ok .nop ∧
    ∀ x ∈ [Input.host (.writeReg 4 0x004 0), .host (.readReg 4 0x070), .bus ⟨Config.regBase + 0x010, 4, some 8⟩],
      (∃ y, x = .host y ∧ y.allowed) ∨ (∃ y, x = .bus y ∧ ∀ z, y.resolve = some z → z.allowed) := by
  refine ⟨rfl, rfl, ?_⟩
  simp [HostAccess.allowed, BusAccess.resolve]

/-- For OnlyResetEmptiesATable: a built table, with and without reset next; for ResetClearsEverything the first. -/
theorem witness_OnlyResetEmptiesATable :
    let s : State := { busyNop with tt := [(0, [])], pt := [(1, [])] }
    (∃ t, step { s with inputs := [.reset] } = .next t) ∧ ({ s with inputs := [.reset] } : State).resetNext ∧
    (∃ t, step s = .next t) ∧ ¬ s.resetNext ∧ findKey s.tt 0 = some [] ∧ findKey s.pt 1 = some [] :=
  ⟨⟨_, rfl⟩, ⟨[], rfl⟩, ⟨_, rfl⟩, (by rintro ⟨rest, h⟩; cases h), rfl, rfl⟩

/-- For NoStepSetsTwoStatusBits and StatusBitsChangeOnlyAsListed: a step for each clause. -/
theorem witness_StatusBitsChangeOnlyAsListed :
    statusAfterWrite State.reset 0x004 0 = some (1, 0) ∧
    (nextOf (step busyNop)).map (fun t => (t.lc, t.done)) = some (none, true) ∧
    statusAfterWrite { State.reset with done := true } 0x008 2 = some (0, 0) ∧
    statusAfterWrite { State.reset with done := true } 0x004 0 = some (1, 0) ∧
    statusAfterWrite State.reset 0x004 0xF = some (4, 1) ∧
    statusAfterWrite (State.reset.reject .badOpcode) 0x008 4 = some (0, 0) ∧
    statusAfterWrite busyNop 0x06C 0 = some (9, 0) ∧
    statusAfterWrite { State.reset with ovr := true } 0x008 8 = some (0, 0) := by
  decide

/-- Finite values, for the statements on rounding: 1.0 and the least subnormal in both precisions. -/
theorem witness_finite_values :
    fpIsFinite .p32 0x3F800000 = true ∧ fpIsFinite .p32 1 = true ∧ fpIsFinite .p64 0x3FF0000000000000 = true ∧
    fpIsFinite .p64 1 = true ∧ 30 ≤ 30 ∧
    (fpSigned .p64 0x3FF0000000000000 + fpSigned .p64 0xBFF0000000000000 = 0) ∧
    (fpSigned .p32 0x3F800000 - fpSigned .p32 0x3F800000 = 0) := by
  decide +kernel

/-- Infinite operands, for the same statements: infinity with 1.0, with itself and with its negative, in binary32. -/
theorem witness_infinite_values :
    fpIsInf .p32 0x7F800000 = true ∧ fpIsInf .p64 0xFFF0000000000000 = true ∧
    (fpIsNaN .p32 0x3F800000 = false ∧ fpIsZero .p32 0x3F800000 = false ∧ fpIsInf .p32 0x3F800000 = false) ∧
    (fpIsNaN .p32 0x7F800000 = false ∧ fpSign .p32 0x7F800000 = fpSign .p32 0x7F800000) ∧
    (fpIsNaN .p32 0xFF800000 = false ∧ fpSign .p32 0x7F800000 ≠ fpSign .p32 0xFF800000) := by
  decide

/-- A word with OP = 1 and FMT = 3, for FormatsLayOutTheirElements. -/
theorem witness_FormatsLayOutTheirElements :
    1 ≤ (opField 0x00000031).toNat ∧ (opField 0x00000031).toNat ≤ 5 ∧ fmtField 0x00000031 = 3 := by
  decide

theorem witness_TwiddleLawsHold : 1 ≤ 1 ∧ 3 < 2 ^ (3 - 1) := by decide

theorem witness_BitReversalIsAnInvolution : 7 < 2 ^ 3 ∧ 2 < 3 := by decide

end Sys2Proof.Tests
end

section
/-! SUPPORT. What CAP, TVALID and PVALID read, bit by bit. -/

namespace Sys2Proof.Machine

/-- A sum of distinct powers of 2 below 2^n is below 2^n, and has exactly the bits that were chosen. -/
theorem testBit_sum_bits (f : Nat → Bool) (n : Nat) :
    ((List.range n).map fun i => (f i).toNat * 2 ^ i).sum < 2 ^ n ∧
    ∀ k, (((List.range n).map fun i => (f i).toNat * 2 ^ i).sum).testBit k = (decide (k < n) && f k) := by
  induction n with
  | zero => simp
  | succ n ih =>
    obtain ⟨hlt, hbit⟩ := ih
    rw [List.range_succ, List.map_append, List.sum_append]
    generalize ((List.range n).map fun i => (f i).toNat * 2 ^ i).sum = low at hlt hbit
    have hsum : low + ([n].map fun i => (f i).toNat * 2 ^ i).sum = 2 ^ n * (f n).toNat + low := by
      simp [Nat.mul_comm, Nat.add_comm]
    rw [hsum]
    refine ⟨?_, fun k => ?_⟩
    · cases f n <;> simp [Nat.pow_succ] <;> omega
    · rw [Nat.testBit_two_pow_mul_add _ hlt, Nat.testBit_bool_toNat, hbit]
      by_cases hk : k < n
      · simp [hk, Nat.lt_succ_of_lt hk]
      · by_cases hkn : k = n
        · simp [hkn]
        · have hgt : ¬ k < n + 1 := by omega
          have hne : k - n ≠ 0 := by omega
          simp [hk, hgt, hne]

theorem mmax_ge : 18 ≤ Config.mmax := Nat.le_add_left _ _

theorem mmax_le : Config.mmax ≤ 30 := by
  have := Config.mmaxAbove18.isLt
  unfold Config.mmax
  omega

/-- Bit m of TVALID or PVALID: magnitude m is within MMAX and its table is held (spec/10_state.md R25, R26). -/
theorem getLsbD_validBits {α : Type} (tables : List (Nat × α)) (m : Nat) :
    (validBits tables).getLsbD m = true ↔ m ≤ Config.mmax ∧ (findKey tables m).isSome = true := by
  have hmax := mmax_le
  obtain ⟨-, hbit⟩ := testBit_sum_bits (fun m => decide (m ≤ Config.mmax) && (findKey tables m).isSome) 31
  unfold validBits
  rw [BitVec.getLsbD_ofNat, hbit]
  simp only [Bool.and_eq_true, decide_eq_true_eq]
  exact ⟨fun ⟨_, _, h⟩ => h, fun h => ⟨by omega, by omega, h⟩⟩

/-- The word CAP reads as has the fields of spec/10_state.md R17, for each of the 13 legal values of MMAX. -/
theorem capWord_fields :
    (capWord.extractLsb' 0 5).toNat = Config.mmax ∧ capWord.getLsbD 5 = true ∧ capWord.getLsbD 6 = true ∧
    capWord.getLsbD 7 = true ∧ (capWord.extractLsb' 8 8).toNat = 0x01 ∧ (capWord.extractLsb' 16 16).toNat = 0 := by
  unfold capWord Config.mmax
  generalize Config.mmaxAbove18 = k
  revert k
  decide

/-- A read of a register that is never drawn answers the register's word, in either phase (spec/10_state.md R29 (d)). -/
theorem hostStep_readReg {s : State} {off : Nat} (ha : regAdmitted 4 off = true)
    (hd : (regAt off).drawsWhileBusy = false) :
    hostStep (.readReg 4 off) s = .next { s with reply := some ((s.readReg (regAt off)).setWidth 64) } := by
  rw [hostStep_admitted (x := .readReg 4 off) ha]
  simp only [State.access, hd, Bool.and_false]
  rfl

/-- A write to a register that is never dropped writes the register, in either phase (spec/10_state.md R29). -/
theorem hostStep_writeReg {s : State} {off : Nat} {v : Dword} (ha : regAdmitted 4 off = true)
    (hd : (regAt off).dropsWhileBusy = false) :
    hostStep (.writeReg 4 off v) s = .next (s.noAnswer.writeReg (v.setWidth 32) (regAt off)) := by
  rw [hostStep_admitted (x := .writeReg 4 off v) ha]
  simp only [State.access, hd, Bool.and_false]
  rfl

/-- Settles O14: CAP by its value at each legal MMAX, TVALID and PVALID bit by bit, and the accesses in either phase. -/
theorem capAndTableBitsReportTheInstance : Obligations.CapAndTableBitsReportTheInstance := by
  unfold Obligations.CapAndTableBitsReportTheInstance
  refine ⟨mmax_ge, mmax_le, fun s => ⟨capWord, s.tvalidWord, s.pvalidWord, hostStep_readReg rfl rfl, ?_⟩⟩
  obtain ⟨hmmax, h5, h6, h7, hrev, htop⟩ := capWord_fields
  exact ⟨hmmax, h5, h6, h7, hrev, htop, fun _ => hostStep_writeReg rfl rfl, hostStep_readReg rfl rfl,
    hostStep_readReg rfl rfl, fun m => ⟨getLsbD_validBits s.tt m, getLsbD_validBits s.pt m⟩⟩

end Sys2Proof.Machine
end

section
/-! SUPPORT. What rounding does: roundEven is a nearest whole number, roundMag encodes the nearest value of the format, and so
a packed roundMag meets RoundsTo (spec/42_complex_multiplier.md R108, R109). -/

namespace Sys2Proof.Machine

/-! Rounding to a whole number. -/

/-- n is q · 2^d with remainder r; roundEven goes down to q or up to q + 1, to the nearer, or from the middle to the even. -/
theorem roundEven_cases (n d : Nat) : ∃ q r, n = q * 2 ^ d + r ∧ r < 2 ^ d ∧
    ((roundEven n d = q ∧ 2 * r ≤ 2 ^ d ∧ (2 * r = 2 ^ d → q % 2 = 0)) ∨
      (roundEven n d = q + 1 ∧ 2 ^ d ≤ 2 * r ∧ (2 * r = 2 ^ d → q % 2 = 1))) := by
  refine ⟨n / 2 ^ d, n % 2 ^ d, (Nat.div_add_mod' n (2 ^ d)).symm, Nat.mod_lt _ (Nat.two_pow_pos d), ?_⟩
  unfold roundEven
  dsimp only
  split
  · exact .inr ⟨rfl, by omega, by omega⟩
  · exact .inl ⟨rfl, by omega, by omega⟩

/-- Where a whole number k lies about q, with its multiple of D. -/
theorem multiple_cases (k : Int) (q D : Nat) :
    (k < q ∧ k * D ≤ q * D - D) ∨ (k = q ∧ k * D = q * D) ∨ (k = q + 1 ∧ k * D = q * D + D) ∨
      (q + 1 < k ∧ q * D + 2 * D ≤ k * D) := by
  have hD : (0 : Int) ≤ D := Int.natCast_nonneg D
  rcases lt_or_ge k q with h | h
  · exact .inl ⟨h, by nlinarith⟩
  · obtain rfl | rfl | h' : k = q ∨ k = q + 1 ∨ (q : Int) + 1 < k := by omega
    · exact .inr (.inl ⟨rfl, rfl⟩)
    · exact .inr (.inr (.inl ⟨rfl, by ring⟩))
    · exact .inr (.inr (.inr ⟨h', by nlinarith⟩))

/-- roundEven is a nearest whole number to n / 2^d, and the even one where another is as near. -/
theorem roundEven_nearest (n d : Nat) (k : Int) :
    ((roundEven n d : Int) * 2 ^ d - n).natAbs ≤ (k * 2 ^ d - n).natAbs ∧
    (((roundEven n d : Int) * 2 ^ d - n).natAbs = (k * 2 ^ d - n).natAbs →
      k ≠ roundEven n d → roundEven n d % 2 = 0) := by
  obtain ⟨q, r, hn, hr, hround⟩ := roundEven_cases n d
  have hk := multiple_cases k q (2 ^ d)
  rw [show (2 : Int) ^ d = (2 ^ d : Nat) by norm_cast]
  generalize 2 ^ d = D at *
  zify at hn
  rcases hround with ⟨hdown, hhalf, heven⟩ | ⟨hup, hhalf, hodd⟩
  · rw [hdown]
    omega
  · rw [hup, Nat.cast_add, Nat.cast_one, Int.add_mul, Int.one_mul]
    omega

/-- roundEven of a whole number is that number. -/
theorem roundEven_of_dvd {n d : Nat} (h : 2 ^ d ∣ n) : roundEven n d * 2 ^ d = n := by
  have hd := Nat.two_pow_pos d
  simp [roundEven, Nat.mod_eq_zero_of_dvd h, hd.ne, Nat.div_mul_cancel h]

/-- A fraction with a common factor 2^k rounds as the reduced one. -/
theorem roundEven_mul_two_pow (n d k : Nat) : roundEven (n * 2 ^ k) (d + k) = roundEven n d := by
  have hk := Nat.two_pow_pos k
  unfold roundEven
  dsimp only
  rw [Nat.pow_add, Nat.mul_div_mul_right _ _ hk, Nat.mul_mod_mul_right, ← Nat.mul_assoc]
  simp only [Nat.mul_lt_mul_right hk, Nat.mul_left_inj hk.ne']

/-- Rounding does not pass a whole number that bounds the fraction from below. -/
theorem le_roundEven {n d k : Nat} (h : k * 2 ^ d ≤ n) : k ≤ roundEven n d := by
  obtain ⟨q, r, hn, hr, hround⟩ := roundEven_cases n d
  have hkq : k < q + 1 := Nat.lt_of_mul_lt_mul_right (a := 2 ^ d) (by rw [Nat.add_mul]; omega)
  omega

/-- A fraction below k + 1/2 rounds to at most k. -/
theorem roundEven_le_of_lt_half {n d k : Nat} (h : 2 * n < (2 * k + 1) * 2 ^ d) : roundEven n d ≤ k := by
  obtain ⟨q, r, hn, hr, hround⟩ := roundEven_cases n d
  rw [Nat.add_mul, Nat.mul_assoc] at h
  have hqk : q < k + 1 := Nat.lt_of_mul_lt_mul_right (a := 2 ^ d) (by rw [Nat.add_mul]; omega)
  rcases Nat.eq_or_lt_of_le (Nat.le_of_lt_succ hqk) with rfl | hlt
  · omega
  · omega

/-- A fraction of at least k + 1/2, with k odd, rounds to more than k. -/
theorem lt_roundEven_of_half_le {n d k : Nat} (hk : k % 2 = 1) (h : (2 * k + 1) * 2 ^ d ≤ 2 * n) :
    k < roundEven n d := by
  obtain ⟨q, r, hn, hr, hround⟩ := roundEven_cases n d
  rw [Nat.add_mul, Nat.mul_assoc] at h
  have hkq : k < q + 1 := Nat.lt_of_mul_lt_mul_right (a := 2 ^ d) (by rw [Nat.add_mul]; omega)
  rcases Nat.eq_or_lt_of_le (Nat.le_of_lt_succ hkq) with rfl | hlt
  · omega
  · omega

/-! The bits rounded away. -/

theorem bitLength_le {n k : Nat} : bitLength n ≤ k ↔ n < 2 ^ k := by
  unfold bitLength
  split
  · simp_all
  · rename_i h
    exact Nat.log2_lt h

/-- How many low bits of n roundMag rounds away. -/
def roundDrop (P : Prec) (n s : Nat) : Nat := max s (bitLength n - (fpFrac P + 1))

/-- The encoding of n · 2^-s quanta rounded, before it is cut at the infinity's. -/
def roundEnc (P : Prec) (n s : Nat) : Nat :=
  (roundDrop P n s - s) * 2 ^ fpFrac P + roundEven n (roundDrop P n s)

theorem roundMag_eq (P : Prec) (n s : Nat) : roundMag P n s = min (roundEnc P n s) (fpInfMag P) := rfl

theorem le_roundDrop (P : Prec) (n s : Nat) : s ≤ roundDrop P n s := Nat.le_max_left _ _

/-- At most fpFrac P + 1 significant bits are left. -/
theorem lt_of_roundDrop (P : Prec) (n s : Nat) : n < 2 ^ (roundDrop P n s + (fpFrac P + 1)) := by
  have : bitLength n - (fpFrac P + 1) ≤ roundDrop P n s := Nat.le_max_right _ _
  exact bitLength_le.1 (by omega)

/-- No more is rounded away than leaves fpFrac P + 1 significant bits, beyond what lies below the quantum. -/
theorem roundDrop_le {P : Prec} {n s k : Nat} (hs : s ≤ k) (h : n < 2 ^ (k + (fpFrac P + 1))) : roundDrop P n s ≤ k :=
  Nat.max_le.2 ⟨hs, by have := bitLength_le.2 h; omega⟩

/-- Where bits of the quantum and above are rounded away, fpFrac P + 1 significant bits are left. -/
theorem le_of_lt_roundDrop {P : Prec} {n s : Nat} (h : s < roundDrop P n s) : 2 ^ (roundDrop P n s + fpFrac P) ≤ n := by
  by_contra hlt
  have : roundDrop P n s ≤ roundDrop P n s - 1 :=
    roundDrop_le (by omega) (by rw [show roundDrop P n s - 1 + (fpFrac P + 1) = roundDrop P n s + fpFrac P by omega]; omega)
  omega

/-- A common factor 2^k of n and 2^s changes nothing. -/
theorem roundMag_mul_two_pow (P : Prec) (n s k : Nat) : roundMag P (n * 2 ^ k) (s + k) = roundMag P n s := by
  have hd : roundDrop P (n * 2 ^ k) (s + k) = roundDrop P n s + k := by
    apply Nat.le_antisymm
    · have := lt_of_roundDrop P n s
      exact roundDrop_le (Nat.add_le_add_right (le_roundDrop P n s) k) (by
        rw [Nat.add_right_comm, Nat.pow_add]; gcongr)
    · have hle := le_roundDrop P (n * 2 ^ k) (s + k)
      have hlt := lt_of_roundDrop P (n * 2 ^ k) (s + k)
      have : roundDrop P n s ≤ roundDrop P (n * 2 ^ k) (s + k) - k :=
        roundDrop_le (by omega) (Nat.lt_of_mul_lt_mul_right (a := 2 ^ k) (by
          rw [← Nat.pow_add]
          rwa [show roundDrop P (n * 2 ^ k) (s + k) - k + (fpFrac P + 1) + k
            = roundDrop P (n * 2 ^ k) (s + k) + (fpFrac P + 1) by omega]))
      omega
  rw [roundMag_eq, roundMag_eq, roundEnc, roundEnc, hd, roundEven_mul_two_pow, Nat.add_sub_add_right]

/-! The value of exponent and fraction bits. -/

/-- Exponent field 0: the fraction is the value. -/
theorem fpMagQuanta_subnormal (P : Prec) {g : Nat} (h : g < 2 ^ fpFrac P) : fpMagQuanta P g = g := by
  simp [fpMagQuanta, Nat.div_eq_of_lt h, Nat.mod_eq_of_lt h]

/-- Exponent field e + 1: the fraction with the leading 1, scaled. -/
theorem fpMagQuanta_normal (P : Prec) (e : Nat) {g : Nat} (h : g < 2 ^ fpFrac P) :
    fpMagQuanta P ((e + 1) * 2 ^ fpFrac P + g) = (2 ^ fpFrac P + g) * 2 ^ e := by
  have hF := Nat.two_pow_pos (fpFrac P)
  have hdiv : ((e + 1) * 2 ^ fpFrac P + g) / 2 ^ fpFrac P = e + 1 := by
    rw [Nat.mul_comm, Nat.mul_add_div hF, Nat.div_eq_of_lt h, Nat.add_zero]
  simp [fpMagQuanta, hdiv, Nat.mod_eq_of_lt h]

/-- Every magnitude has exponent field 0 or a successor. -/
theorem subnormal_or_normal (P : Prec) (mag : Nat) :
    mag < 2 ^ fpFrac P ∨ ∃ e g, g < 2 ^ fpFrac P ∧ mag = (e + 1) * 2 ^ fpFrac P + g := by
  have hF := Nat.two_pow_pos (fpFrac P)
  rcases Nat.lt_or_ge mag (2 ^ fpFrac P) with h | h
  · exact .inl h
  · refine .inr ⟨mag / 2 ^ fpFrac P - 1, mag % 2 ^ fpFrac P, Nat.mod_lt _ hF, ?_⟩
    have hpos := Nat.div_pos h hF
    rw [Nat.sub_add_cancel hpos, Nat.div_add_mod']

/-- The value of exponent a and significand q: for a subnormal, a normal, and a significand carried to the next power of 2. -/
theorem fpMagQuanta_encode (P : Prec) {a q : Nat} (hlow : 0 < a → 2 ^ fpFrac P ≤ q) (hhigh : q ≤ 2 ^ (fpFrac P + 1)) :
    fpMagQuanta P (a * 2 ^ fpFrac P + q) = q * 2 ^ a := by
  rw [Nat.pow_succ] at hhigh
  have hF := Nat.two_pow_pos (fpFrac P)
  rcases Nat.lt_or_ge q (2 ^ fpFrac P) with hsub | hnorm
  · have ha : a = 0 := by omega
    subst ha
    simp [fpMagQuanta_subnormal P hsub]
  · rcases Nat.eq_or_lt_of_le hhigh with hcarry | hlt
    · have h := fpMagQuanta_normal P (a + 1) hF
      rw [Nat.add_zero, Nat.add_zero] at h
      rw [hcarry, show a * 2 ^ fpFrac P + 2 ^ fpFrac P * 2 = (a + 1 + 1) * 2 ^ fpFrac P by ring, h]
      ring
    · have h := fpMagQuanta_normal P a (g := q - 2 ^ fpFrac P) (by omega)
      rw [Nat.add_sub_cancel' hnorm] at h
      rw [← h, Nat.add_mul, Nat.one_mul, Nat.add_assoc, Nat.add_sub_cancel' hnorm]

/-- A value with more than t + fpFrac P bits is a multiple of 2^t: it has no more than fpFrac P + 1 significant bits. -/
theorem two_pow_dvd_fpMagQuanta (P : Prec) {mag t : Nat} (h : 2 ^ (t + fpFrac P) ≤ fpMagQuanta P mag) :
    2 ^ t ∣ fpMagQuanta P mag := by
  rcases subnormal_or_normal P mag with hsub | ⟨e, g, hg, rfl⟩
  · rw [fpMagQuanta_subnormal P hsub] at h
    have : 2 ^ fpFrac P ≤ 2 ^ (t + fpFrac P) := Nat.pow_le_pow_right (by omega) (by omega)
    omega
  · rw [fpMagQuanta_normal P e hg] at h ⊢
    have hlt : (2 ^ fpFrac P + g) * 2 ^ e < 2 ^ (fpFrac P + 1 + e) := by
      rw [Nat.pow_add]
      exact Nat.mul_lt_mul_of_pos_right (by rw [Nat.pow_succ]; omega) (Nat.two_pow_pos e)
    have := (Nat.pow_lt_pow_iff_right (by omega : 1 < 2)).1 (Nat.lt_of_le_of_lt h hlt)
    exact Nat.dvd_mul_left_of_dvd (Nat.pow_dvd_pow 2 (by omega)) _

/-- The significand that is left, carried at most to the next power of 2. -/
theorem roundEven_roundDrop_le (P : Prec) (n s : Nat) : roundEven n (roundDrop P n s) ≤ 2 ^ (fpFrac P + 1) := by
  have h := lt_of_roundDrop P n s
  rw [Nat.pow_add, Nat.mul_comm] at h
  exact roundEven_le_of_lt_half (by rw [Nat.add_mul, Nat.mul_assoc]; omega)

/-- The significand that is left is normal where bits of the quantum and above are rounded away. -/
theorem le_roundEven_roundDrop {P : Prec} {n s : Nat} (h : s < roundDrop P n s) :
    2 ^ fpFrac P ≤ roundEven n (roundDrop P n s) := by
  have hn := le_of_lt_roundDrop h
  rw [Nat.pow_add, Nat.mul_comm] at hn
  exact le_roundEven hn

/-- roundEnc encodes the rounded significand, scaled back. -/
theorem fpMagQuanta_roundEnc (P : Prec) (n s : Nat) :
    fpMagQuanta P (roundEnc P n s) * 2 ^ s = roundEven n (roundDrop P n s) * 2 ^ roundDrop P n s := by
  have hs := le_roundDrop P n s
  rw [roundEnc, fpMagQuanta_encode P (fun h => le_roundEven_roundDrop (by omega)) (roundEven_roundDrop_le P n s),
    Nat.mul_assoc, ← Nat.pow_add, Nat.sub_add_cancel hs]

/-! The overflow threshold. -/

/-- The exponent field has 4 values or more, so that the threshold's exponent is no cut-off subtraction. -/
theorem two_pow_fpExp (P : Prec) : 2 ^ fpExp P = 2 ^ fpExp P - 4 + 4 := by cases P <;> rfl

theorem fpInfMag_eq (P : Prec) : fpInfMag P = (2 ^ fpExp P - 4) * 2 ^ fpFrac P + 3 * 2 ^ fpFrac P := by
  rw [fpInfMag, ← Nat.add_mul, two_pow_fpExp P]
  rfl

/-- The threshold lies half a unit below the power of 2 that has the exponent of an infinity. -/
theorem overflowQuanta_add (P : Prec) (s : Nat) :
    2 ^ s * overflowQuanta P + 2 ^ (s + (2 ^ fpExp P - 4)) = 4 * (2 ^ fpFrac P * 2 ^ (s + (2 ^ fpExp P - 4))) := by
  have hF := Nat.two_pow_pos (fpFrac P)
  unfold overflowQuanta
  generalize 2 ^ fpExp P - 4 = c
  rw [Nat.pow_add 2 s c, Nat.pow_add 2 (fpFrac P) 2]
  obtain ⟨g, hg⟩ : ∃ g, 2 ^ fpFrac P * 2 ^ 2 = g + 1 := ⟨2 ^ fpFrac P * 2 ^ 2 - 1, by omega⟩
  calc 2 ^ s * ((2 ^ fpFrac P * 2 ^ 2 - 1) * 2 ^ c) + 2 ^ s * 2 ^ c = (g + 1) * (2 ^ s * 2 ^ c) := by
        rw [hg, Nat.add_sub_cancel]; ring
    _ = 4 * (2 ^ fpFrac P * (2 ^ s * 2 ^ c)) := by rw [← hg]; ring

/-- Below the threshold the rounded magnitude is finite. -/
theorem roundEnc_lt_fpInfMag {P : Prec} {n s : Nat} (h : n < 2 ^ s * overflowQuanta P) : roundEnc P n s < fpInfMag P := by
  have hT := overflowQuanta_add P s
  have hs := le_roundDrop P n s
  have hF := Nat.two_pow_pos (fpFrac P)
  rw [fpInfMag_eq]
  generalize 2 ^ fpExp P - 4 = c at *
  have hX := Nat.two_pow_pos (s + c)
  have hd : roundDrop P n s ≤ s + c + 1 := roundDrop_le (by omega) (by
    rw [show s + c + 1 + (fpFrac P + 1) = fpFrac P + (s + c) + 2 by omega, Nat.pow_add, Nat.pow_add]
    omega)
  rcases Nat.eq_or_lt_of_le hd with heq | hlt
  · have hq : roundEven n (roundDrop P n s) ≤ 2 * 2 ^ fpFrac P - 1 := roundEven_le_of_lt_half (by
      rw [heq, Nat.pow_succ, show 2 * (2 * 2 ^ fpFrac P - 1) + 1 = 4 * 2 ^ fpFrac P - 1 by omega, Nat.sub_mul]
      rw [Nat.mul_assoc 4, ← Nat.mul_assoc (2 ^ fpFrac P)]
      omega)
    rw [heq] at hq
    rw [roundEnc, heq, show s + c + 1 - s = c + 1 by omega, Nat.add_mul]
    omega
  · have hq := roundEven_roundDrop_le P n s
    have hc : (roundDrop P n s - s) * 2 ^ fpFrac P ≤ c * 2 ^ fpFrac P := Nat.mul_le_mul_right _ (by omega)
    rw [Nat.pow_succ] at hq
    rw [roundEnc]
    omega

/-- From the threshold on the rounded magnitude is an infinity's or above. -/
theorem fpInfMag_le_roundEnc {P : Prec} {n s : Nat} (h : 2 ^ s * overflowQuanta P ≤ n) : fpInfMag P ≤ roundEnc P n s := by
  have hT := overflowQuanta_add P s
  have hn := lt_of_roundDrop P n s
  have hF := Nat.two_pow_pos (fpFrac P)
  rw [fpInfMag_eq]
  generalize 2 ^ fpExp P - 4 = c at *
  have hFX : 2 ^ (s + c) ≤ 2 ^ fpFrac P * 2 ^ (s + c) := Nat.le_mul_of_pos_left _ hF
  have hX := Nat.two_pow_pos (s + c)
  have hd : s + c + 1 ≤ roundDrop P n s := by
    by_contra hlt
    have : 2 ^ (roundDrop P n s + (fpFrac P + 1)) ≤ 2 ^ (fpFrac P + (s + c) + 1) :=
      Nat.pow_le_pow_right (by omega) (by omega)
    rw [Nat.pow_succ 2 (fpFrac P + (s + c)), Nat.pow_add 2 (fpFrac P)] at this
    omega
  rcases Nat.eq_or_lt_of_le hd with heq | hlt
  · have hq : 2 * 2 ^ fpFrac P - 1 < roundEven n (roundDrop P n s) := lt_roundEven_of_half_le (by omega) (by
      rw [← heq, Nat.pow_succ, show 2 * (2 * 2 ^ fpFrac P - 1) + 1 = 4 * 2 ^ fpFrac P - 1 by omega, Nat.sub_mul]
      rw [Nat.mul_assoc 4, ← Nat.mul_assoc (2 ^ fpFrac P)]
      omega)
    rw [roundEnc, ← heq, show s + c + 1 - s = c + 1 by omega, Nat.add_mul]
    rw [← heq] at hq
    omega
  · have hq := le_roundEven_roundDrop (P := P) (n := n) (s := s) (by omega)
    have hc : (c + 2) * 2 ^ fpFrac P ≤ (roundDrop P n s - s) * 2 ^ fpFrac P := Nat.mul_le_mul_right _ (by omega)
    rw [Nat.add_mul] at hc
    rw [roundEnc]
    omega

/-! Rounding to the format. -/

/-- The value of roundEnc is nearest to n · 2^-s among the values of the format, and has an even significand where another
is as near: the values that are no multiples of 2^roundDrop lie below a multiple that does not exceed n. -/
theorem roundEnc_nearest (P : Prec) (n s : Nat) {v : Int} {mag : Nat} (hv : v.natAbs = fpMagQuanta P mag) :
    ((fpMagQuanta P (roundEnc P n s) : Int) * 2 ^ s - n).natAbs ≤ (v * 2 ^ s - n).natAbs ∧
    (((fpMagQuanta P (roundEnc P n s) : Int) * 2 ^ s - n).natAbs = (v * 2 ^ s - n).natAbs →
      v ≠ fpMagQuanta P (roundEnc P n s) → roundEven n (roundDrop P n s) % 2 = 0) := by
  have henc : (fpMagQuanta P (roundEnc P n s) : Int) * 2 ^ s =
      roundEven n (roundDrop P n s) * 2 ^ roundDrop P n s := by exact_mod_cast fpMagQuanta_roundEnc P n s
  have hs := le_roundDrop P n s
  have hpow : (2 : Int) ^ roundDrop P n s = 2 ^ (roundDrop P n s - s) * 2 ^ s := by
    rw [← pow_add, Nat.sub_add_cancel hs]
  by_cases hmul : (2 : Int) ^ (roundDrop P n s - s) ∣ v
  · obtain ⟨k, hk⟩ := hmul
    have hvk : v * 2 ^ s = k * 2 ^ roundDrop P n s := by rw [hpow, hk]; ring
    obtain ⟨hle, htie⟩ := roundEven_nearest n (roundDrop P n s) k
    rw [henc, hvk]
    refine ⟨hle, fun heq hne => htie heq fun hkq => hne ?_⟩
    rw [hkq, ← henc] at hvk
    exact mul_right_cancel₀ (by positivity) hvk
  · have hsmall : fpMagQuanta P mag < 2 ^ (roundDrop P n s - s + fpFrac P) := by
      by_contra hge
      have hdvd := two_pow_dvd_fpMagQuanta P (Nat.le_of_not_lt hge)
      rw [← hv] at hdvd
      exact hmul (Int.natCast_dvd.2 (by simpa using hdvd))
    have hn : 2 ^ fpFrac P * 2 ^ roundDrop P n s ≤ n := by
      rw [← Nat.pow_add, Nat.add_comm]
      refine le_of_lt_roundDrop (Nat.lt_of_le_of_ne hs fun heq => hmul ?_)
      rw [← heq, Nat.sub_self, pow_zero]
      exact one_dvd v
    have hbelow : v * 2 ^ s < 2 ^ fpFrac P * 2 ^ roundDrop P n s := by
      rw [hpow, ← mul_assoc, ← pow_add, Nat.add_comm (fpFrac P)]
      gcongr
      zify at hsmall
      omega
    obtain ⟨hle, -⟩ := roundEven_nearest n (roundDrop P n s) (2 ^ fpFrac P)
    rw [henc]
    zify at hn
    omega

/-- The encoding is even with its significand. -/
theorem roundEnc_even {P : Prec} {n s : Nat} (h : roundEven n (roundDrop P n s) % 2 = 0) : roundEnc P n s % 2 = 0 := by
  have hF : 2 ^ fpFrac P % 2 = 0 := by cases P <;> rfl
  simp [roundEnc, Nat.add_mod, Nat.mul_mod, hF, h]

/-- A number of quanta with the sign of a sign bit. -/
def signedBy (neg : Bool) (z : Int) : Int := if neg then -z else z

theorem fpSigned_eq_signedBy (P : Prec) (x : Dword) : fpSigned P x = signedBy (fpSign P x) (fpQuanta P x) := rfl

@[simp] theorem signedBy_signedBy (neg : Bool) (z : Int) : signedBy neg (signedBy neg z) = z := by
  cases neg <;> simp [signedBy]

@[simp] theorem natAbs_signedBy (neg : Bool) (z : Int) : (signedBy neg z).natAbs = z.natAbs := by
  cases neg <;> simp [signedBy]

/-- Giving both numbers the sign keeps their distance. -/
theorem natAbs_signedBy_mul_sub (neg : Bool) (z c n : Int) :
    (signedBy neg z * c - signedBy neg n).natAbs = (z * c - n).natAbs := by
  cases neg with
  | false => rfl
  | true =>
    rw [show signedBy true z * c - signedBy true n = -(z * c - n) by simp only [signedBy, if_true]; ring, Int.natAbs_neg]

theorem decide_signedBy_neg (neg : Bool) {n : Nat} (h : n ≠ 0) : decide (signedBy neg n < 0) = neg := by
  cases neg with
  | false => simp [signedBy]
  | true => simpa [signedBy] using Nat.pos_of_ne_zero h

/-- Below the threshold, a packed roundEnc is a nearest finite value, and even where another is as near. -/
theorem fpPack_roundEnc_nearest {P : Prec} {n s : Nat} (neg : Bool) (hfin : roundEnc P n s < fpInfMag P) (y : Dword) :
    let x := fpPack P neg (roundEnc P n s)
    (fpSigned P x * 2 ^ s - signedBy neg n).natAbs ≤ (fpSigned P y * 2 ^ s - signedBy neg n).natAbs ∧
    ((fpSigned P x * 2 ^ s - signedBy neg n).natAbs = (fpSigned P y * 2 ^ s - signedBy neg n).natAbs →
      fpSigned P x ≠ fpSigned P y → fpMag P x % 2 = 0) := by
  intro x
  have htop := hfin.trans (fpInfMag_lt_top P)
  have hmag : fpMag P x = roundEnc P n s := fpMag_fpPack P neg _ htop
  have hx : fpSigned P x = signedBy neg (fpMagQuanta P (roundEnc P n s)) := by
    rw [fpSigned_eq_signedBy, fpQuanta, hmag, fpSign_fpPack P neg _ htop]
  obtain ⟨v, hy⟩ : ∃ v, fpSigned P y = signedBy neg v := ⟨_, (signedBy_signedBy neg _).symm⟩
  have hv : v.natAbs = fpMagQuanta P (fpMag P y) := by
    rw [← natAbs_signedBy neg v, ← hy, fpSigned_eq_signedBy, natAbs_signedBy, fpQuanta, Int.natAbs_natCast]
  obtain ⟨hle, htie⟩ := roundEnc_nearest P n s hv
  rw [hx, hy, natAbs_signedBy_mul_sub, natAbs_signedBy_mul_sub, hmag]
  exact ⟨hle, fun heq hne => roundEnc_even (htie heq fun h => hne (by rw [h]))⟩

theorem overflowQuanta_pos (P : Prec) : 0 < overflowQuanta P := by cases P <;> decide +kernel

/-- Rounding once: a packed roundMag is the number n · 2^-s quanta, with the sign it is packed with, correctly rounded. -/
theorem roundsTo_fpPack_roundMag (P : Prec) (neg : Bool) (n s : Nat) :
    RoundsTo P (signedBy neg n) s (fpPack P neg (roundMag P n s)) := by
  refine ⟨fun h => ?_, ?_⟩
  · have hn : n ≠ 0 := by rintro rfl; cases neg <;> exact h rfl
    rw [fpSign_fpPack P neg _ (roundMag_lt_top P n s), decide_signedBy_neg neg hn]
  · rw [natAbs_signedBy, Int.natAbs_natCast]
    split
    case isTrue hlt =>
      have hfin := roundEnc_lt_fpInfMag hlt
      rw [roundMag_eq, Nat.min_eq_left hfin.le]
      refine ⟨?_, fun y _ => fpPack_roundEnc_nearest neg hfin y⟩
      rw [fpIsFinite, fpMag_fpPack P neg _ (hfin.trans (fpInfMag_lt_top P))]
      exact decide_eq_true hfin
    case isFalse hge =>
      have hle := Nat.le_of_not_lt hge
      have hn : n ≠ 0 := (Nat.lt_of_lt_of_le (Nat.mul_pos (Nat.two_pow_pos s) (overflowQuanta_pos P)) hle).ne'
      rw [roundMag_eq, Nat.min_eq_right (fpInfMag_le_roundEnc hle), decide_signedBy_neg neg hn]

/-! Scaling and narrowing. -/

theorem not_nan_of_finite {P : Prec} {x : Dword} (h : fpIsFinite P x = true) : fpIsNaN P x = false := by
  simp only [fpIsFinite, fpIsNaN, decide_eq_true_eq, decide_eq_false_iff_not] at *
  omega

theorem not_inf_of_finite {P : Prec} {x : Dword} (h : fpIsFinite P x = true) : fpIsInf P x = false := by
  simp only [fpIsFinite, fpIsInf, decide_eq_true_eq, beq_eq_false_iff_ne] at *
  omega

theorem not_nan_of_inf {P : Prec} {x : Dword} (h : fpIsInf P x = true) : fpIsNaN P x = false := by
  simp only [fpIsInf, fpIsNaN, beq_iff_eq, decide_eq_false_iff_not] at *
  omega

/-- A value with a nonzero number of quanta is no zero. -/
theorem not_zero_of_fpQuanta_pos {P : Prec} {x : Dword} (h : 0 < fpQuanta P x) : fpIsZero P x = false := by
  simp only [fpIsZero, beq_eq_false_iff_ne]
  intro hz
  rw [fpQuanta, hz, fpMagQuanta_subnormal P (Nat.two_pow_pos _)] at h
  exact absurd h (Nat.lt_irrefl 0)

/-- Finite values are multiplied exactly and rounded once. -/
theorem fmul_of_finite {P : Prec} {x y : Dword} (hx : fpIsFinite P x = true) (hy : fpIsFinite P y = true) :
    fmul P x y = fpPack P (fpSign P x ^^ fpSign P y) (roundMag P (fpQuanta P x * fpQuanta P y) (fpQuantum P)) := by
  simp [fmul, not_nan_of_finite hx, not_nan_of_finite hy, not_inf_of_finite hx, not_inf_of_finite hy]

/-- An infinity times a finite value that is no zero is an infinity. -/
theorem fmul_inf_of_finite {P : Prec} {x y : Dword} (hx : fpIsInf P x = true) (hy : fpIsFinite P y = true)
    (h0 : fpIsZero P y = false) : fmul P x y = fpPack P (fpSign P x ^^ fpSign P y) (fpInfMag P) := by
  simp [fmul, hx, not_nan_of_inf hx, not_nan_of_finite hy, not_inf_of_finite hy, h0]

/-- 1 is below the overflow threshold, scaled or not. -/
theorem two_pow_fpQuantum_lt (P : Prec) (m : Nat) : 2 ^ fpQuantum P < 2 ^ m * overflowQuanta P := by
  have h : 2 ^ fpQuantum P < overflowQuanta P := by cases P <;> decide +kernel
  exact Nat.lt_of_lt_of_le h (Nat.le_mul_of_pos_left _ (Nat.two_pow_pos m))

/-- 2^-m is a positive finite value, and exact for an m within the quantum's exponent. -/
theorem fpPow2Neg_spec (P : Prec) {m : Nat} (h : m ≤ fpQuantum P) :
    fpSign P (fpPow2Neg P m) = false ∧ fpIsFinite P (fpPow2Neg P m) = true ∧
    fpQuanta P (fpPow2Neg P m) = 2 ^ (fpQuantum P - m) := by
  have hfin := roundEnc_lt_fpInfMag (two_pow_fpQuantum_lt P m)
  have hmag : fpMag P (fpPow2Neg P m) = roundEnc P (2 ^ fpQuantum P) m := by
    rw [fpPow2Neg, fpMag_fpPack P _ _ (roundMag_lt_top _ _ _), roundMag_eq, Nat.min_eq_left hfin.le]
  refine ⟨fpSign_fpPack P _ _ (roundMag_lt_top _ _ _), ?_, ?_⟩
  · rw [fpIsFinite, hmag]
    exact decide_eq_true hfin
  · have hd : roundDrop P (2 ^ fpQuantum P) m ≤ fpQuantum P :=
      roundDrop_le h (Nat.pow_lt_pow_right (by omega) (by omega))
    have henc := fpMagQuanta_roundEnc P (2 ^ fpQuantum P) m
    rw [roundEven_of_dvd (Nat.pow_dvd_pow 2 hd)] at henc
    apply Nat.eq_of_mul_eq_mul_right (Nat.two_pow_pos m)
    rw [fpQuanta, hmag, henc, ← Nat.pow_add, Nat.sub_add_cancel h]

/-- scale_P of a finite value is its magnitude rounded at 2^-m, with its sign. -/
theorem fscale_of_finite {P : Prec} {x : Dword} {m : Nat} (hx : fpIsFinite P x = true) (h : m ≤ fpQuantum P) :
    fscale P x m = fpPack P (fpSign P x) (roundMag P (fpQuanta P x) m) := by
  obtain ⟨hsign, hfin, hq⟩ := fpPow2Neg_spec P h
  have hscale := roundMag_mul_two_pow P (fpQuanta P x) m (fpQuantum P - m)
  rw [Nat.add_sub_cancel' h] at hscale
  rw [fscale, fmul_of_finite hx hfin, hsign, hq, Bool.xor_false, hscale]

/-- scale_P keeps an infinity. -/
theorem fscale_of_inf {P : Prec} {x : Dword} {m : Nat} (hx : fpIsInf P x = true) (h : m ≤ fpQuantum P) :
    fscale P x m = fpPack P (fpSign P x) (fpInfMag P) := by
  obtain ⟨hsign, hfin, hq⟩ := fpPow2Neg_spec P h
  have hpos : 0 < fpQuanta P (fpPow2Neg P m) := hq ▸ Nat.two_pow_pos _
  rw [fscale, fmul_inf_of_finite hx hfin (not_zero_of_fpQuanta_pos hpos), hsign, Bool.xor_false]

/-- RN_32 of a finite binary64 value is its magnitude rounded to binary32, whose quantum is 2^925 times as large. -/
theorem fpRound_p32_of_finite {x : Dword} (h : fpIsFinite .p64 x = true) :
    fpRound .p32 x = fpPack .p32 (fpSign .p64 x) (roundMag .p32 (fpQuanta .p64 x) 925) := by
  simp [fpRound, not_nan_of_finite h, not_inf_of_finite h, fpQuantum]

/-- RN_32 keeps an infinity. -/
theorem fpRound_p32_of_inf {x : Dword} (h : fpIsInf .p64 x = true) :
    fpRound .p32 x = fpPack .p32 (fpSign .p64 x) (fpInfMag .p32) := by
  simp [fpRound, not_nan_of_inf h, h]

/-- Settles O53: each result is one packed roundMag, which is correctly rounded, or the packed infinity. -/
theorem scalingAndNarrowingAreCorrectlyRounded : Obligations.ScalingAndNarrowingAreCorrectlyRounded := by
  unfold Obligations.ScalingAndNarrowingAreCorrectlyRounded
  refine ⟨fun P x m hm => ?_, fun x => ⟨fun hx => ?_, fpRound_p32_of_inf⟩, fun x => rfl⟩
  · have hmq : m ≤ fpQuantum P := hm.trans (by cases P <;> decide)
    refine ⟨fun hx => ?_, fun hx => fscale_of_inf hx hmq⟩
    rw [fscale_of_finite hx hmq]
    exact ⟨roundsTo_fpPack_roundMag P _ _ m, fpSign_fpPack P _ _ (roundMag_lt_top P _ _)⟩
  · rw [fpRound_p32_of_finite hx]
    exact ⟨roundsTo_fpPack_roundMag .p32 _ _ 925, fpSign_fpPack .p32 _ _ (roundMag_lt_top .p32 _ _)⟩

end Sys2Proof.Machine
end

section
/-! SUPPORT. The register map: which offset is which register, and which offsets BUSY drops or answers with a draw. -/

namespace Sys2Proof.Machine

/-- The byte offset of a register (spec/10_state.md R16, R31); the reserved offsets have none of their own. -/
def Reg.offset : Reg → Nat
  | .cap => 0x000
  | .cmd => 0x004
  | .status => 0x008
  | .errcode => 0x00C
  | .base => 0x010
  | .len => 0x014
  | .idx => 0x018
  | .mag => 0x01C
  | .tvalid => 0x020
  | .pvalid => 0x024
  | .ien => 0x028
  | .operand .a im hi => 0x040 + 8 * im.toNat + 4 * hi.toNat
  | .operand .b im hi => 0x050 + 8 * im.toNat + 4 * hi.toNat
  | .operand .w im hi => 0x060 + 8 * im.toNat + 4 * hi.toNat
  | .operand .y0 im hi => 0x070 + 8 * im.toNat + 4 * hi.toNat
  | .operand .y1 im hi => 0x080 + 8 * im.toNat + 4 * hi.toNat
  | .reserved => 0x1000

/-- Above the operand registers every offset is reserved. -/
theorem regAt_reserved {off : Nat} (h : 0x090 ≤ off) : regAt off = .reserved := by
  obtain ⟨k, hk⟩ : ∃ k, off / 4 = k + 36 := ⟨off / 4 - 36, by omega⟩
  have hop : (k + 20) / 4 = k / 4 + 5 := by omega
  simp [regAt, hk, operandAt, hop]

/-- A register that is not reserved stands at its own offset alone. -/
theorem offset_regAt {off : Nat} (ha : off % 4 = 0) (hr : regAt off ≠ .reserved) : (regAt off).offset = off := by
  have low : ∀ off < 0x090, off % 4 = 0 → regAt off ≠ .reserved → (regAt off).offset = off := by decide
  exact low off (Nat.lt_of_not_le fun h => hr (regAt_reserved h)) ha hr

/-- The offsets whose writes are dropped while BUSY (spec/10_state.md R29 (a), (b)). -/
theorem dropsWhileBusy_regAt (off : Nat) (ha : off % 4 = 0) :
    (regAt off).dropsWhileBusy = true ↔ off = 0x004 ∨ (0x010 ≤ off ∧ off ≤ 0x018) ∨ (0x040 ≤ off ∧ off ≤ 0x06C) := by
  rcases Nat.lt_or_ge off 0x090 with h | h
  · revert ha; revert h; revert off
    decide
  · rw [regAt_reserved h]
    exact iff_of_false (by decide) (by omega)

/-- The offsets whose reads are draws while BUSY (spec/10_state.md R29 (c)). -/
theorem drawsWhileBusy_regAt (off : Nat) (ha : off % 4 = 0) :
    (regAt off).drawsWhileBusy = true ↔ 0x070 ≤ off ∧ off ≤ 0x08C := by
  rcases Nat.lt_or_ge off 0x090 with h | h
  · revert ha; revert h; revert off
    decide
  · rw [regAt_reserved h]
    exact iff_of_false (by decide) (by omega)

theorem regAdmitted_four {off : Nat} (ha : off % 4 = 0) (hoff : off ≤ 0xFFC) : regAdmitted 4 off = true := by
  simp only [regAdmitted, ha, beq_self_eq_true, Bool.true_and, decide_eq_true_eq]
  omega

theorem regAdmitted_iff (n off : Nat) : regAdmitted n off = true ↔ n = 4 ∧ off % 4 = 0 ∧ off ≤ 0xFFC := by
  simp only [regAdmitted, Bool.and_eq_true, beq_iff_eq, decide_eq_true_eq, and_assoc]
  omega

theorem bufAdmitted_iff (p : Params) (n a : Nat) :
    bufAdmitted p n a = true ↔ (n = 1 ∨ n = 2 ∨ n = 4 ∨ n = 8) ∧ a % n = 0 ∧ a + n ≤ p.bufBytes := by
  simp [bufAdmitted, and_assoc]

/-- The access rules as the model checks them are those of spec/10_state.md R29 and spec/20_memory.md R42. -/
theorem admitted_iff_allowed (x : HostAccess) : x.admitted = true ↔ x.allowed := by
  cases x with
  | readReg n off => exact regAdmitted_iff n off
  | writeReg n off v => exact regAdmitted_iff n off
  | readBuf n a => exact bufAdmitted_iff Config.params n a
  | writeBuf n a v => exact bufAdmitted_iff Config.params n a

end Sys2Proof.Machine
end

section
/-! SUPPORT. What a host access can do, and what a step can do, said once. -/

namespace Sys2Proof.Machine

theorem busy_eq_true {s : State} : s.busy = true ↔ s.lc ≠ none := by
  simp [State.busy, Option.isSome_iff_ne_none]

theorem busy_eq_false {s : State} : s.busy = false ↔ s.lc = none := by
  simp [State.busy]

/-- A STATUS write clears the bits it names, ERR together with ERRCODE (spec/10_state.md R19, R20). -/
theorem writeStatus_eq (s : State) (v : Word) :
    s.writeStatus v =
      { s with
        done := s.done && !v.getLsbD 1
        err := s.err && !v.getLsbD 2
        errcode := if v.getLsbD 2 then .none else s.errcode
        ovr := s.ovr && !v.getLsbD 3 } := by
  unfold State.writeStatus State.acknowledge
  cases v.getLsbD 1 <;> cases v.getLsbD 2 <;> cases v.getLsbD 3 <;> simp

/-- A STATUS write as the host makes it, with the value in the low word of its 64 bits. -/
theorem writeStatus_setWidth (s : State) (v : Dword) :
    s.writeStatus (v.setWidth 32) =
      { s with
        done := s.done && !v.getLsbD 1
        err := s.err && !v.getLsbD 2
        errcode := if v.getLsbD 2 then .none else s.errcode
        ovr := s.ovr && !v.getLsbD 3 } := by
  simp [writeStatus_eq]

/-- What an admitted host access can leave (spec/10_state.md R29, spec/20_memory.md R42, spec/40_commands.md R77). -/
inductive AccessCase (s : State) (x : HostAccess) (t : State) : Prop
  /-- A read, or a write that a read-only register or a reserved offset ignores. -/
  | answered (ht : t = { s with reply := t.reply })
  /-- BUSY drops the access or answers it with a draw. -/
  | overran (hbusy : s.lc ≠ none) (hx : x.overruns) (ht : t = { s with reply := t.reply, draws := t.draws, ovr := true })
  | rejected (v : Dword) (c : ErrCode) (hx : x = .writeReg 4 0x004 v) (hidle : s.lc = none)
      (hv : s.validate (v.setWidth 32) = .error c) (ht : t = s.noAnswer.reject c)
  | accepted (v : Dword) (m : Nat) (hx : x = .writeReg 4 0x004 v) (hidle : s.lc = none)
      (hv : s.validate (v.setWidth 32) = .ok m) (ht : t = s.noAnswer.accept (v.setWidth 32) m)
  | statusWritten (v : Dword) (hx : x = .writeReg 4 0x008 v) (ht : t = s.noAnswer.writeStatus (v.setWidth 32))
  | enablesWritten (ht : t = { s with reply := t.reply, doneIe := t.doneIe, errIe := t.errIe, ovrIe := t.ovrIe })
  | registerWritten (hidle : s.lc = none)
      (ht : t = { s with reply := none, base := t.base, len := t.len, idx := t.idx, a := t.a, b := t.b, w := t.w })
  | bufWritten (n a : Nat) (v : Dword) (hidle : s.lc = none) (ha : a + n ≤ Config.bufBytes)
      (ht : t = { s with reply := none, buf := memWrite s.buf a n v })

/-- A write that is not dropped, register by register. -/
theorem writeReg_case {s : State} {off : Nat} {v : Dword} (hoff : off % 4 = 0)
    (hd : (regAt off).dropsWhileBusy = true → s.lc = none) :
    AccessCase s (.writeReg 4 off v) (s.noAnswer.writeReg (v.setWidth 32) (regAt off)) := by
  have hat {r : Reg} (hr : regAt off = r) (hne : r ≠ .reserved) : off = r.offset := by
    subst hr
    exact (offset_regAt hoff hne).symm
  cases hr : regAt off with
  | cmd =>
    have hidle : s.lc = none := hd (by rw [hr]; rfl)
    have hx : HostAccess.writeReg 4 off v = .writeReg 4 0x004 v := by rw [hat hr nofun]; rfl
    have hbusy : s.noAnswer.busy = false := busy_eq_false.2 hidle
    simp only [State.writeReg, State.issue, hbusy]
    cases hv : s.noAnswer.validate (v.setWidth 32) with
    | error c => exact .rejected v c hx hidle hv rfl
    | ok m => exact .accepted v m hx hidle hv rfl
  | status => exact .statusWritten v (by rw [hat hr nofun]; rfl) rfl
  | ien => exact .enablesWritten rfl
  | base => exact .registerWritten (hd (by rw [hr]; rfl)) rfl
  | len => exact .registerWritten (hd (by rw [hr]; rfl)) rfl
  | idx => exact .registerWritten (hd (by rw [hr]; rfl)) rfl
  | operand q im hi =>
    cases q with
    | a => exact .registerWritten (hd (by rw [hr]; rfl)) rfl
    | b => exact .registerWritten (hd (by rw [hr]; rfl)) rfl
    | w => exact .registerWritten (hd (by rw [hr]; rfl)) rfl
    | y0 => exact .answered rfl
    | y1 => exact .answered rfl
  | cap => exact .answered rfl
  | errcode => exact .answered rfl
  | mag => exact .answered rfl
  | tvalid => exact .answered rfl
  | pvalid => exact .answered rfl
  | reserved => exact .answered rfl

/-- An admitted host access does one of the things that AccessCase lists. -/
theorem access_case {s : State} {x : HostAccess} (h : x.admitted = true) : AccessCase s x (s.access x) := by
  have hallowed := (admitted_iff_allowed x).1 h
  cases x with
  | readReg n off =>
    obtain ⟨rfl, hoff, -⟩ := hallowed
    simp only [State.access]
    split
    · rename_i hb
      obtain ⟨hbusy, hdraw⟩ := Bool.and_eq_true_iff.1 hb
      exact .overran (busy_eq_true.1 hbusy) ((drawsWhileBusy_regAt off hoff).1 hdraw) rfl
    · exact .answered rfl
  | writeReg n off v =>
    obtain ⟨rfl, hoff, -⟩ := hallowed
    simp only [State.access]
    split
    · rename_i hb
      obtain ⟨hbusy, hdrop⟩ := Bool.and_eq_true_iff.1 hb
      exact .overran (busy_eq_true.1 hbusy) ((dropsWhileBusy_regAt off hoff).1 hdrop) rfl
    · rename_i hb
      exact writeReg_case hoff fun hdrop => busy_eq_false.1 (by simpa [hdrop] using hb)
  | readBuf n a =>
    simp only [State.access]
    split
    · rename_i hbusy
      exact .overran (busy_eq_true.1 hbusy) trivial rfl
    · exact .answered rfl
  | writeBuf n a v =>
    obtain ⟨-, -, ha⟩ := hallowed
    simp only [State.access]
    split
    · rename_i hbusy
      exact .overran (busy_eq_true.1 hbusy) trivial rfl
    · rename_i hidle
      exact .bufWritten n a v (busy_eq_false.1 (by simpa using hidle)) ha rfl

/-- The state with its next input, if one is left, taken off the list. -/
def State.consumeInput (s : State) : State := { s with inputs := s.inputs.tail }

/-- What a step that answers a next state can be. -/
inductive StepCase (s t : State) : Prop
  /-- The ENGINE's turn while IDLE, or a bus access that reaches neither window. -/
  | skipped (ht : t = s.consumeInput)
  | engine (lc : Latched) (i : Instr) (hturn : s.engineNext) (hlc : s.lc = some lc) (hd : decode lc.word = .ok i)
      (he : exec i s.consumeInput = .next t)
  | host (x : HostAccess) (hx : s.nextAccess = some x) (hc : AccessCase s.consumeInput x t)
  | reset (hturn : s.resetNext) (ht : t = s.consumeInput.onReset)

/-- The ENGINE's turn: nothing while IDLE, else the command of the latched word. -/
theorem engineTurn_case {s t : State} (hturn : s.engineNext) (h : engineTurn s.consumeInput = .next t) : StepCase s t := by
  unfold engineTurn at h
  split at h
  · cases h
    exact .skipped rfl
  · rename_i lc hlc
    split at h
    · rename_i i hd
      exact .engine lc i hturn hlc hd h
    · cases h

/-- A step whose next input is a host access is that access's host step. -/
theorem step_of_nextAccess {s : State} {x : HostAccess} (h : s.nextAccess = some x) :
    step s = hostStep x s.consumeInput := by
  obtain ⟨y, rest, hin⟩ : ∃ y rest, s.inputs = y :: rest := by
    cases hin : s.inputs with
    | nil => simp [State.nextAccess, hin] at h
    | cons y rest => exact ⟨y, rest, rfl⟩
  have hc : s.consumeInput = { s with inputs := rest } := by simp [State.consumeInput, hin]
  rw [step_cons hin, hc]
  cases y with
  | host y =>
    obtain rfl : y = x := by simpa [State.nextAccess, hin] using h
    rfl
  | bus y =>
    have hy : y.resolve = some x := by simpa [State.nextAccess, hin] using h
    simp only [performInput, hy]
  | engine => simp [State.nextAccess, hin] at h
  | reset => simp [State.nextAccess, hin] at h

/-- Every step that answers a next state is one of those that StepCase lists. -/
theorem step_case {s t : State} (h : step s = .next t) : StepCase s t := by
  cases hx : s.nextAccess with
  | some x =>
    obtain ⟨hadm, rfl⟩ := hostStep_next ((step_of_nextAccess hx).symm.trans h)
    exact .host x hx (access_case hadm)
  | none =>
    cases hin : s.inputs with
    | nil =>
      have hc : s.consumeInput = s := by
        rw [State.consumeInput, hin, List.tail_nil, ← hin]
      exact engineTurn_case (.inl hin) (by rw [hc, ← step_nil hin, h])
    | cons y rest =>
      have hc : s.consumeInput = { s with inputs := rest } := by simp [State.consumeInput, hin]
      rw [step_cons hin, ← hc] at h
      cases y with
      | host y => simp [State.nextAccess, hin] at hx
      | bus y =>
        have hy : y.resolve = none := by simpa [State.nextAccess, hin] using hx
        simp only [performInput, hy] at h
        cases h
        exact .skipped rfl
      | engine => exact engineTurn_case (.inr ⟨rest, hin⟩) h
      | reset =>
        cases h
        exact .reset ⟨rest, hin⟩ rfl

end Sys2Proof.Machine
end

section
/-! SUPPORT. The rule of each command as one function of the latched command, and the frame of every command. -/

namespace Sys2Proof.Machine

/-- Exec(LC) without the completion that follows it (spec/40_commands.md R84, R87). -/
def execRule (i : Instr) (lc : Latched) (s : State) : State :=
  match i with
  | .nop => s
  | .fft F inv lut => fftPasses F inv lut lc s
  | .bitrev F lut => bitrevPass F lut lc s
  | .stage F lut j => stagePass F lut j lc s
  | .conj F => conjPass F lc s
  | .inorm F => inormPass F lc s
  | .twgen m => s.buildTT m
  | .ptgen m => s.buildPT m
  | .twread P lut m => twreadRule P lut m lc s
  | .cmul P => { s with y0 := operandOf P (cmul P (operandOf P lc.a) (operandOf P lc.b)) }
  | .bfly P =>
    { s with
      y0 := operandOf P (butterfly P (operandOf P lc.a) (operandOf P lc.b) (operandOf P lc.w)).1
      y1 := operandOf P (butterfly P (operandOf P lc.a) (operandOf P lc.b) (operandOf P lc.w)).2 }

theorem exec_eq_engineStep (i : Instr) (s : State) : exec i s = engineStep (execRule i) s := by
  cases i <;> rfl

/-- A latched command completes with what its rule leaves (spec/40_commands.md R84, R89). -/
theorem exec_latched {s : State} {lc : Latched} (i : Instr) (h : s.lc = some lc) :
    exec i s = .next (execRule i lc s).complete := by
  rw [exec_eq_engineStep, engineStep_latched h]

/-- TWREAD writes Y0, and in LUT mode builds TT[m]. -/
theorem twreadRule_eq (P : Prec) (lut : Bool) (m : Nat) (lc : Latched) (s : State) :
    twreadRule P lut m lc s =
      { s with
        tt := if lut then (s.buildTT m).tt else s.tt
        y0 := operandOf P (twiddleFactor P
          (twreadPair lut (if lut then (s.buildTT m).tt else s.tt) m lc.idx.toNat)) } := by
  unfold twreadRule
  cases lut with
  | false => rfl
  | true =>
    simp only [if_true]
    rw [buildTT_eq]

/-- No command's rule changes anything but Y0, Y1, the table caches and BUF (spec/40_commands.md R88). -/
theorem execRule_frame (i : Instr) (lc : Latched) (s : State) :
    execRule i lc s =
      { s with
        y0 := (execRule i lc s).y0
        y1 := (execRule i lc s).y1
        tt := (execRule i lc s).tt
        pt := (execRule i lc s).pt
        buf := (execRule i lc s).buf } := by
  cases i with
  | fft F inv lut => simp only [execRule]; rw [fftPasses_frame]
  | bitrev F lut => simp only [execRule]; rw [bitrevPass_eq]
  | stage F lut j => simp only [execRule]; rw [stagePass_eq]
  | twgen m => simp only [execRule]; rw [buildTT_eq]
  | ptgen m => simp only [execRule]; rw [buildPT_eq]
  | twread P lut m => simp only [execRule]; rw [twreadRule_eq]
  | nop => rfl
  | conj F => rfl
  | inorm F => rfl
  | cmul P => rfl
  | bfly P => rfl

/-- After an ENGINE step, a command was latched and completed, and all but Y0, Y1, the table caches and BUF is as before. -/
theorem exec_next {i : Instr} {s t : State} (h : exec i s = .next t) :
    ∃ lc, s.lc = some lc ∧ t = (execRule i lc s).complete ∧
      t = { s with lc := none, done := true, y0 := t.y0, y1 := t.y1, tt := t.tt, pt := t.pt, buf := t.buf } := by
  rw [exec_eq_engineStep] at h
  obtain ⟨lc, hlc, rfl⟩ := engineStep_next h
  refine ⟨lc, hlc, rfl, ?_⟩
  unfold State.complete
  rw [execRule_frame]

end Sys2Proof.Machine
end

section
/-! SUPPORT. What a command that passed validation keeps: BUF canonical and within its bounds, and the tables right. -/

namespace Sys2Proof.Machine

/-- BUF is in canonical form and no byte beyond its bounds is listed. -/
structure BufRight (b : Buf) : Prop where
  wf : Memory.wf b = true
  inside : BufInside b

/-- BUF and both table caches are right. -/
structure StoresRight (s : State) : Prop where
  buf : BufRight s.buf
  twiddles : TwiddleTablesRight s.tt
  swaps : SwapTablesRight s.pt

theorem BufRight.memWrite {b : Buf} {a n : Nat} (h : BufRight b) (v : Dword) (ha : a + n ≤ Config.bufBytes) :
    BufRight (memWrite b a n v) :=
  ⟨memWrite_wf _ _ _ _ h.wf, memWrite_cells_inside _ _ _ _ _ h.inside ha⟩

/-- The first n summands of bitRev leave room for the others below 2^m. -/
theorem bitRev_partial_lt {m n : Nat} (k : Nat) (h : n ≤ m) :
    ((List.range n).map fun b => k / 2 ^ b % 2 * 2 ^ (m - 1 - b)).sum + 2 ^ (m - n) ≤ 2 ^ m := by
  induction n with
  | zero => simp
  | succ n ih =>
    have hbit : k / 2 ^ n % 2 * 2 ^ (m - 1 - n) ≤ 1 * 2 ^ (m - 1 - n) :=
      Nat.mul_le_mul_right _ (Nat.le_of_lt_succ (Nat.mod_lt _ two_pos))
    have hhalf : 2 ^ (m - n) = 2 ^ (m - 1 - n) + 2 ^ (m - 1 - n) := by
      rw [show m - n = m - 1 - n + 1 by omega, Nat.pow_succ, Nat.mul_two]
    have hih := ih (by omega)
    rw [List.range_succ, List.map_append, List.sum_append, List.map_singleton, List.sum_singleton,
      show m - (n + 1) = m - 1 - n by omega]
    omega

theorem bitRev_lt (m k : Nat) : bitRev m k < 2 ^ m := by
  have h := bitRev_partial_lt k (Nat.le_refl m)
  rw [Nat.sub_self] at h
  exact h

/-- Both indices of a swap pair are below 2^m. -/
theorem swapPairs_lt {m : Nat} {e : Nat × Nat} (h : e ∈ swapPairs m) : e.1 < 2 ^ m ∧ e.2 < 2 ^ m := by
  unfold swapPairs at h
  obtain ⟨i, hi, rfl⟩ := List.mem_map.1 h
  exact ⟨List.mem_range.1 (List.mem_filter.1 hi).1, bitRev_lt m i⟩

section Region

variable {F : Format} {base m : Nat} {b : Buf} (hfit : base + 2 ^ m * elemSize F ≤ Config.bufBytes)

include hfit

/-- A store of an element of a region inside BUF. -/
theorem BufRight.storeElem {i : Nat} (h : BufRight b) (z : Cplx) (hi : i < 2 ^ m) : BufRight (storeElem F base i z b) :=
  ⟨storeElem_wf _ _ _ _ _ h.wf,
    storeElem_cells_inside _ _ _ _ _ _ h.inside ((elem_inside F base m i hi).2.trans hfit)⟩

theorem BufRight.mapElems (h : BufRight b) (f : Cplx → Cplx) : BufRight (mapElems F base (2 ^ m) f b) :=
  forRange_keeps BufRight _ _ _ h fun _ _ hi hy => hy.storeElem hfit _ hi

theorem BufRight.swapElems (h : BufRight b) : BufRight (swapElems F base (swapPairs m) b) :=
  swapElems_keeps BufRight F base _ b h fun _ he _ hy =>
    (hy.storeElem hfit _ (swapPairs_lt he).1).storeElem hfit _ (swapPairs_lt he).2

theorem BufRight.stageElems (h : BufRight b) (j : Nat) (tw : Nat → Cplx) : BufRight (stageElems F base m j tw b) :=
  stageElems_keeps BufRight F base m j tw b h fun o g y ho hg hy => by
    have hlt : o + g * 2 ^ j + 2 ^ j / 2 < 2 ^ m := stage_index_lt ho hg
    exact (hy.storeElem hfit _ (by omega)).storeElem hfit _ hlt

end Region

theorem StoresRight.buildTT {s : State} {m : Nat} (h : StoresRight s) (hm : m ≤ Config.mmax) : StoresRight (s.buildTT m) := by
  have htt := buildTT_right s m h.twiddles hm
  rw [buildTT_eq]
  exact ⟨h.buf, htt, h.swaps⟩

theorem StoresRight.buildPT {s : State} {m : Nat} (h : StoresRight s) (hm : m ≤ Config.mmax) : StoresRight (s.buildPT m) := by
  have hpt := buildPT_right s m h.swaps hm
  rw [buildPT_eq]
  exact ⟨h.buf, h.twiddles, hpt⟩

section Passes

variable {F : Format} {lc : Latched} {s : State} (hm : lc.m ≤ Config.mmax)
  (hfit : lc.base.toNat + 2 ^ lc.m * elemSize F ≤ Config.bufBytes)

include hfit

theorem StoresRight.conjPass (h : StoresRight s) : StoresRight (conjPass F lc s) :=
  ⟨h.buf.mapElems hfit _, h.twiddles, h.swaps⟩

theorem StoresRight.inormPass (h : StoresRight s) : StoresRight (inormPass F lc s) := by
  have hbuf := h.buf.mapElems hfit fun z => cnorm (formatPrec F) z lc.m
  exact ⟨hbuf, h.twiddles, h.swaps⟩

include hm

theorem StoresRight.bitrevPass (h : StoresRight s) (lut : Bool) : StoresRight (bitrevPass F lut lc s) := by
  have key {t : State} (ht : StoresRight t) :
      StoresRight { t with buf := swapElems F lc.base.toNat (bitrevPairs lut t.pt lc.m) t.buf } := by
    rw [bitrevPairs_right ht.swaps]
    exact ⟨ht.buf.swapElems hfit, ht.twiddles, ht.swaps⟩
  cases lut with
  | false => exact key h
  | true => exact key (h.buildPT hm)

theorem StoresRight.stagePass (h : StoresRight s) (lut : Bool) (j : Nat) : StoresRight (stagePass F lut j lc s) := by
  have key {t : State} (ht : StoresRight t) (tw : Nat → Cplx) :
      StoresRight { t with buf := stageElems F lc.base.toNat lc.m j tw t.buf } :=
    ⟨ht.buf.stageElems hfit j tw, ht.twiddles, ht.swaps⟩
  cases lut with
  | false => exact key h _
  | true => exact key (h.buildTT hm) _

theorem StoresRight.fftPasses (h : StoresRight s) (inv lut : Bool) : StoresRight (fftPasses F inv lut lc s) := by
  have stages {t : State} (ht : StoresRight t) :
      StoresRight (forRange lc.m (fun i u => Machine.stagePass F lut (i + 1) lc u) t) :=
    forRange_keeps StoresRight _ _ _ ht fun _ _ _ hu => hu.stagePass hm hfit lut _
  unfold Machine.fftPasses
  split
  · exact h
  · cases inv with
    | false => exact stages (h.bitrevPass hm hfit lut)
    | true => exact (stages ((h.conjPass hfit).bitrevPass hm hfit lut)).inormPass hfit

end Passes

/-- What validation has made sure of when a command runs: a buffer command's magnitude and region (spec/40_commands.md R80,
R81), the magnitude of a table or register command (R82). -/
structure OperandsFit (i : Instr) (lc : Latched) : Prop where
  mag : lc.m ≤ Config.mmax
  region : ∀ F, i.bufferFormat = some F → lc.base.toNat + 2 ^ lc.m * elemSize F ≤ Config.bufBytes
  arg : i.bufferFormat = none → i.arg ≤ Config.mmax

/-- Every command whose operands fit keeps BUF and the tables right. -/
theorem StoresRight.execRule {i : Instr} {lc : Latched} {s : State} (h : StoresRight s) (hfit : OperandsFit i lc) :
    StoresRight (execRule i lc s) := by
  cases i with
  | nop => exact h
  | fft F inv lut => exact h.fftPasses hfit.mag (hfit.region F rfl) inv lut
  | bitrev F lut => exact h.bitrevPass hfit.mag (hfit.region F rfl) lut
  | stage F lut j => exact h.stagePass hfit.mag (hfit.region F rfl) lut j
  | conj F => exact h.conjPass (hfit.region F rfl)
  | inorm F => exact h.inormPass (hfit.region F rfl)
  | twgen m => exact h.buildTT (hfit.arg rfl)
  | ptgen m => exact h.buildPT (hfit.arg rfl)
  | twread P lut m =>
    cases lut with
    | false => exact ⟨h.buf, h.twiddles, h.swaps⟩
    | true =>
      obtain ⟨hbuf, htt, hpt⟩ := h.buildTT (m := m) (hfit.arg rfl)
      exact ⟨hbuf, htt, hpt⟩
  | cmul P => exact ⟨h.buf, h.twiddles, h.swaps⟩
  | bfly P => exact ⟨h.buf, h.twiddles, h.swaps⟩

end Sys2Proof.Machine
end

section
/-! SUPPORT. What validation has made sure of when it accepts a word, and that it never rejects with the code 0. -/

namespace Sys2Proof.Machine

theorem checkLength_ok_le {p : Params} {L m : Nat} (h : checkLength p L = .ok m) : m ≤ p.mmax := by
  unfold checkLength at h
  split at h
  · cases h
  · split at h
    · cases h
    · split at h
      · cases h
      · cases h
        omega

theorem checkRegion_none_fits {p : Params} {F : Format} {base m : Nat} (h : checkRegion p F base m = none) :
    base + 2 ^ m * elemSize F ≤ p.bufBytes := by
  unfold checkRegion at h
  split at h
  · cases h
  · split at h
    · cases h
    · omega

/-- The argument check of a command without a buffer bounds its ARG (spec/40_commands.md R82). -/
theorem checkArg_none_arg_le {p : Params} {i : Instr} {m k : Nat} (hb : i.bufferFormat = none)
    (h : checkArg p i m k = none) : i.arg ≤ p.mmax := by
  cases i with
  | twgen n => simpa [checkArg, Instr.arg] using h
  | ptgen n => simpa [checkArg, Instr.arg] using h
  | twread P lut n =>
    simp only [checkArg] at h
    split at h
    · cases h
    · simp only [Instr.arg]
      omega
  | nop => exact Nat.zero_le _
  | cmul P => exact Nat.zero_le _
  | bfly P => exact Nat.zero_le _
  | fft F inv lut => cases hb
  | bitrev F lut => cases hb
  | stage F lut j => cases hb
  | conj F => cases hb
  | inorm F => cases hb

/-- A word that validation accepts is a command, with the magnitude and region checks of a buffer command passed or with
the argument check of another. -/
theorem validateWord_ok {p : Params} {base len idx w : Word} {m : Nat} (h : validateWord p base len idx w = .ok m) :
    ∃ i, decode w = .ok i ∧ m ≤ p.mmax ∧
      (∀ F, i.bufferFormat = some F → base.toNat + 2 ^ m * elemSize F ≤ p.bufBytes) ∧
      (i.bufferFormat = none → i.arg ≤ p.mmax) := by
  unfold validateWord at h
  split at h
  · cases h
  · rename_i i hd
    refine ⟨i, hd, ?_⟩
    split at h
    · rename_i F hF
      split at h
      · cases h
      · rename_i n hlen
        split at h
        · cases h
        · rename_i hreg
          split at h
          · cases h
          · cases h
            refine ⟨checkLength_ok_le hlen, fun F' hF' => ?_, by simp [hF]⟩
            obtain rfl : F = F' := by simpa [hF] using hF'
            exact checkRegion_none_fits hreg
    · rename_i hF
      split at h
      · cases h
      · rename_i harg
        cases h
        have hle := checkArg_none_arg_le hF harg
        exact ⟨hle, by simp [hF], fun _ => hle⟩

/-- The operands of a latched command that passed validation fit. -/
theorem operandsFit_of_latchValid {lc : Latched} {i : Instr} (h : LatchValid lc) (hd : decode lc.word = .ok i) :
    OperandsFit i lc := by
  obtain ⟨i', hd', hmag, hreg, harg⟩ := validateWord_ok h
  obtain rfl : i' = i := by simpa [hd] using hd'.symm
  exact ⟨hmag, hreg, harg⟩

theorem checkLength_error_ne_none {p : Params} {L : Nat} {c : ErrCode} (h : checkLength p L = .error c) : c ≠ .none := by
  unfold checkLength at h
  split at h
  · cases h; nofun
  · split at h
    · cases h; nofun
    · split at h
      · cases h; nofun
      · cases h

theorem checkRegion_some_ne_none {p : Params} {F : Format} {base m : Nat} {c : ErrCode}
    (h : checkRegion p F base m = some c) : c ≠ .none := by
  unfold checkRegion at h
  split at h
  · cases h; nofun
  · split at h
    · cases h; nofun
    · cases h

/-- The argument check has one code, ARG_RANGE, whatever the command (spec/40_commands.md R82). -/
theorem checkArg_some {p : Params} {i : Instr} {m k : Nat} {c : ErrCode} (h : checkArg p i m k = some c) :
    c = .argRange := by
  cases i <;> grind [checkArg]

/-- A rejection has a code of its own: validation never reports the code of no error (spec/60_exceptions.md R143, R144). -/
theorem validateWord_error_ne_none {p : Params} {base len idx w : Word} {c : ErrCode}
    (h : validateWord p base len idx w = .error c) : c ≠ .none := by
  have arg_ne {i : Instr} {m k : Nat} {c : ErrCode} (h : checkArg p i m k = some c) : c ≠ .none := by
    rw [checkArg_some h]
    nofun
  unfold validateWord at h
  split at h
  · rename_i e _
    cases h
    cases e <;> nofun
  · split at h
    · split at h
      · rename_i hlen
        cases h
        exact checkLength_error_ne_none hlen
      · split at h
        · rename_i hreg
          cases h
          exact checkRegion_some_ne_none hreg
        · split at h
          · rename_i harg
            cases h
            exact arg_ne harg
          · cases h
    · split at h
      · rename_i harg
        cases h
        exact arg_ne harg
      · cases h

end Sys2Proof.Machine
end

section
/-! SUPPORT. Every step keeps the invariant, and reset meets it. -/

namespace Sys2Proof.Machine

/-- The invariant does not speak of Y0, Y1, OVR, the enables, nor of the model's own fields. -/
theorem inv_of_eq_elsewhere {s t : State} (h : Inv s)
    (ht : t =
      { s with
        ovr := t.ovr
        doneIe := t.doneIe
        errIe := t.errIe
        ovrIe := t.ovrIe
        y0 := t.y0
        y1 := t.y1
        inputs := t.inputs
        reply := t.reply
        draws := t.draws }) : Inv t := by
  obtain ⟨hwf, hin, htt, hpt, hvalid, hcur, hmag, herr, hdone⟩ := h
  rw [ht]
  exact ⟨hwf, hin, htt, hpt, hvalid, hcur, hmag, herr, hdone⟩

theorem inv_consumeInput {s : State} (h : Inv s) : Inv s.consumeInput := inv_of_eq_elsewhere h rfl

/-- The state after reset meets the invariant, whatever BUF's free bytes and the model's own fields. -/
theorem inv_reset (epoch draws : Nat) (inputs : List Input) :
    Inv { State.reset with buf := ⟨[], epoch⟩, inputs := inputs, draws := draws } where
  bufWf := rfl
  bufInside := nofun
  twiddles := ⟨rfl, nofun⟩
  swaps := ⟨rfl, nofun⟩
  latchValid := nofun
  latchCurrent := nofun
  magLegal := Nat.zero_le _
  errRecorded := iff_of_true rfl rfl
  busyNotDone := fun _ => rfl

theorem inv_exec {s t : State} {lc : Latched} {i : Instr} (h : Inv s) (hlc : s.lc = some lc)
    (hd : decode lc.word = .ok i) (he : exec i s = .next t) : Inv t := by
  obtain ⟨lc', hlc', hrule, hframe⟩ := exec_next he
  obtain rfl : lc = lc' := by simpa [hlc] using hlc'
  have hstores : StoresRight t := by
    have hrun := StoresRight.execRule (i := i) (lc := lc) ⟨⟨h.bufWf, h.bufInside⟩, h.twiddles, h.swaps⟩
      (operandsFit_of_latchValid (h.latchValid lc hlc) hd)
    rw [hrule]
    exact ⟨hrun.buf, hrun.twiddles, hrun.swaps⟩
  obtain ⟨hbuf, htt, hpt⟩ := hstores
  rw [hframe]
  exact ⟨hbuf.wf, hbuf.inside, htt, hpt, nofun, nofun, h.magLegal, h.errRecorded, fun hb => absurd rfl hb⟩

theorem inv_reject {s : State} {w : Word} {c : ErrCode} (h : Inv s) (hidle : s.lc = none)
    (hv : s.validate w = .error c) : Inv (s.noAnswer.reject c) :=
  { h with
    latchValid := by simp [hidle]
    latchCurrent := by simp [hidle]
    errRecorded := iff_of_false nofun (validateWord_error_ne_none hv)
    busyNotDone := fun _ => rfl }

theorem inv_accept {s : State} {w : Word} {m : Nat} (h : Inv s) (hv : s.validate w = .ok m) :
    Inv (s.noAnswer.accept w m) := by
  obtain ⟨-, -, hm, -⟩ := validateWord_ok hv
  refine { h with latchValid := ?_, latchCurrent := ?_, magLegal := ?_, busyNotDone := fun _ => rfl }
  · rintro lc ⟨⟩
    exact hv
  · rintro lc ⟨⟩
    exact ⟨rfl, rfl, rfl, rfl, rfl, rfl, fun hb => if_pos hb⟩
  · rw [accept_mag]
    split
    · exact (Nat.mod_le m _).trans hm
    · exact h.magLegal

theorem inv_writeStatus {s : State} (h : Inv s) (v : Word) : Inv (s.noAnswer.writeStatus v) := by
  rw [writeStatus_eq]
  refine { h with errRecorded := ?_, busyNotDone := fun hb => ?_ }
  · cases hv : v.getLsbD 2 with
    | false => simpa [hv] using h.errRecorded
    | true => simp
  · simp [h.busyNotDone hb]

/-- Every admitted host access keeps the invariant. -/
theorem inv_access {s t : State} {x : HostAccess} (h : Inv s) (hc : AccessCase s x t) : Inv t := by
  cases hc with
  | answered ht => exact inv_of_eq_elsewhere h (by rw [ht])
  | overran _ _ ht => exact inv_of_eq_elsewhere h (by rw [ht])
  | rejected v c _ hidle hv ht => exact ht ▸ inv_reject h hidle hv
  | accepted v m _ _ hv ht => exact ht ▸ inv_accept h hv
  | statusWritten v _ ht => exact ht ▸ inv_writeStatus h _
  | enablesWritten ht => exact inv_of_eq_elsewhere h (by rw [ht])
  | registerWritten hidle ht =>
    rw [ht]
    exact { h with latchValid := by simp [hidle], latchCurrent := by simp [hidle] }
  | bufWritten n a v _ ha ht =>
    obtain ⟨hwf, hin⟩ := BufRight.memWrite ⟨h.bufWf, h.bufInside⟩ v ha
    rw [ht]
    exact { h with bufWf := hwf, bufInside := hin }

/-- Settles O42: by the cases of a step; the ENGINE's uses that the latched command passed validation. -/
theorem stepKeepsTheInvariant : Obligations.StepKeepsTheInvariant := by
  unfold Obligations.StepKeepsTheInvariant
  intro s t h hstep
  have h' := inv_consumeInput h
  cases step_case hstep with
  | skipped ht => exact ht ▸ h'
  | engine lc i _ hlc hd he => exact inv_exec h' hlc hd he
  | host x _ hc => exact inv_access h' hc
  | reset _ ht => exact ht ▸ inv_reset _ _ _

/-- Settles O43: reset is the case of an empty BUF, no input and no draw of inv_reset. -/
theorem resetStateMeetsTheInvariant : Obligations.ResetStateMeetsTheInvariant := inv_reset 0 0 []

end Sys2Proof.Machine
end

section
/-! SUPPORT. What a host access to a register does, register by register (spec/10_state.md R16 to R31). -/

namespace Sys2Proof.Machine

/-! Accesses that BUSY drops or answers with a draw. -/

theorem hostStep_writeReg_dropped {s : State} {off : Nat} {v : Dword} (ha : regAdmitted 4 off = true)
    (hb : s.lc ≠ none) (hd : (regAt off).dropsWhileBusy = true) :
    hostStep (.writeReg 4 off v) s = .next { s with reply := none, ovr := true } := by
  rw [hostStep_admitted (x := .writeReg 4 off v) ha]
  simp only [State.access, busy_eq_true.2 hb, hd, Bool.and_self]
  rfl

theorem hostStep_readReg_drawn {s : State} {off : Nat} (ha : regAdmitted 4 off = true)
    (hb : s.lc ≠ none) (hd : (regAt off).drawsWhileBusy = true) :
    hostStep (.readReg 4 off) s = .next
      { s with reply := some (lowBytes 4 (Config.readDraw s.draws)), draws := s.draws + 1, ovr := true } := by
  rw [hostStep_admitted (x := .readReg 4 off) ha]
  simp only [State.access, busy_eq_true.2 hb, hd, Bool.and_self]
  rfl

theorem hostStep_writeBuf_dropped {s : State} {n a : Nat} {v : Dword} (ha : (HostAccess.writeBuf n a v).allowed)
    (hb : s.lc ≠ none) : hostStep (.writeBuf n a v) s = .next { s with reply := none, ovr := true } := by
  rw [hostStep_admitted ((admitted_iff_allowed _).2 ha)]
  simp only [State.access, busy_eq_true.2 hb]
  rfl

theorem hostStep_readBuf_drawn {s : State} {n a : Nat} (ha : (HostAccess.readBuf n a).allowed) (hb : s.lc ≠ none) :
    hostStep (.readBuf n a) s = .next
      { s with reply := some (lowBytes n (Config.readDraw s.draws)), draws := s.draws + 1, ovr := true } := by
  rw [hostStep_admitted ((admitted_iff_allowed _).2 ha)]
  simp only [State.access, busy_eq_true.2 hb]
  rfl

/-- Settles O11: the four kinds of access, the offsets by the register map. -/
theorem busyPhaseDropsWritesAndDrawsReads : Obligations.BusyPhaseDropsWritesAndDrawsReads := by
  unfold Obligations.BusyPhaseDropsWritesAndDrawsReads
  intro s hb
  refine ⟨fun off v h4 hoff => ?_, fun n a v ha => hostStep_writeBuf_dropped ha hb, fun off h4 hlo hhi => ?_,
    fun n a ha => hostStep_readBuf_drawn ha hb⟩
  · exact hostStep_writeReg_dropped (regAdmitted_four h4 (by omega)) hb ((dropsWhileBusy_regAt off h4).2 hoff)
  · exact hostStep_readReg_drawn (regAdmitted_four h4 (by omega)) hb ((drawsWhileBusy_regAt off h4).2 ⟨hlo, hhi⟩)

/-! Reads. -/

/-- A read while IDLE answers the register's word, Y0 and Y1 included. -/
theorem hostStep_readReg_idle {s : State} {off : Nat} (ha : regAdmitted 4 off = true) (hidle : s.lc = none) :
    hostStep (.readReg 4 off) s = .next { s with reply := some ((s.readReg (regAt off)).setWidth 64) } := by
  rw [hostStep_admitted (x := .readReg 4 off) ha]
  simp only [State.access, busy_eq_false.2 hidle, Bool.false_and]
  rfl

/-- A read of a register whose word is known, in either phase where BUSY does not draw it. -/
theorem hostStep_readReg_word {s : State} {off : Nat} {u : Word} (ha : regAdmitted 4 off = true)
    (hd : (regAt off).drawsWhileBusy = false ∨ s.lc = none) (hu : s.readReg (regAt off) = u) :
    hostStep (.readReg 4 off) s = .next { s with reply := some (u.setWidth 64) } := by
  subst hu
  rcases hd with hd | hidle
  · exact hostStep_readReg ha hd
  · exact hostStep_readReg_idle ha hidle

/-- Settles O12: each listed offset is a register whose word is the listed one. -/
theorem registersReadTheirValues : Obligations.RegistersReadTheirValues := by
  unfold Obligations.RegistersReadTheirValues
  refine fun s => ⟨fun p hp => ?_, fun hidle p hp => ?_, fun p hp herr => ?_⟩
  · fin_cases hp <;> dsimp only <;> exact hostStep_readReg_word rfl (.inl rfl) rfl
  · fin_cases hp <;> dsimp only <;> exact hostStep_readReg_word rfl (.inr hidle) rfl
  · have hread : hostStep (.readReg 4 0x00C) s = .next { s with reply := some (s.errcodeWord.setWidth 64) } :=
      hostStep_readReg rfl rfl
    rw [hread, State.errcodeWord, herr]
    fin_cases hp <;> rfl

/-- A word made of four bits has those bits and no others. -/
theorem getLsbD_four_bits (b0 b1 b2 b3 : Bool) (k : Nat) :
    (BitVec.ofNat 32 (b0.toNat + 2 * b1.toNat + 4 * b2.toNat + 8 * b3.toNat)).getLsbD k =
      match k with
      | 0 => b0
      | 1 => b1
      | 2 => b2
      | 3 => b3
      | _ => false := by
  have hsum : b0.toNat + 2 * b1.toNat + 4 * b2.toNat + 8 * b3.toNat < 2 ^ 4 := by
    cases b0 <;> cases b1 <;> cases b2 <;> cases b3 <;> decide
  match k with
  | 0 => cases b0 <;> cases b1 <;> cases b2 <;> cases b3 <;> rfl
  | 1 => cases b0 <;> cases b1 <;> cases b2 <;> cases b3 <;> rfl
  | 2 => cases b0 <;> cases b1 <;> cases b2 <;> cases b3 <;> rfl
  | 3 => cases b0 <;> cases b1 <;> cases b2 <;> cases b3 <;> rfl
  | k + 4 =>
    rw [BitVec.getLsbD_ofNat, Nat.testBit_lt_two_pow (hsum.trans_le (Nat.pow_le_pow_right two_pos (by omega)))]
    simp

/-- Settles O13: STATUS and IEN are words of four bits, and IRQ is R36's formula over them. -/
theorem statusIenAndIrqAgree : Obligations.StatusIenAndIrqAgree := by
  unfold Obligations.StatusIenAndIrqAgree
  intro s
  have hst (k : Nat) : s.statusWord.getLsbD k = _ := getLsbD_four_bits s.busy s.done s.err s.ovr k
  have hie (k : Nat) : s.ienWord.getLsbD k = _ := getLsbD_four_bits s.doneIe s.errIe s.ovrIe false k
  refine ⟨s.statusWord, s.ienWord, hostStep_readReg rfl rfl, hostStep_readReg rfl rfl, hst 0, hst 1, hst 2, hst 3,
    fun k hk => ?_, hie 0, hie 1, hie 2, fun k hk => ?_, ?_⟩
  · obtain ⟨j, rfl⟩ := Nat.exists_eq_add_of_le' hk
    exact hst (j + 4)
  · obtain ⟨j, rfl⟩ := Nat.exists_eq_add_of_le' hk
    cases j with
    | zero => exact hie 3
    | succ j => exact hie (j + 4)
  · simp only [hst, hie, State.irq, Bool.or_eq_true, Bool.and_eq_true, or_assoc]

/-! Writes. -/

/-- Settles O17: what the two writes leave, whole. -/
theorem statusAndIenWritesTakeEffectInEitherPhase : Obligations.StatusAndIenWritesTakeEffectInEitherPhase := by
  unfold Obligations.StatusAndIenWritesTakeEffectInEitherPhase
  intro s v
  constructor
  · rw [hostStep_writeReg rfl rfl]
    exact congrArg _ (writeStatus_setWidth s.noAnswer v)
  · rw [hostStep_writeReg rfl rfl]
    simp [regAt, State.writeReg, State.writeIen, State.noAnswer]

/-- Besides the registers that BUSY protects, only STATUS and IEN take a write. -/
theorem writeReg_ignored (s : State) (v : Word) {r : Reg} (hd : r.dropsWhileBusy = false) (hs : r ≠ .status)
    (hi : r ≠ .ien) : s.writeReg v r = s := by
  cases r with
  | status => exact absurd rfl hs
  | ien => exact absurd rfl hi
  | operand q im hi =>
    cases q with
    | y0 => rfl
    | y1 => rfl
    | a => cases hd
    | b => cases hd
    | w => cases hd
  | cmd => cases hd
  | base => cases hd
  | len => cases hd
  | idx => cases hd
  | _ => rfl

/-- A write to a read-only register or a reserved offset is ignored, in either phase. -/
theorem hostStep_writeReg_ignored {s : State} {off : Nat} {v : Dword} (h4 : off % 4 = 0) (hoff : off ≤ 0xFFC)
    (hd : ¬ (off = 0x004 ∨ (0x010 ≤ off ∧ off ≤ 0x018) ∨ (0x040 ≤ off ∧ off ≤ 0x06C)))
    (hs : off ≠ 0x008) (hi : off ≠ 0x028) : hostStep (.writeReg 4 off v) s = .next { s with reply := none } := by
  have hat {r : Reg} (hne : r ≠ .reserved) (ho : off ≠ r.offset) : regAt off ≠ r := by
    rintro rfl
    exact ho (offset_regAt h4 hne).symm
  have hdrop : (regAt off).dropsWhileBusy = false := Bool.eq_false_iff.2 (mt (dropsWhileBusy_regAt off h4).1 hd)
  rw [hostStep_writeReg (regAdmitted_four h4 hoff) hdrop, writeReg_ignored _ _ hdrop (hat nofun hs) (hat nofun hi)]
  rfl

/-- The offsets between IEN and the operand registers are reserved. -/
theorem regAt_reserved_gap {off : Nat} (hlo : 0x02C ≤ off) (hhi : off ≤ 0x03C) : regAt off = .reserved := by
  interval_cases off <;> rfl

/-- Settles O15: both ranges are reserved, which reads 0, is no draw, and ignores writes. -/
theorem reservedOffsetsReadZeroAndIgnoreWrites : Obligations.ReservedOffsetsReadZeroAndIgnoreWrites := by
  unfold Obligations.ReservedOffsetsReadZeroAndIgnoreWrites
  intro s off v h4 hoff
  have hr : regAt off = .reserved := by
    rcases hoff with ⟨hlo, hhi⟩ | ⟨hlo, -⟩
    · exact regAt_reserved_gap hlo hhi
    · exact regAt_reserved hlo
  refine ⟨?_, hostStep_writeReg_ignored h4 (by omega) (by omega) (by omega) (by omega)⟩
  exact hostStep_readReg_word (u := 0) (regAdmitted_four h4 (by omega)) (.inl (by rw [hr]; rfl)) (by rw [hr]; rfl)

/-- A 64-bit half after one of its words is replaced. -/
theorem halfWord_setHalfWord (x : Dword) (hi hi' : Bool) (v : Word) :
    halfWord (setHalfWord x hi v) hi' = if hi' = hi then v else halfWord x hi' := by
  cases hi <;> cases hi'
  · exact BitVec.extractLsb'_append_eq_right
  · exact BitVec.extractLsb'_append_eq_left
  · exact BitVec.extractLsb'_append_eq_right
  · exact BitVec.extractLsb'_append_eq_left

/-- An operand register after one of its words is replaced. -/
theorem operandWord_setOperandWord (z : Cplx) (im hi im' hi' : Bool) (v : Word) :
    operandWord (setOperandWord z im hi v) im' hi' = if im' = im ∧ hi' = hi then v else operandWord z im' hi' := by
  cases im <;> cases im' <;> simp [operandWord, setOperandWord, halfWord_setHalfWord]

/-- The writable registers that BUSY protects: BASE, LEN, IDX and the words of A, B, W. -/
def Reg.writable (r : Reg) : Prop := r.dropsWhileBusy = true ∧ r ≠ .cmd

/-- A write to a writable register changes only the registers of its kind. -/
theorem writeReg_frame (s : State) (v : Word) {r : Reg} (h : r.writable) :
    s.writeReg v r =
      { s with
        base := (s.writeReg v r).base
        len := (s.writeReg v r).len
        idx := (s.writeReg v r).idx
        a := (s.writeReg v r).a
        b := (s.writeReg v r).b
        w := (s.writeReg v r).w } := by
  obtain ⟨hd, hc⟩ := h
  cases r with
  | cmd => exact absurd rfl hc
  | operand q im hi => cases q <;> rfl
  | base => rfl
  | len => rfl
  | idx => rfl
  | _ => cases hd

/-- The operand registers after a word of A, B or W is written. -/
theorem operandReg_writeReg (s : State) (v : Word) {q : OperandReg} (q' : OperandReg) {im hi : Bool}
    (h : (Reg.operand q im hi).dropsWhileBusy = true) :
    (s.writeReg v (.operand q im hi)).operandReg q' =
      if q' = q then setOperandWord (s.operandReg q) im hi v else s.operandReg q' := by
  cases q with
  | y0 => cases h
  | y1 => cases h
  | _ => cases q' <;> rfl

/-- What every register reads as after a writable register is written. -/
theorem readReg_writeReg (s : State) (v : Word) {r : Reg} (r' : Reg) (h : r.writable) :
    (s.writeReg v r).readReg r' = if r' = r then v else s.readReg r' := by
  obtain ⟨hd, hc⟩ := h
  cases r with
  | cmd => exact absurd rfl hc
  | base => cases r' <;> rfl
  | len => cases r' <;> rfl
  | idx => cases r' <;> rfl
  | operand q im hi =>
    cases r' with
    | operand q' im' hi' =>
      simp only [State.readReg, operandReg_writeReg s v q' hd]
      by_cases hq : q' = q
      · subst hq
        simp [operandWord_setOperandWord]
      · simp [hq]
    | _ => cases q <;> rfl
  | _ => cases hd

theorem readReg_noAnswer (s : State) (r : Reg) : s.noAnswer.readReg r = s.readReg r := by
  cases r with
  | operand q im hi => cases q <;> rfl
  | _ => rfl

/-- Settles O16: a writable register by what every register reads as after it; the others ignore the write. -/
theorem registerWritesChangeOnlyTheirRegister : Obligations.RegisterWritesChangeOnlyTheirRegister := by
  unfold Obligations.RegisterWritesChangeOnlyTheirRegister
  intro s off v h4
  refine ⟨fun hidle hoff => ?_, fun hoff =>
    hostStep_writeReg_ignored h4 (by omega) (by omega) (by omega) (by omega)⟩
  have hw : (regAt off).writable := by
    have hdrop := (dropsWhileBusy_regAt off h4).2 (.inr hoff)
    refine ⟨hdrop, fun hcmd => ?_⟩
    have hat := offset_regAt h4 (by rw [hcmd]; nofun)
    rw [hcmd] at hat
    simp only [Reg.offset] at hat
    omega
  have hread (r : Reg) : (s.noAnswer.writeReg (v.setWidth 32) (regAt off)).readReg r =
      if r = regAt off then v.setWidth 32 else s.readReg r := by
    rw [readReg_writeReg _ _ r hw, readReg_noAnswer]
  refine ⟨s.noAnswer.writeReg (v.setWidth 32) (regAt off), ?_, writeReg_frame _ _ hw, ?_, fun off' h4' hne _ => ?_⟩
  · rw [hostStep_admitted (x := .writeReg 4 off v) (regAdmitted_four h4 (by omega))]
    simp only [State.access, busy_eq_false.2 hidle, Bool.false_and]
    rfl
  · rw [hread, if_pos rfl]
  · rw [hread, if_neg fun hsame => hne ?_]
    have hnr : regAt off ≠ .reserved := fun hr => by
      have hdrop := hw.1
      rw [hr] at hdrop
      cases hdrop
    rw [← offset_regAt h4 hnr, ← hsame, offset_regAt h4' (hsame ▸ hnr)]

/-! The access of a host step. -/

/-- Settles O5: the access of the next input, then the two windows of the bus. -/
theorem hostStepsPerformTheAccess : Obligations.HostStepsPerformTheAccess := by
  unfold Obligations.HostStepsPerformTheAccess
  refine ⟨fun s x h => step_of_nextAccess h, fun n off a v => ⟨fun hoff => ?_, fun ha => ?_⟩⟩
  · simp [BusAccess.resolve, hoff]
  · have hbuf : Config.bufBase ≤ Config.bufBase + a ∧ Config.bufBase + a < Config.bufBase + Config.bufBytes := by omega
    by_cases hreg : Config.regBase ≤ Config.bufBase + a ∧ Config.bufBase + a < Config.regBase + 4096
    · simp only [BusAccess.resolve, if_pos hreg, and_self]
    · simp only [BusAccess.resolve, if_neg hreg, if_pos hbuf, Nat.add_sub_cancel_left, and_self]

end Sys2Proof.Machine
end

section
/-! SUPPORT. The register commands TWREAD, CMUL and BFLY (spec/41_lookup_tables.md R104, spec/42_complex_multiplier.md R118,
R120). -/

namespace Sys2Proof.Machine

/-- opnd_P (spec/10_state.md R32): the low word in P32, the whole half in P64. -/
theorem fpTake_spec (x : Dword) : (fpTake .p32 x).toNat = x.toNat % 2 ^ 32 ∧ fpTake .p64 x = x := by
  refine ⟨?_, fpTake_of_isValue (isValue_p64 x)⟩
  have hlt : x.toNat % 2 ^ 32 < 2 ^ 64 := (Nat.mod_lt _ (Nat.two_pow_pos 32)).trans (by decide)
  rw [fpTake, BitVec.toNat_ofNat]
  exact Nat.mod_eq_of_lt hlt

theorem upperWord_of_isValue {x : Dword} (h : IsValue .p32 x) : x.extractLsb' 32 32 = 0 := by
  apply BitVec.eq_of_toNat_eq
  have hlt : x.toNat < 2 ^ 32 := h
  rw [BitVec.extractLsb'_toNat, Nat.shiftRight_eq_div_pow, Nat.div_eq_of_lt hlt]
  rfl

/-- A complex value of P32 leaves the upper words of a register 0. -/
theorem upperWords_of_isCValue {P : Prec} {z : Cplx} (h : IsCValue P z) (hP : P = .p32) :
    z.re.extractLsb' 32 32 = 0 ∧ z.im.extractLsb' 32 32 = 0 := by
  subst hP
  exact ⟨upperWord_of_isValue h.1, upperWord_of_isValue h.2⟩

/-- Settles O24: the product is a value of P already, so that Y0 holds it whole. -/
theorem cmulWritesTheProduct : Obligations.CmulWritesTheProduct := by
  unfold Obligations.CmulWritesTheProduct
  refine ⟨fpTake_spec, fun s lc P hlc => ⟨cmul P (operandOf P lc.a) (operandOf P lc.b), ?_, rfl, rfl,
    upperWords_of_isCValue (isCValue_cmul P _ _)⟩⟩
  rw [exec_latched _ hlc, execRule, operandOf_of_isCValue (isCValue_cmul P _ _)]
  rfl

/-- Settles O25: sum and difference are values of P already, so that Y0 and Y1 hold them whole. -/
theorem bflyWritesTheButterfly : Obligations.BflyWritesTheButterfly := by
  unfold Obligations.BflyWritesTheButterfly
  refine ⟨fpTake_spec, fun s lc P hlc => ?_⟩
  obtain ⟨hu, hl⟩ := isCValue_butterfly P (operandOf P lc.a) (operandOf P lc.b) (operandOf P lc.w)
  refine ⟨cmul P (operandOf P lc.w) (operandOf P lc.b), _, _, rfl, ?_, rfl, rfl, fun hP => ?_⟩
  · rw [exec_latched _ hlc, execRule, operandOf_of_isCValue hu, operandOf_of_isCValue hl]
    rfl
  · obtain ⟨hure, huim⟩ := upperWords_of_isCValue hu hP
    exact ⟨hure, huim, upperWords_of_isCValue hl hP⟩

/-- A table that has been built, among right ones, holds the contents of its magnitude, whatever the magnitude. -/
theorem findKey_buildTT_right {s : State} (h : TwiddleTablesRight s.tt) (m : Nat) :
    findKey (s.buildTT m).tt m = some (twiddleTable m) := by
  rw [findKey_buildTT, if_pos rfl]
  cases hf : findKey s.tt m with
  | none => rfl
  | some t => rw [findKey_twiddles_right h hf, Option.getD_some]

/-- A read of a table with the contents of its magnitude is the generator's value. -/
theorem tableEntry_of_built {tt : List (Nat × List TwiddlePair)} {m : Nat} (h : findKey tt m = some (twiddleTable m))
    (k : Nat) : tableEntry tt m k = tw64 k m := by
  rw [tableEntry, h, Option.bind_some]
  cases he : (twiddleTable m)[k]? with
  | none => rfl
  | some t => exact twiddleTable_getElem? he

/-- TWREAD reads the generator's value, live or from the table it has built. -/
theorem twreadPair_right {s : State} (h : TwiddleTablesRight s.tt) (lut : Bool) (m k : Nat) :
    twreadPair lut (if lut then (s.buildTT m).tt else s.tt) m k = tw64 k m := by
  cases lut with
  | false => rfl
  | true => exact tableEntry_of_built (findKey_buildTT_right h m) k

theorem isCValue_twiddleFactor (P : Prec) (t : TwiddlePair) : IsCValue P (twiddleFactor P t) :=
  ⟨isValue_fpRound P _, isValue_fneg (isValue_fpRound P _)⟩

/-- Settles O23: Y0 holds the twiddle factor of the generator's value whole. -/
theorem twreadWritesTheTwiddleFactor : Obligations.TwreadWritesTheTwiddleFactor := by
  unfold Obligations.TwreadWritesTheTwiddleFactor
  intro s lc P lut m hlc htt
  have hval := isCValue_twiddleFactor P (tw64 lc.idx.toNat m)
  refine ⟨twiddleFactor P (tw64 lc.idx.toNat m), if lut then (s.buildTT m).tt else s.tt, ?_, rfl, rfl,
    upperWords_of_isCValue hval, fun hl => by simp [hl], fun hl => ?_, fun k hk => ?_⟩
  · rw [exec_latched _ hlc, execRule, twreadRule_eq, twreadPair_right htt, operandOf_of_isCValue hval]
    rfl
  · rw [if_pos hl]
    exact findKey_buildTT_right htt m
  · cases lut with
    | false => rfl
    | true => exact (findKey_buildTT s m k).trans (if_neg hk)

end Sys2Proof.Machine
end

section
/-! SUPPORT. What every step keeps of the tables, and which step changes which STATUS bit. -/

namespace Sys2Proof.Machine

/-- Every entry of the first cache is in the second, unchanged. -/
def KeepsTables {α : Type} (l l' : List (Nat × α)) : Prop := ∀ m v, findKey l m = some v → findKey l' m = some v

/-- Every table that is built in the first state is built in the second, with the same contents. -/
structure HoldsTables (s t : State) : Prop where
  twiddles : KeepsTables s.tt t.tt
  swaps : KeepsTables s.pt t.pt

theorem HoldsTables.of_eq {s t : State} (htt : t.tt = s.tt) (hpt : t.pt = s.pt) : HoldsTables s t :=
  ⟨fun _ _ h => htt ▸ h, fun _ _ h => hpt ▸ h⟩

theorem HoldsTables.trans {s t u : State} (h : HoldsTables s t) (h' : HoldsTables t u) : HoldsTables s u :=
  ⟨fun m v hv => h'.twiddles m v (h.twiddles m v hv), fun m v hv => h'.swaps m v (h.swaps m v hv)⟩

theorem holdsTables_buildTT (s : State) (m : Nat) : HoldsTables s (s.buildTT m) := by
  refine ⟨fun k v hv => ?_, fun k v hv => by rwa [buildTT_eq]⟩
  rw [findKey_buildTT]
  split
  · subst k
    rw [hv, Option.getD_some]
  · exact hv

theorem holdsTables_buildPT (s : State) (m : Nat) : HoldsTables s (s.buildPT m) := by
  refine ⟨fun k v hv => by rwa [buildPT_eq], fun k v hv => ?_⟩
  rw [findKey_buildPT]
  split
  · subst k
    rw [hv, Option.getD_some]
  · exact hv

theorem holdsTables_bitrevPass (F : Format) (lut : Bool) (lc : Latched) (s : State) :
    HoldsTables s (bitrevPass F lut lc s) := by
  cases lut with
  | false => exact .of_eq rfl rfl
  | true => exact (holdsTables_buildPT s lc.m).trans (.of_eq rfl rfl)

theorem holdsTables_stagePass (F : Format) (lut : Bool) (j : Nat) (lc : Latched) (s : State) :
    HoldsTables s (stagePass F lut j lc s) := by
  cases lut with
  | false => exact .of_eq rfl rfl
  | true => exact (holdsTables_buildTT s lc.m).trans (.of_eq rfl rfl)

theorem holdsTables_fftPasses (F : Format) (inv lut : Bool) (lc : Latched) (s : State) :
    HoldsTables s (fftPasses F inv lut lc s) := by
  have stages {t : State} (ht : HoldsTables s t) :
      HoldsTables s (forRange lc.m (fun i u => stagePass F lut (i + 1) lc u) t) :=
    forRange_keeps (HoldsTables s) _ _ _ ht fun i u _ hu => hu.trans (holdsTables_stagePass F lut (i + 1) lc u)
  unfold fftPasses
  split
  · exact .of_eq rfl rfl
  · cases inv with
    | false => exact stages (holdsTables_bitrevPass F lut lc s)
    | true =>
      have hconj : HoldsTables s (conjPass F lc s) := .of_eq rfl rfl
      exact (stages (hconj.trans (holdsTables_bitrevPass F lut lc _))).trans (.of_eq rfl rfl)

/-- No command empties or changes a table that is built (spec/10_state.md R38). -/
theorem holdsTables_execRule (i : Instr) (lc : Latched) (s : State) : HoldsTables s (execRule i lc s) := by
  cases i with
  | fft F inv lut => exact holdsTables_fftPasses F inv lut lc s
  | bitrev F lut => exact holdsTables_bitrevPass F lut lc s
  | stage F lut j => exact holdsTables_stagePass F lut j lc s
  | twgen m => exact holdsTables_buildTT s m
  | ptgen m => exact holdsTables_buildPT s m
  | twread P lut m =>
    cases lut with
    | false => exact .of_eq rfl rfl
    | true => exact (holdsTables_buildTT s m).trans (.of_eq rfl rfl)
  | nop => exact .of_eq rfl rfl
  | conj F => exact .of_eq rfl rfl
  | inorm F => exact .of_eq rfl rfl
  | cmul P => exact .of_eq rfl rfl
  | bfly P => exact .of_eq rfl rfl

/-- No host access changes a table. -/
theorem AccessCase.tables_eq {s t : State} {x : HostAccess} (h : AccessCase s x t) : t.tt = s.tt ∧ t.pt = s.pt := by
  cases h with
  | answered ht => rw [ht]; exact ⟨rfl, rfl⟩
  | overran _ _ ht => rw [ht]; exact ⟨rfl, rfl⟩
  | rejected _ _ _ _ _ ht => rw [ht]; exact ⟨rfl, rfl⟩
  | accepted _ _ _ _ _ ht => rw [ht]; exact ⟨rfl, rfl⟩
  | statusWritten _ _ ht => rw [ht, writeStatus_eq]; exact ⟨rfl, rfl⟩
  | enablesWritten ht => rw [ht]; exact ⟨rfl, rfl⟩
  | registerWritten _ ht => rw [ht]; exact ⟨rfl, rfl⟩
  | bufWritten _ _ _ _ _ ht => rw [ht]; exact ⟨rfl, rfl⟩

/-- Every step but reset holds the built tables. -/
theorem holdsTables_step {s t : State} (h : step s = .next t) (hr : ¬ s.resetNext) : HoldsTables s t := by
  cases step_case h with
  | skipped ht => exact .of_eq (by rw [ht]; rfl) (by rw [ht]; rfl)
  | engine lc i _ _ _ he =>
    obtain ⟨lc', -, hrule, -⟩ := exec_next he
    have hheld := holdsTables_execRule i lc' s.consumeInput
    rw [hrule]
    exact ⟨hheld.twiddles, hheld.swaps⟩
  | host x _ hc =>
    obtain ⟨htt, hpt⟩ := hc.tables_eq
    exact .of_eq htt hpt
  | reset hturn _ => exact absurd hturn hr

/-- A reset step leaves what onReset says. -/
theorem step_of_resetNext {s t : State} (h : step s = .next t) (hr : s.resetNext) : t = s.consumeInput.onReset := by
  obtain ⟨rest, hin⟩ := hr
  rw [step_cons hin] at h
  cases h
  simp [State.consumeInput, hin]

/-- Settles O47: reset lists no table; every other step holds the built ones. -/
theorem onlyResetEmptiesATable : Obligations.OnlyResetEmptiesATable := by
  unfold Obligations.OnlyResetEmptiesATable
  refine fun s t h => ⟨fun hr m => ?_, fun hr m => ?_⟩
  · rw [step_of_resetNext h hr]
    exact ⟨rfl, rfl⟩
  · have hheld := holdsTables_step h hr
    exact ⟨hheld.twiddles m, hheld.swaps m⟩

/-- Settles O50: every field of onReset by its definition. -/
theorem resetClearsEverything : Obligations.ResetClearsEverything := by
  unfold Obligations.ResetClearsEverything
  intro s rest hin
  refine ⟨_, step_cons hin, ?_⟩
  simp [State.onReset, State.reset, State.irq, findKey, Buf.byte, Buf.unlisted]

/-- What a step does to BUSY, DONE, ERR with ERRCODE, and OVR. -/
inductive StatusCase (s t : State) : Prop
  | kept (hlc : t.lc = s.lc) (hdone : t.done = s.done) (herr : t.err = s.err) (hovr : t.ovr = s.ovr)
  | completed (hturn : s.engineNext) (hbusy : s.lc ≠ none) (hlc : t.lc = none) (hdone : t.done = true)
      (herr : t.err = s.err) (hovr : t.ovr = s.ovr)
  | accepted (v : Dword) (m : Nat) (hx : s.nextAccess = some (.writeReg 4 0x004 v)) (hidle : s.lc = none)
      (hv : s.validate (v.setWidth 32) = .ok m) (hlc : t.lc ≠ none) (hdone : t.done = false) (herr : t.err = s.err)
      (hovr : t.ovr = s.ovr)
  | rejected (v : Dword) (c : ErrCode) (hx : s.nextAccess = some (.writeReg 4 0x004 v)) (hidle : s.lc = none)
      (hv : s.validate (v.setWidth 32) = .error c) (hlc : t.lc = none) (hdone : t.done = false) (herr : t.err = true)
      (hcode : t.errcode = c) (hovr : t.ovr = s.ovr)
  | statusWritten (v : Dword) (hx : s.nextAccess = some (.writeReg 4 0x008 v)) (hlc : t.lc = s.lc)
      (hdone : t.done = (s.done && !v.getLsbD 1)) (herr : t.err = (s.err && !v.getLsbD 2))
      (hcode : t.errcode = if v.getLsbD 2 then .none else s.errcode) (hovr : t.ovr = (s.ovr && !v.getLsbD 3))
  | overran (x : HostAccess) (hx : s.nextAccess = some x) (hbusy : s.lc ≠ none) (ho : x.overruns) (hlc : t.lc = s.lc)
      (hdone : t.done = s.done) (herr : t.err = s.err) (hovr : t.ovr = true)
  | reset (hturn : s.resetNext) (hlc : t.lc = none) (hdone : t.done = false) (herr : t.err = false)
      (hcode : t.errcode = .none) (hovr : t.ovr = false)

/-- What a host access does to the STATUS bits. -/
theorem AccessCase.status {s t : State} {x : HostAccess} (hx : s.nextAccess = some x)
    (h : AccessCase s.consumeInput x t) : StatusCase s t := by
  cases h with
  | answered ht => rw [ht]; exact .kept rfl rfl rfl rfl
  | enablesWritten ht => rw [ht]; exact .kept rfl rfl rfl rfl
  | registerWritten _ ht => rw [ht]; exact .kept rfl rfl rfl rfl
  | bufWritten _ _ _ _ _ ht => rw [ht]; exact .kept rfl rfl rfl rfl
  | overran hbusy ho ht => rw [ht]; exact .overran x hx hbusy ho rfl rfl rfl rfl
  | rejected v c hw hidle hv ht => subst hw ht; exact .rejected v c hx hidle hv hidle rfl rfl rfl rfl
  | accepted v m hw hidle hv ht => subst hw ht; exact .accepted v m hx hidle hv nofun rfl rfl rfl
  | statusWritten v hw ht =>
    rw [writeStatus_setWidth] at ht
    subst hw ht
    exact .statusWritten v hx rfl rfl rfl rfl rfl

/-- What a step does to the STATUS bits. -/
theorem status_case {s t : State} (h : step s = .next t) : StatusCase s t := by
  cases step_case h with
  | skipped ht => rw [ht]; exact .kept rfl rfl rfl rfl
  | engine lc i hturn hlc _ he =>
    obtain ⟨_, -, -, ht⟩ := exec_next he
    rw [ht]
    exact .completed hturn (by simp [hlc]) rfl rfl rfl rfl
  | host x hx hc => exact hc.status hx
  | reset hturn ht => rw [ht]; exact .reset hturn rfl rfl rfl rfl rfl

/-- Settles O49: each case of a step sets and clears the bits that are listed for it, and leaves the others. -/
theorem statusBitsChangeOnlyAsListed : Obligations.StatusBitsChangeOnlyAsListed := by
  unfold Obligations.StatusBitsChangeOnlyAsListed
  intro s t h
  cases status_case h with
  | kept hlc hdone herr hovr => simp +contextual [hlc, hdone, herr, hovr]
  | completed hturn hbusy hlc hdone herr hovr => simp +contextual [hturn, hbusy, hlc, hdone, herr, hovr]
  | accepted v m hx hidle hv hlc hdone herr hovr => simp +contextual [hx, hidle, hv, hlc, hdone, herr, hovr]
  | rejected v c hx hidle hv hlc hdone herr hcode hovr =>
    simp +contextual [hx, hidle, hv, hlc, hdone, herr, hcode, hovr]
  | statusWritten v hx hlc hdone herr hcode hovr => simp +contextual [hx, hlc, hdone, herr, hcode, hovr]
  | overran x hx hbusy ho hlc hdone herr hovr => simp +contextual [hx, hbusy, ho, hlc, hdone, herr, hovr]
  | reset hturn hlc hdone herr hcode hovr => simp +contextual [hturn, hlc, hdone, herr, hcode, hovr]

end Sys2Proof.Machine
end

section
/-! SUPPORT. Host accesses to BUF byte by byte, the halves of an 8-byte word, and the layout of the element formats
(spec/20_memory.md R40 to R50). -/

namespace Sys2Proof.Machine

/-- Settles O10: what is admitted is what R42 and R29 allow. -/
theorem hostAccessFaultsExactlyWhenRefused : Obligations.HostAccessFaultsExactlyWhenRefused := by
  unfold Obligations.HostAccessFaultsExactlyWhenRefused
  refine fun s x => ⟨fun h => hostStep_refused ?_, fun h => ⟨_, hostStep_admitted ((admitted_iff_allowed x).2 h)⟩⟩
  exact Bool.eq_false_iff.2 (mt (admitted_iff_allowed x).1 h)

/-! Bytes. -/

/-- A byte of the number that a read assembles. -/
theorem readNat_byte (b : Buf) (a : Nat) {n j : Nat} (h : j < n) :
    b.readNat a n / 256 ^ j % 256 = (b.byte (a + j)).toNat := by
  induction n generalizing a j with
  | zero => omega
  | succ n ih =>
    have hbyte := (b.byte a).isLt
    rw [readNat_succ]
    cases j with
    | zero => rw [Nat.pow_zero, Nat.div_one, Nat.add_zero a]; omega
    | succ j =>
      rw [Nat.pow_succ', ← Nat.div_div_eq_div_mul, show a + (j + 1) = a + 1 + j by omega, ← ih (a + 1) (by omega)]
      congr 2
      omega

/-- Byte j of a 64-bit value. -/
theorem byteOf_eq (v : Dword) (j : Nat) : v.extractLsb' (8 * j) 8 = BitVec.ofNat 8 (v.toNat / 256 ^ j) := by
  rw [show (256 : Nat) ^ j = 2 ^ (8 * j) by rw [Nat.pow_mul], ← Nat.shiftRight_eq_div_pow]
  rfl

/-- MemRead gives byte a + j as byte j of its value (spec/20_memory.md R40). -/
theorem memRead_byte (b : Buf) (a : Nat) {n j : Nat} (hn : n ≤ 8) (h : j < n) :
    (memRead b a n).extractLsb' (8 * j) 8 = b.byte (a + j) := by
  apply BitVec.eq_of_toNat_eq
  rw [byteOf_eq, BitVec.toNat_ofNat, memRead_toNat _ _ _ hn]
  exact readNat_byte b a h

/-- MemRead of n bytes has no bit above them. -/
theorem memRead_getLsbD_above (b : Buf) (a : Nat) {n k : Nat} (hn : n ≤ 8) (h : 8 * n ≤ k) :
    (memRead b a n).getLsbD k = false := by
  have hlt : b.readNat a n < 2 ^ (8 * n) := by
    rw [Nat.pow_mul]
    exact readNat_lt b a n
  rw [BitVec.getLsbD, memRead_toNat _ _ _ hn]
  exact Nat.testBit_lt_two_pow (hlt.trans_le (Nat.pow_le_pow_right two_pos h))

/-- MemWrite stores byte j of its value at a + j (spec/20_memory.md R41). -/
theorem byte_memWrite_inside (b : Buf) (a : Nat) {n j : Nat} (v : Dword) (h : j < n) :
    (memWrite b a n v).byte (a + j) = v.extractLsb' (8 * j) 8 := by
  rw [byteOf_eq]
  exact byte_writeNat_inside _ _ _ _ _ h

theorem hostStep_readBuf_idle {s : State} {n a : Nat} (ha : (HostAccess.readBuf n a).allowed) (hidle : s.lc = none) :
    hostStep (.readBuf n a) s = .next { s with reply := some (memRead s.buf a n) } := by
  rw [hostStep_admitted ((admitted_iff_allowed _).2 ha)]
  simp only [State.access, busy_eq_false.2 hidle]
  rfl

theorem hostStep_writeBuf_idle {s : State} {n a : Nat} {v : Dword} (ha : (HostAccess.writeBuf n a v).allowed)
    (hidle : s.lc = none) :
    hostStep (.writeBuf n a v) s = .next { s with reply := none, buf := memWrite s.buf a n v } := by
  rw [hostStep_admitted ((admitted_iff_allowed _).2 ha)]
  simp only [State.access, busy_eq_false.2 hidle]
  rfl

/-- Settles O18: MemRead and MemWrite byte by byte, and the two accesses while IDLE. -/
theorem bufAccessesAreLittleEndian : Obligations.BufAccessesAreLittleEndian := by
  unfold Obligations.BufAccessesAreLittleEndian
  refine ⟨fun b n a v hn => ?_, fun s n a v hidle ha =>
    ⟨hostStep_readBuf_idle ha hidle, hostStep_writeBuf_idle ha hidle⟩⟩
  have hn8 : n ≤ 8 := by omega
  exact ⟨fun j hj => memRead_byte b a hn8 hj, fun k hk => memRead_getLsbD_above b a hn8 hk,
    fun j hj => byte_memWrite_inside b a v hj, fun x hx => byte_memWrite_outside b a n v x hx⟩

/-! Halves. -/

/-- The number that a read of n + k bytes assembles, from its two parts. -/
theorem readNat_add (b : Buf) (a n k : Nat) : b.readNat a (n + k) = b.readNat a n + 256 ^ n * b.readNat (a + n) k := by
  induction n generalizing a with
  | zero => simp [Buf.readNat]
  | succ n ih =>
    rw [Nat.succ_add, readNat_succ, readNat_succ, ih, Nat.pow_succ', show a + 1 + n = a + (n + 1) by omega]
    ring

theorem extractLsb'_low_toNat (v : Dword) : (v.extractLsb' 0 32).toNat = v.toNat % 2 ^ 32 := by
  rw [BitVec.extractLsb'_toNat, Nat.shiftRight_zero]

theorem extractLsb'_high_toNat (v : Dword) : (v.extractLsb' 32 32).toNat = v.toNat / 2 ^ 32 := by
  have := v.isLt
  rw [BitVec.extractLsb'_toNat, Nat.shiftRight_eq_div_pow, Nat.mod_eq_of_lt (by omega)]

/-- An 8-byte word is its two 4-byte words, the low one first (spec/20_memory.md R50). -/
theorem memRead_eight_toNat (b : Buf) (a : Nat) :
    (memRead b a 8).toNat = (memRead b a 4).toNat + 2 ^ 32 * (memRead b (a + 4) 4).toNat := by
  rw [memRead_toNat _ _ _ (by omega), memRead_toNat _ _ _ (by omega), memRead_toNat _ _ _ (by omega)]
  exact readNat_add b a 4 4

theorem memRead_four_toNat_lt (b : Buf) (a : Nat) : (memRead b a 4).toNat < 2 ^ 32 := by
  rw [memRead_toNat _ _ _ (by omega)]
  exact readNat_lt b a 4

/-- The low word of an 8-byte word. -/
theorem memRead_low_half (b : Buf) (a : Nat) : memRead b a 4 = ((memRead b a 8).extractLsb' 0 32).setWidth 64 := by
  have hsum := memRead_eight_toNat b a
  have hlow := memRead_four_toNat_lt b a
  apply BitVec.eq_of_toNat_eq
  rw [BitVec.toNat_setWidth, extractLsb'_low_toNat]
  omega

/-- The high word of an 8-byte word. -/
theorem memRead_high_half (b : Buf) (a : Nat) :
    memRead b (a + 4) 4 = ((memRead b a 8).extractLsb' 32 32).setWidth 64 := by
  have hsum := memRead_eight_toNat b a
  have hlow := memRead_four_toNat_lt b a
  have hhigh := memRead_four_toNat_lt b (a + 4)
  apply BitVec.eq_of_toNat_eq
  rw [BitVec.toNat_setWidth, extractLsb'_high_toNat]
  omega

/-- The number of two words put together. -/
theorem append_toNat (x y : Word) : (x ++ y : Dword).toNat = x.toNat * 2 ^ 32 + y.toNat := by
  rw [BitVec.toNat_append, Nat.shiftLeft_eq, Nat.mul_comm, Nat.two_pow_add_eq_or_of_lt y.isLt]

/-- Two 4-byte writes read back as one 8-byte word (spec/20_memory.md R50). -/
theorem memRead_two_words (b : Buf) (a : Nat) (re im : Dword) :
    memRead (memWrite (memWrite b a 4 re) (a + 4) 4 im) a 8 = im.extractLsb' 0 32 ++ re.extractLsb' 0 32 := by
  have htake (v : Dword) : (lowBytes 4 v).toNat = v.toNat % 2 ^ 32 := (fpTake_spec v).1
  apply BitVec.eq_of_toNat_eq
  rw [memRead_eight_toNat, memRead_memWrite_same _ _ _ _ (by omega), memRead_memWrite_apart _ _ _ _ _ _ (by omega),
    memRead_memWrite_same _ _ _ _ (by omega), append_toNat, extractLsb'_low_toNat, extractLsb'_low_toNat, htake, htake]
  omega

theorem fpTake_p32_eq (v : Dword) : fpTake .p32 v = (v.extractLsb' 0 32).setWidth 64 := by
  apply BitVec.eq_of_toNat_eq
  rw [(fpTake_spec v).1, BitVec.toNat_setWidth, extractLsb'_low_toNat]
  omega

theorem ushiftRight_32_eq (v : Dword) : v >>> 32 = (v.extractLsb' 32 32).setWidth 64 := by
  have := v.isLt
  apply BitVec.eq_of_toNat_eq
  rw [BitVec.toNat_setWidth, extractLsb'_high_toNat, BitVec.toNat_ushiftRight, Nat.shiftRight_eq_div_pow]
  omega

/-- LoadElem of PK64 takes the two halves of its word (spec/20_memory.md R45, R46). -/
theorem loadElem_pk64 (base i : Nat) (b : Buf) :
    loadElem .pk64 base i b =
      ⟨((memRead b (base + 8 * i) 8).extractLsb' 32 32).setWidth 64,
       ((memRead b (base + 8 * i) 8).extractLsb' 0 32).setWidth 64⟩ := by
  rw [← ushiftRight_32_eq, ← fpTake_p32_eq]
  rfl

/-- Settles O19: the halves of an 8-byte word are the two 4-byte words. -/
theorem sameBytesHoldF32AndSwappedPk64 : Obligations.SameBytesHoldF32AndSwappedPk64 := by
  unfold Obligations.SameBytesHoldF32AndSwappedPk64
  refine fun b a v re im => ⟨?_, ?_, memRead_two_words b a re im, fun i => ?_⟩
  · rw [memRead_low_half, memRead_memWrite_same _ _ _ _ (Nat.le_refl 8), lowBytes_eight]
  · rw [memRead_high_half, memRead_memWrite_same _ _ _ _ (Nat.le_refl 8), lowBytes_eight]
  · rw [loadElem_pk64, ← memRead_high_half, ← memRead_low_half]
    rfl

/-! Formats. -/

/-- A word whose FMT is none of its row's values is BAD_FIELD (spec/30_encoding.md R69). -/
theorem decode_badField_of_fmt {w : Word} {r : OpRow} (hr : opMap.find? (fun r => r.op == opField w) = some r)
    (hf : r.fmts.contains (fmtField w) = false) : decode w = .error .badField := by
  unfold decode
  rw [hr]
  simp only [hf, Bool.false_eq_true, not_false_eq_true, if_true, ite_self]

/-- The buffer commands' rows do not list FMT = 3 (spec/30_encoding.md R63, R68). -/
theorem bufferRow_refuses_fmt_three : ∀ op : BitVec 4, 1 ≤ op.toNat → op.toNat ≤ 5 →
    ∃ r ∈ opMap, opMap.find? (fun r => r.op == op) = some r ∧ r.fmts.contains 3 = false := by
  decide

/-- The word StoreElem writes for PK64 has re in its upper and im in its lower half (spec/20_memory.md R45). -/
theorem pk64_word_eq (re im : Dword) : re <<< 32 ||| fpTake .p32 im = re.extractLsb' 0 32 ++ im.extractLsb' 0 32 := by
  have him : (fpTake .p32 im).toNat < 2 ^ 32 := isValue_fpTake .p32 im
  have hshift : re.toNat * 2 ^ 32 % 2 ^ 64 = 2 ^ 32 * (re.toNat % 2 ^ 32) := by omega
  apply BitVec.eq_of_toNat_eq
  rw [append_toNat, extractLsb'_low_toNat, extractLsb'_low_toNat, BitVec.toNat_or, BitVec.toNat_shiftLeft,
    Nat.shiftLeft_eq, hshift, ← Nat.two_pow_add_eq_or_of_lt him, (fpTake_spec im).1, Nat.mul_comm]

/-- Settles O60: the numbers by the definitions, BAD_FIELD by the rows, PK64 by the halves of its word. -/
theorem formatsLayOutTheirElements : Obligations.FormatsLayOutTheirElements := by
  unfold Obligations.FormatsLayOutTheirElements
  refine ⟨⟨rfl, rfl, rfl, rfl⟩, ⟨rfl, rfl, rfl, rfl⟩, ⟨rfl, rfl, rfl, rfl⟩, ⟨rfl, fun w hlo hhi hfmt => ?_⟩,
    fun base i b re im => ⟨rfl, rfl, loadElem_pk64 base i b, rfl, rfl, ?_⟩⟩
  · obtain ⟨r, -, hr, hf⟩ := bufferRow_refuses_fmt_three (opField w) hlo hhi
    exact decode_badField_of_fmt hr (by rw [hfmt, hf])
  · rw [← pk64_word_eq]
    rfl

end Sys2Proof.Machine
end

section
/-! SUPPORT. What a command leaves in the table caches, in BUF and in the result registers: each as a function of the
state before it. -/

namespace Sys2Proof.Machine

/-! The tables that a command reads: as they are in live mode, and with its own table built in LUT mode. -/

/-- The twiddle tables after a command of magnitude m has built its own in LUT mode (spec/41_lookup_tables.md R99). -/
def lookupTwiddles (lut : Bool) (m : Nat) (s : State) : List (Nat × List TwiddlePair) :=
  if lut then (s.buildTT m).tt else s.tt

/-- The permutation tables after a command of magnitude m has built its own in LUT mode (spec/41_lookup_tables.md R99). -/
def lookupSwaps (lut : Bool) (m : Nat) (s : State) : List (Nat × List (Nat × Nat)) :=
  if lut then (s.buildPT m).pt else s.pt

theorem buildTT_congr {s u : State} (h : u.tt = s.tt) (m : Nat) : (u.buildTT m).tt = (s.buildTT m).tt := by
  unfold State.buildTT
  rw [h]
  cases findKey s.tt m with
  | none => rfl
  | some t => exact h

theorem buildPT_congr {s u : State} (h : u.pt = s.pt) (m : Nat) : (u.buildPT m).pt = (s.buildPT m).pt := by
  unfold State.buildPT
  rw [h]
  cases findKey s.pt m with
  | none => rfl
  | some t => exact h

/-- A table that is built already is not built again. -/
theorem buildTT_of_built {s : State} {m : Nat} {t : List TwiddlePair} (h : findKey s.tt m = some t) :
    s.buildTT m = s := by
  unfold State.buildTT
  rw [h]

theorem lookupTwiddles_congr {s u : State} (h : u.tt = s.tt) (lut : Bool) (m : Nat) :
    lookupTwiddles lut m u = lookupTwiddles lut m s := by
  cases lut with
  | false => exact h
  | true => exact buildTT_congr h m

theorem lookupSwaps_congr {s u : State} (h : u.pt = s.pt) (lut : Bool) (m : Nat) :
    lookupSwaps lut m u = lookupSwaps lut m s := by
  cases lut with
  | false => exact h
  | true => exact buildPT_congr h m

/-- A second command of the same mode and magnitude finds the twiddle tables as the first left them. -/
theorem lookupTwiddles_again {s u : State} {lut : Bool} {m : Nat} (h : u.tt = lookupTwiddles lut m s) :
    lookupTwiddles lut m u = lookupTwiddles lut m s := by
  cases lut with
  | false => exact h
  | true =>
    have hbuilt := findKey_buildTT s m m
    rw [if_pos rfl] at hbuilt
    rw [← h]
    exact congrArg State.tt (buildTT_of_built ((congrArg (findKey · m) h).trans hbuilt))

/-- The tables that are read, where those before were right, give the generator's value. -/
theorem tableEntry_lookupTwiddles {s : State} (h : TwiddleTablesRight s.tt) (lut : Bool) (m k : Nat) :
    tableEntry (lookupTwiddles lut m s) m k = tw64 k m := by
  cases lut with
  | false => exact tableEntry_right h m k
  | true => exact tableEntry_of_built (findKey_buildTT_right h m) k

/-- The twiddle of an offset, where the tables are right, is the live one. -/
theorem twiddlePair_lookupTwiddles {s : State} (h : TwiddleTablesRight s.tt) (lut : Bool) {m j : Nat} (o : Nat)
    (hj : j ≤ m) : twiddlePair lut (lookupTwiddles lut m s) m j o = tw64 o j := by
  cases lut with
  | false => rfl
  | true =>
    have hscale := twiddleOf_scale (Config.twiddleFn.getD crChoice) j o (m - j)
    rw [Nat.add_sub_cancel' hj] at hscale
    exact (tableEntry_lookupTwiddles h true m _).trans hscale

/-- The swaps of BITREV, where the tables are right, are the live bit reverser's. -/
theorem bitrevPairs_lookupSwaps {s : State} (h : SwapTablesRight s.pt) (lut : Bool) (m : Nat) :
    bitrevPairs lut (lookupSwaps lut m s) m = swapPairs m := by
  cases lut with
  | false => rfl
  | true =>
    have hbuilt : findKey (s.buildPT m).pt m = some (swapPairs m) := by
      rw [findKey_buildPT, if_pos rfl]
      cases hf : findKey s.pt m with
      | none => rfl
      | some t => rw [findKey_swaps_right h hf, Option.getD_some]
    change (findKey (s.buildPT m).pt m).getD (swapPairs m) = swapPairs m
    rw [hbuilt, Option.getD_some]

/-! BUF after a buffer command, as a function of the bytes before, the swaps and the twiddles. -/

/-- Stages 1 to n on the bytes, with the twiddle of offset o at stage j given as `tw j o`. -/
def stagesRule (F : Format) (base m n : Nat) (tw : Nat → Nat → TwiddlePair) (b : Buf) : Buf :=
  forRange n (fun i c => stageElems F base m (i + 1) (fun o => twiddleFactor (formatPrec F) (tw (i + 1) o)) c) b

/-- The bytes that FFT leaves (spec/43_transform.md R136, R137). -/
def fftRule (F : Format) (inv : Bool) (base m : Nat) (swaps : List (Nat × Nat)) (tw : Nat → Nat → TwiddlePair)
    (b : Buf) : Buf :=
  if m = 0 then b
  else
    let conjugated := if inv then mapElems F base (2 ^ m) (cconj (formatPrec F)) b else b
    let transformed := stagesRule F base m m tw (swapElems F base swaps conjugated)
    if inv then mapElems F base (2 ^ m) (fun z => cnorm (formatPrec F) z m) transformed else transformed

/-- The bytes that a command leaves (spec/43_transform.md R123 to R137), with the swaps of BITREV and the twiddle of offset o
at stage j given. -/
def bufferRule (i : Instr) (lc : Latched) (swaps : List (Nat × Nat)) (tw : Nat → Nat → TwiddlePair) (b : Buf) : Buf :=
  match i with
  | .fft F inv _ => fftRule F inv lc.base.toNat lc.m swaps tw b
  | .bitrev F _ => swapElems F lc.base.toNat swaps b
  | .stage F _ j => stageElems F lc.base.toNat lc.m j (fun o => twiddleFactor (formatPrec F) (tw j o)) b
  | .conj F => mapElems F lc.base.toNat (2 ^ lc.m) (cconj (formatPrec F)) b
  | .inorm F => mapElems F lc.base.toNat (2 ^ lc.m) (fun z => cnorm (formatPrec F) z lc.m) b
  | .nop => b
  | .twgen _ => b
  | .ptgen _ => b
  | .twread _ _ _ => b
  | .cmul _ => b
  | .bfly _ => b

/-- The LUT bit of a command, false where it has none (spec/30_encoding.md R65). -/
def usesLookup : Instr → Bool
  | .fft _ _ lut => lut
  | .bitrev _ lut => lut
  | .stage _ lut _ => lut
  | .twread _ lut _ => lut
  | .nop => false
  | .conj _ => false
  | .inorm _ => false
  | .twgen _ => false
  | .ptgen _ => false
  | .cmul _ => false
  | .bfly _ => false

/-- The stages of FFT: TT[m] built at the first, in LUT mode, and read at every one. -/
theorem stagePasses_eq (F : Format) (lut : Bool) (lc : Latched) (s : State) (n : Nat) :
    forRange n (fun i t => stagePass F lut (i + 1) lc t) s =
      { s with
        tt := if n = 0 then s.tt else lookupTwiddles lut lc.m s
        buf := stagesRule F lc.base.toNat lc.m n (twiddlePair lut (lookupTwiddles lut lc.m s) lc.m) s.buf } := by
  induction n with
  | zero => rfl
  | succ n ih =>
    have hread : lookupTwiddles lut lc.m (forRange n (fun i t => stagePass F lut (i + 1) lc t) s) =
        lookupTwiddles lut lc.m s := by
      rw [ih]
      by_cases hn : n = 0
      · exact lookupTwiddles_congr (if_pos hn) lut lc.m
      · exact lookupTwiddles_again (if_neg hn)
    rw [forRange_succ, stagePass_eq]
    simp only [lookupTwiddles] at hread
    rw [hread, ih]
    rfl

/-- BITREV and then every stage, in one update: their tables, each built once, and BUF (spec/43_transform.md R134). -/
theorem transformPasses_eq (F : Format) (lut : Bool) (lc : Latched) (t : State) (hm : lc.m ≠ 0) :
    forRange lc.m (fun i u => stagePass F lut (i + 1) lc u) (bitrevPass F lut lc t) =
      { t with
        tt := lookupTwiddles lut lc.m t
        pt := lookupSwaps lut lc.m t
        buf := stagesRule F lc.base.toNat lc.m lc.m (twiddlePair lut (lookupTwiddles lut lc.m t) lc.m)
          (swapElems F lc.base.toNat (bitrevPairs lut (lookupSwaps lut lc.m t) lc.m) t.buf) } := by
  have htt : (bitrevPass F lut lc t).tt = t.tt := by rw [bitrevPass_eq]
  rw [stagePasses_eq, if_neg hm, lookupTwiddles_congr htt, bitrevPass_eq]
  rfl

/-- FFT, in one update: its tables, each built once, and BUF (spec/43_transform.md R136). -/
theorem fftPasses_eq (F : Format) (inv lut : Bool) (lc : Latched) (s : State) :
    fftPasses F inv lut lc s =
      { s with
        tt := if lc.m = 0 then s.tt else lookupTwiddles lut lc.m s
        pt := if lc.m = 0 then s.pt else lookupSwaps lut lc.m s
        buf := fftRule F inv lc.base.toNat lc.m (bitrevPairs lut (lookupSwaps lut lc.m s) lc.m)
          (twiddlePair lut (lookupTwiddles lut lc.m s) lc.m) s.buf } := by
  by_cases hm : lc.m = 0
  · simp only [fftPasses, fftRule, if_pos hm]
  · simp only [fftPasses, fftRule, if_neg hm]
    cases inv with
    | false => exact transformPasses_eq F lut lc s hm
    | true =>
      have htt : lookupTwiddles lut lc.m (conjPass F lc s) = lookupTwiddles lut lc.m s :=
        lookupTwiddles_congr (s := s) (u := conjPass F lc s) rfl lut lc.m
      have hpt : lookupSwaps lut lc.m (conjPass F lc s) = lookupSwaps lut lc.m s :=
        lookupSwaps_congr (s := s) (u := conjPass F lc s) rfl lut lc.m
      rw [if_pos rfl, if_pos rfl, transformPasses_eq F lut lc _ hm, htt, hpt]
      rfl

/-! Every command in one update. -/

/-- Y0 after a command: TWREAD, CMUL and BFLY write it (spec/30_encoding.md R75). -/
def y0Rule (i : Instr) (lc : Latched) (s : State) : Cplx :=
  match i with
  | .twread P lut m => operandOf P (twiddleFactor P (twreadPair lut (lookupTwiddles lut m s) m lc.idx.toNat))
  | .cmul P => operandOf P (cmul P (operandOf P lc.a) (operandOf P lc.b))
  | .bfly P => operandOf P (butterfly P (operandOf P lc.a) (operandOf P lc.b) (operandOf P lc.w)).1
  | _ => s.y0

/-- Y1 after a command: BFLY writes it (spec/30_encoding.md R75). -/
def y1Rule (i : Instr) (lc : Latched) (s : State) : Cplx :=
  match i with
  | .bfly P => operandOf P (butterfly P (operandOf P lc.a) (operandOf P lc.b) (operandOf P lc.w)).2
  | _ => s.y1

/-- FFT builds a twiddle table in LUT mode, but none at magnitude 0 (spec/41_lookup_tables.md R99, spec/43_transform.md
R137). -/
theorem fft_builds_twiddles (F : Format) (inv lut : Bool) (m : Nat) (s : State) :
    (if m = 0 then s.tt else lookupTwiddles lut m s) =
      ((Instr.fft F inv lut).buildsTwiddles m).elim s.tt fun k => (s.buildTT k).tt := by
  cases m with
  | zero => cases lut <;> rfl
  | succ m => cases lut <;> simp [Instr.buildsTwiddles, lookupTwiddles]

theorem fft_builds_swaps (F : Format) (inv lut : Bool) (m : Nat) (s : State) :
    (if m = 0 then s.pt else lookupSwaps lut m s) =
      ((Instr.fft F inv lut).buildsSwaps m).elim s.pt fun k => (s.buildPT k).pt := by
  cases m with
  | zero => cases lut <;> rfl
  | succ m => cases lut <;> simp [Instr.buildsSwaps, lookupSwaps]

/-- What a command leaves in each field: the result registers, the tables it builds, and BUF by its rule on the bytes, with
the swaps and twiddles of the tables it reads. -/
theorem execRule_eq (i : Instr) (lc : Latched) (s : State) :
    execRule i lc s =
      { s with
        y0 := y0Rule i lc s
        y1 := y1Rule i lc s
        tt := (i.buildsTwiddles lc.m).elim s.tt fun k => (s.buildTT k).tt
        pt := (i.buildsSwaps lc.m).elim s.pt fun k => (s.buildPT k).pt
        buf := bufferRule i lc (bitrevPairs (usesLookup i) (lookupSwaps (usesLookup i) lc.m s) lc.m)
          (twiddlePair (usesLookup i) (lookupTwiddles (usesLookup i) lc.m s) lc.m) s.buf } := by
  cases i with
  | fft F inv lut =>
    rw [← fft_builds_twiddles, ← fft_builds_swaps]
    exact fftPasses_eq F inv lut lc s
  | bitrev F lut => rw [execRule, bitrevPass_eq]; cases lut <;> rfl
  | stage F lut j => rw [execRule, stagePass_eq]; cases lut <;> rfl
  | twread P lut m => rw [execRule, twreadRule_eq]; cases lut <;> rfl
  | twgen m => rw [execRule, buildTT_eq]; rfl
  | ptgen m => rw [execRule, buildPT_eq]; rfl
  | nop => rfl
  | conj F => rfl
  | inorm F => rfl
  | cmul P => rfl
  | bfly P => rfl

theorem execRule_buf (i : Instr) (lc : Latched) (s : State) :
    (execRule i lc s).buf =
      bufferRule i lc (bitrevPairs (usesLookup i) (lookupSwaps (usesLookup i) lc.m s) lc.m)
        (twiddlePair (usesLookup i) (lookupTwiddles (usesLookup i) lc.m s) lc.m) s.buf :=
  congrArg State.buf (execRule_eq i lc s)

end Sys2Proof.Machine
end

section
/-! SUPPORT. The frame of every command (spec/40_commands.md R88), the region of a buffer command (spec/20_memory.md R48)
included. -/

namespace Sys2Proof.Machine

/-! A buffer command stays inside its region. -/

/-- No byte outside the region differs. -/
def SameOutside (F : Format) (base m : Nat) (b b' : Buf) : Prop := ∀ a, ¬ inRegion F base m a → b'.byte a = b.byte a

section

variable {F : Format} {base m : Nat} {b c : Buf}

theorem SameOutside.storeElem (h : SameOutside F base m b c) {i : Nat} (z : Cplx) (hi : i < 2 ^ m) :
    SameOutside F base m b (storeElem F base i z c) := fun a ha => by
  rw [byte_storeElem_outside_region F base m i z c a hi ha, h a ha]

theorem SameOutside.mapElems (h : SameOutside F base m b c) (f : Cplx → Cplx) :
    SameOutside F base m b (mapElems F base (2 ^ m) f c) := fun a ha => by
  rw [byte_mapElems_outside F base m f c a ha, h a ha]

theorem SameOutside.swapElems (h : SameOutside F base m b c) {swaps : List (Nat × Nat)}
    (hs : ∀ e ∈ swaps, e.1 < 2 ^ m ∧ e.2 < 2 ^ m) : SameOutside F base m b (swapElems F base swaps c) :=
  swapElems_keeps (SameOutside F base m b) F base swaps c h fun e he _ hy =>
    (hy.storeElem _ (hs e he).1).storeElem _ (hs e he).2

theorem SameOutside.stageElems (h : SameOutside F base m b c) (j : Nat) (tw : Nat → Cplx) :
    SameOutside F base m b (stageElems F base m j tw c) :=
  stageElems_keeps (SameOutside F base m b) F base m j tw c h fun o g y ho hg hy => by
    have hlt : o + g * 2 ^ j + 2 ^ j / 2 < 2 ^ m := stage_index_lt ho hg
    exact (hy.storeElem _ (by omega)).storeElem _ hlt

theorem SameOutside.stagesRule (h : SameOutside F base m b c) (n : Nat) (tw : Nat → Nat → TwiddlePair) :
    SameOutside F base m b (stagesRule F base m n tw c) :=
  forRange_keeps (SameOutside F base m b) _ n c h fun _ _ _ hy => hy.stageElems _ _

theorem SameOutside.fftRule (h : SameOutside F base m b c) (inv : Bool) {swaps : List (Nat × Nat)}
    (hs : ∀ e ∈ swaps, e.1 < 2 ^ m ∧ e.2 < 2 ^ m) (tw : Nat → Nat → TwiddlePair) :
    SameOutside F base m b (fftRule F inv base m swaps tw c) := by
  unfold Machine.fftRule
  split
  · exact h
  · cases inv with
    | false => exact (h.swapElems hs).stagesRule m tw
    | true =>
      exact (((h.mapElems (cconj (formatPrec F))).swapElems hs).stagesRule m tw).mapElems fun z => cnorm (formatPrec F) z m

end

/-- A buffer command whose swaps lie in its buffer changes no byte outside its region (spec/20_memory.md R48). -/
theorem bufferRule_outside {i : Instr} {lc : Latched} {swaps : List (Nat × Nat)} (tw : Nat → Nat → TwiddlePair) (b : Buf)
    {F : Format} (hF : i.bufferFormat = some F) (hs : ∀ e ∈ swaps, e.1 < 2 ^ lc.m ∧ e.2 < 2 ^ lc.m) :
    SameOutside F lc.base.toNat lc.m b (bufferRule i lc swaps tw b) := by
  have hrefl (F : Format) : SameOutside F lc.base.toNat lc.m b b := fun _ _ => rfl
  cases i with
  | fft F' inv lut => cases hF; exact (hrefl F).fftRule inv hs tw
  | bitrev F' lut => cases hF; exact (hrefl F).swapElems hs
  | stage F' lut j => cases hF; exact (hrefl F).stageElems j _
  | conj F' => cases hF; exact (hrefl F).mapElems (cconj (formatPrec F))
  | inorm F' => cases hF; exact (hrefl F).mapElems fun z => cnorm (formatPrec F) z lc.m
  | nop => cases hF
  | twgen m => cases hF
  | ptgen m => cases hF
  | twread P lut m => cases hF
  | cmul P => cases hF
  | bfly P => cases hF

/-- A command without a buffer leaves BUF as it is. -/
theorem bufferRule_of_no_buffer {i : Instr} (h : i.bufferFormat = none) (lc : Latched) (swaps : List (Nat × Nat))
    (tw : Nat → Nat → TwiddlePair) (b : Buf) : bufferRule i lc swaps tw b = b := by
  cases i with
  | nop => rfl
  | twgen m => rfl
  | ptgen m => rfl
  | twread P lut m => rfl
  | cmul P => rfl
  | bfly P => rfl
  | fft F inv lut => cases h
  | bitrev F lut => cases h
  | stage F lut j => cases h
  | conj F => cases h
  | inorm F => cases h

/-! The tables and the result registers. -/

/-- What is held of the tables of each magnitude when at most one of them is built. -/
theorem findKey_elim_buildTT (o : Option Nat) (s : State) (k : Nat) :
    findKey (o.elim s.tt fun m => (s.buildTT m).tt) k =
      if o = some k then some ((findKey s.tt k).getD (twiddleTable k)) else findKey s.tt k := by
  cases o with
  | none => rfl
  | some m =>
    rw [Option.elim_some, findKey_buildTT]
    by_cases hk : k = m
    · simp [hk]
    · simp [hk, Ne.symm hk]

theorem findKey_elim_buildPT (o : Option Nat) (s : State) (k : Nat) :
    findKey (o.elim s.pt fun m => (s.buildPT m).pt) k =
      if o = some k then some ((findKey s.pt k).getD (swapPairs k)) else findKey s.pt k := by
  cases o with
  | none => rfl
  | some m =>
    rw [Option.elim_some, findKey_buildPT]
    by_cases hk : k = m
    · simp [hk]
    · simp [hk, Ne.symm hk]

/-- Y0 is written by TWREAD, CMUL and BFLY only (spec/30_encoding.md R75). -/
theorem y0Rule_unchanged {i : Instr} (lc : Latched) (s : State) (ht : ∀ P lut m, i ≠ .twread P lut m)
    (hc : ∀ P, i ≠ .cmul P) (hb : ∀ P, i ≠ .bfly P) : y0Rule i lc s = s.y0 := by
  cases i with
  | twread P lut m => exact absurd rfl (ht P lut m)
  | cmul P => exact absurd rfl (hc P)
  | bfly P => exact absurd rfl (hb P)
  | _ => rfl

/-- Y1 is written by BFLY only (spec/30_encoding.md R75). -/
theorem y1Rule_unchanged {i : Instr} (lc : Latched) (s : State) (hb : ∀ P, i ≠ .bfly P) : y1Rule i lc s = s.y1 := by
  cases i with
  | bfly P => exact absurd rfl (hb P)
  | _ => rfl

/-- Settles O33: what a command leaves in each field, and which bytes its rule for BUF can change. -/
theorem commandsWriteOnlyWhatTheyName : Obligations.CommandsWriteOnlyWhatTheyName := by
  unfold Obligations.CommandsWriteOnlyWhatTheyName
  intro i s t lc hlc he
  obtain rfl : (execRule i lc s).complete = t := by simpa [exec_latched i hlc] using he
  have htt (k : Nat) := findKey_elim_buildTT (i.buildsTwiddles lc.m) s k
  have hpt (k : Nat) := findKey_elim_buildPT (i.buildsSwaps lc.m) s k
  rw [execRule_eq]
  refine ⟨rfl, rfl, rfl, rfl, rfl, rfl, rfl, rfl, rfl, rfl, rfl, rfl, rfl, fun hb => bufferRule_of_no_buffer hb _ _ _ _,
    fun hs F hF => ?_, y0Rule_unchanged lc s, y1Rule_unchanged lc s, fun h => ?_, fun k hk => (htt k).trans (if_neg hk),
    fun k hk => (htt k).trans (if_pos hk), fun h => ?_, fun k hk => (hpt k).trans (if_neg hk),
    fun k hk => (hpt k).trans (if_pos hk)⟩
  · rw [bitrevPairs_lookupSwaps hs]
    exact bufferRule_outside _ _ hF fun e he => swapPairs_lt he
  · rw [h]
    rfl
  · rw [h]
    rfl

end Sys2Proof.Machine
end

section
/-! SUPPORT. What a command writes depends only on its latched operands and the bytes of its region
(spec/70_reset_and_hazards.md R175). -/

namespace Sys2Proof.Machine

/-- Two loops whose turns keep a relation keep it. -/
theorem forRange_related {α β : Type} (r : α → β → Prop) {f : Nat → α → α} {g : Nat → β → β} (n : Nat) {x : α} {y : β}
    (h : r x y) (hfg : ∀ i u v, i < n → r u v → r (f i u) (g i v)) : r (forRange n f x) (forRange n g y) := by
  induction n with
  | zero => exact h
  | succ n ih => exact hfg n _ _ (Nat.lt_succ_self n) (ih fun i u v hi => hfg i u v (Nat.lt_succ_of_lt hi))

/-- The same write to two buffers leaves a byte the same where it was the same. -/
theorem byte_memWrite_congr {b b' : Buf} {x : Nat} (h : b.byte x = b'.byte x) (a n : Nat) (v : Dword) :
    (memWrite b a n v).byte x = (memWrite b' a n v).byte x := by
  unfold memWrite
  generalize v.toNat = u
  induction n generalizing b b' a u with
  | zero => exact h
  | succ n ih => exact ih (by rw [byte_setByte, byte_setByte, h]) _ _

theorem byte_storeElem_congr {b b' : Buf} {x : Nat} (h : b.byte x = b'.byte x) (F : Format) (base i : Nat) (z : Cplx) :
    (storeElem F base i z b).byte x = (storeElem F base i z b').byte x := by
  cases F with
  | f32 => exact byte_memWrite_congr (byte_memWrite_congr h _ _ _) _ _ _
  | f64 => exact byte_memWrite_congr (byte_memWrite_congr h _ _ _) _ _ _
  | pk64 => exact byte_memWrite_congr h _ _ _

/-- The bytes of the region are the same in both buffers. -/
def SameInside (F : Format) (base m : Nat) (b b' : Buf) : Prop := ∀ a, inRegion F base m a → b.byte a = b'.byte a

section

variable {F : Format} {base m : Nat} {b b' : Buf}

theorem SameInside.loadElem (h : SameInside F base m b b') {i : Nat} (hi : i < 2 ^ m) :
    loadElem F base i b = loadElem F base i b' := by
  obtain ⟨hlo, hhi⟩ := elem_inside F base m i hi
  exact loadElem_congr F base i b b' fun x h1 h2 => h x ⟨hlo.trans h1, h2.trans_le hhi⟩

theorem SameInside.storeElem (h : SameInside F base m b b') (i : Nat) (z : Cplx) :
    SameInside F base m (storeElem F base i z b) (storeElem F base i z b') :=
  fun a ha => byte_storeElem_congr (h a ha) F base i z

theorem SameInside.mapElems (h : SameInside F base m b b') (f : Cplx → Cplx) :
    SameInside F base m (mapElems F base (2 ^ m) f b) (mapElems F base (2 ^ m) f b') :=
  forRange_related (SameInside F base m) (2 ^ m) h fun i u v hi hr => by
    rw [hr.loadElem hi]
    exact hr.storeElem i _

theorem SameInside.swapElems {swaps : List (Nat × Nat)} (h : SameInside F base m b b')
    (hs : ∀ e ∈ swaps, e.1 < 2 ^ m ∧ e.2 < 2 ^ m) :
    SameInside F base m (swapElems F base swaps b) (swapElems F base swaps b') := by
  induction swaps generalizing b b' with
  | nil => exact h
  | cons e rest ih =>
    obtain ⟨hi, hr⟩ := hs e List.mem_cons_self
    refine ih ?_ fun e he => hs e (List.mem_cons_of_mem _ he)
    rw [h.loadElem hi, h.loadElem hr]
    exact (h.storeElem _ _).storeElem _ _

theorem SameInside.stagePair (h : SameInside F base m b b') {i k : Nat} (w : Cplx) (hk : i + k < 2 ^ m) :
    SameInside F base m (stagePair F base k w i b) (stagePair F base k w i b') := by
  unfold Machine.stagePair
  rw [h.loadElem hk, h.loadElem (i := i) (by omega)]
  exact (h.storeElem _ _).storeElem _ _

theorem SameInside.stageElems (h : SameInside F base m b b') (j : Nat) (tw : Nat → Cplx) :
    SameInside F base m (stageElems F base m j tw b) (stageElems F base m j tw b') :=
  forRange_related (SameInside F base m) _ h fun o _ _ ho hr =>
    forRange_related (SameInside F base m) _ hr fun _ _ _ hg hr' => hr'.stagePair (tw o) (stage_index_lt ho hg)

theorem SameInside.stagesRule (h : SameInside F base m b b') (n : Nat) (tw : Nat → Nat → TwiddlePair) :
    SameInside F base m (stagesRule F base m n tw b) (stagesRule F base m n tw b') :=
  forRange_related (SameInside F base m) n h fun _ _ _ _ hr => hr.stageElems _ _

theorem SameInside.fftRule (h : SameInside F base m b b') (inv : Bool) {swaps : List (Nat × Nat)}
    (hs : ∀ e ∈ swaps, e.1 < 2 ^ m ∧ e.2 < 2 ^ m) (tw : Nat → Nat → TwiddlePair) :
    SameInside F base m (fftRule F inv base m swaps tw b) (fftRule F inv base m swaps tw b') := by
  unfold Machine.fftRule
  split
  · exact h
  · cases inv with
    | false => exact (h.swapElems hs).stagesRule m tw
    | true =>
      exact (((h.mapElems (cconj (formatPrec F))).swapElems hs).stagesRule m tw).mapElems fun z => cnorm (formatPrec F) z m

end

/-- The bytes a buffer command leaves in its region depend on no byte outside it (spec/20_memory.md R48). -/
theorem bufferRule_inside {i : Instr} {lc : Latched} {swaps : List (Nat × Nat)} (tw : Nat → Nat → TwiddlePair)
    {b b' : Buf} {F : Format} (hF : i.bufferFormat = some F) (hs : ∀ e ∈ swaps, e.1 < 2 ^ lc.m ∧ e.2 < 2 ^ lc.m)
    (h : SameInside F lc.base.toNat lc.m b b') :
    SameInside F lc.base.toNat lc.m (bufferRule i lc swaps tw b) (bufferRule i lc swaps tw b') := by
  cases i with
  | fft F' inv lut => cases hF; exact h.fftRule inv hs tw
  | bitrev F' lut => cases hF; exact h.swapElems hs
  | stage F' lut j => cases hF; exact h.stageElems j _
  | conj F' => cases hF; exact h.mapElems (cconj (formatPrec F))
  | inorm F' => cases hF; exact h.mapElems fun z => cnorm (formatPrec F) z lc.m
  | nop => cases hF
  | twgen m => cases hF
  | ptgen m => cases hF
  | twread P lut m => cases hF
  | cmul P => cases hF
  | bfly P => cases hF

/-- A stage uses its twiddles only where it has a butterfly, that is for 1 ≤ j ≤ m. -/
theorem stageElems_congr {F : Format} {base m j : Nat} {tw tw' : Nat → Cplx} (b : Buf) (h : j ≤ m → tw = tw') :
    stageElems F base m j tw b = stageElems F base m j tw' b := by
  by_cases hj : j ≤ m
  · rw [h hj]
  · have hnone : 2 ^ m / 2 ^ j = 0 := Nat.div_eq_of_lt (Nat.pow_lt_pow_right (by omega) (by omega))
    simp only [stageElems, hnone, forRange_zero]

/-- The bytes that a command leaves depend on the twiddles of the stages 1 to m only. -/
theorem bufferRule_congr (i : Instr) {lc : Latched} (swaps : List (Nat × Nat)) {tw tw' : Nat → Nat → TwiddlePair}
    (b : Buf) (h : ∀ j o, j ≤ lc.m → tw j o = tw' j o) : bufferRule i lc swaps tw b = bufferRule i lc swaps tw' b := by
  have hstage (F : Format) (j : Nat) (c : Buf) :
      stageElems F lc.base.toNat lc.m j (fun o => twiddleFactor (formatPrec F) (tw j o)) c =
        stageElems F lc.base.toNat lc.m j (fun o => twiddleFactor (formatPrec F) (tw' j o)) c :=
    stageElems_congr c fun hj => by simp only [h j _ hj]
  cases i with
  | fft F inv lut => simp only [bufferRule, fftRule, stagesRule, hstage]
  | stage F lut j => exact hstage F j b
  | _ => rfl

/-- Where the tables are right, BUF after a command is that of the live bit reverser and the live generator, in either mode
(spec/41_lookup_tables.md R101). -/
theorem execRule_buf_live (i : Instr) (lc : Latched) {s : State} (htt : TwiddleTablesRight s.tt)
    (hpt : SwapTablesRight s.pt) :
    (execRule i lc s).buf = bufferRule i lc (swapPairs lc.m) (fun j o => tw64 o j) s.buf := by
  rw [execRule_buf, bitrevPairs_lookupSwaps hpt]
  exact bufferRule_congr i _ _ fun j o hj => twiddlePair_lookupTwiddles htt _ o hj

/-- Where the tables are right, Y0 after TWREAD is the generator's value, in either mode (spec/41_lookup_tables.md R104). -/
theorem execRule_twread_y0 (P : Prec) (lut : Bool) (m : Nat) (lc : Latched) {s : State} (htt : TwiddleTablesRight s.tt) :
    (execRule (.twread P lut m) lc s).y0 = operandOf P (twiddleFactor P (tw64 lc.idx.toNat m)) := by
  rw [execRule, twreadRule_eq, twreadPair_right htt]

/-- Settles O34: BUF as the live rule leaves it depends on the region alone, Y0 and Y1 on the latched operands alone. -/
theorem resultsDependOnLatchedOperandsAndRegionOnly : Obligations.ResultsDependOnLatchedOperandsAndRegionOnly := by
  unfold Obligations.ResultsDependOnLatchedOperandsAndRegionOnly
  intro i s s' lc hlc hlc' htt hpt htt' hpt' hsame
  refine ⟨_, _, exec_latched i hlc, exec_latched i hlc', fun F hF => ?_, ?_, ?_, ?_⟩
  · rw [complete_buf, complete_buf, execRule_buf_live i lc htt hpt, execRule_buf_live i lc htt' hpt']
    exact bufferRule_inside _ hF (fun e he => swapPairs_lt he) (hsame F hF)
  · rintro P lut m rfl
    rw [complete_y0, complete_y0, execRule_twread_y0 P lut m lc htt, execRule_twread_y0 P lut m lc htt']
  · rintro P rfl
    rfl
  · rintro P rfl
    exact ⟨rfl, rfl⟩

end Sys2Proof.Machine
end

section
/-! SUPPORT. Runs: with no refused access no run stops, and the host does not disturb a command while it is BUSY. -/

namespace Sys2Proof.Machine

/-- A run goes on from the next state of its first step. -/
theorem run_of_step {s t : State} (h : step s = .next t) (k : Nat) : core.run (k + 1) s = core.run k t := by
  have hcore : core.step s = .next t := h
  simp only [Host.Core.run, hcore]

/-! No run stops. -/

/-- The ENGINE's turn answers a next state: nothing is latched, or a word that decodes. -/
theorem engineTurn_answers {s : State} (h : Inv s) : ∃ t, engineTurn s = .next t := by
  cases hlc : s.lc with
  | none => exact ⟨s, engineTurn_idle hlc⟩
  | some lc =>
    obtain ⟨i, hd, -⟩ := validateWord_ok (h.latchValid lc hlc)
    exact ⟨_, (engineTurn_latched hlc hd).trans (exec_latched i hlc)⟩

/-- An input that is no refused access answers a next state. -/
theorem performInput_answers {s : State} {x : Input} (h : Inv s) (hx : x.admitted) : ∃ t, performInput x s = .next t := by
  cases x with
  | host y => exact ⟨_, hostStep_admitted hx⟩
  | bus y =>
    cases hy : y.resolve with
    | none => exact ⟨s, by simp only [performInput, hy]⟩
    | some z => exact ⟨s.access z, by simp only [performInput, hy, hostStep_admitted (hx z hy)]⟩
  | engine => exact engineTurn_answers h
  | reset => exact ⟨_, rfl⟩

/-- A step answers a next state where its input is no refused access. -/
theorem step_answers {s : State} (h : Inv s) (hadm : ∀ x ∈ s.inputs, x.admitted) : ∃ t, step s = .next t := by
  cases hin : s.inputs with
  | nil => rw [step_nil hin]; exact engineTurn_answers h
  | cons x rest =>
    rw [step_cons hin]
    exact performInput_answers (inv_of_eq_elsewhere h rfl) (hadm x (by simp [hin]))

/-- No host access changes the inputs to come. -/
theorem AccessCase.inputs_eq {s t : State} {x : HostAccess} (h : AccessCase s x t) : t.inputs = s.inputs := by
  cases h with
  | answered ht => rw [ht]
  | overran _ _ ht => rw [ht]
  | rejected _ _ _ _ _ ht => rw [ht]; rfl
  | accepted _ _ _ _ _ ht => rw [ht]; rfl
  | statusWritten _ _ ht => rw [ht, writeStatus_eq]; rfl
  | enablesWritten ht => rw [ht]
  | registerWritten _ ht => rw [ht]
  | bufWritten _ _ _ _ _ ht => rw [ht]

/-- A step takes one input, if one is left. -/
theorem inputs_step {s t : State} (h : step s = .next t) : t.inputs = s.inputs.tail := by
  cases step_case h with
  | skipped ht => rw [ht]; rfl
  | engine lc i _ _ _ he =>
    obtain ⟨_, -, -, ht⟩ := exec_next he
    rw [ht]
    rfl
  | host x _ hc => exact hc.inputs_eq
  | reset _ ht => rw [ht]; rfl

/-- Settles O44: a step answers, keeps the invariant, and leaves only inputs that were there. -/
theorem admittedRunsAreSafe : Obligations.AdmittedRunsAreSafe := by
  unfold Obligations.AdmittedRunsAreSafe Safe
  intro s h hadm k
  induction k generalizing s with
  | zero => exact ⟨s, rfl⟩
  | succ k ih =>
    obtain ⟨t, hstep⟩ := step_answers h hadm
    rw [run_of_step hstep]
    refine ih t (stepKeepsTheInvariant s t h hstep) fun x hx => hadm x ?_
    rw [inputs_step hstep] at hx
    exact List.mem_of_mem_tail hx

/-! The host while a command is BUSY. -/

/-- The two states agree in the latched command, in all that a command reads or leaves but DONE, and in the host registers
that an accepted command latches. -/
structure SameForEngine (s u : State) : Prop where
  lc : u.lc = s.lc
  base : u.base = s.base
  len : u.len = s.len
  idx : u.idx = s.idx
  mag : u.mag = s.mag
  a : u.a = s.a
  b : u.b = s.b
  w : u.w = s.w
  y0 : u.y0 = s.y0
  y1 : u.y1 = s.y1
  tt : u.tt = s.tt
  pt : u.pt = s.pt
  buf : u.buf = s.buf

/-- The status bits, the enables and the model's own fields are what the ENGINE does not see. -/
theorem SameForEngine.of_eq_elsewhere {s u : State}
    (h : u =
      { s with
        done := u.done
        err := u.err
        ovr := u.ovr
        errcode := u.errcode
        doneIe := u.doneIe
        errIe := u.errIe
        ovrIe := u.ovrIe
        inputs := u.inputs
        reply := u.reply
        draws := u.draws }) : SameForEngine s u := by
  rw [h]
  exact ⟨rfl, rfl, rfl, rfl, rfl, rfl, rfl, rfl, rfl, rfl, rfl, rfl, rfl⟩

theorem SameForEngine.trans {s t u : State} (h : SameForEngine s t) (h' : SameForEngine t u) : SameForEngine s u :=
  ⟨h'.lc.trans h.lc, h'.base.trans h.base, h'.len.trans h.len, h'.idx.trans h.idx, h'.mag.trans h.mag, h'.a.trans h.a,
    h'.b.trans h.b, h'.w.trans h.w, h'.y0.trans h.y0, h'.y1.trans h.y1, h'.tt.trans h.tt, h'.pt.trans h.pt,
    h'.buf.trans h.buf⟩

/-- A host access while BUSY touches status bits, the enables and the reply only (spec/10_state.md R29, spec/20_memory.md
R42). -/
theorem AccessCase.sameForEngine {s t : State} {x : HostAccess} (h : AccessCase s x t) (hbusy : s.lc ≠ none) :
    SameForEngine s t := by
  cases h with
  | answered ht => exact .of_eq_elsewhere (by rw [ht])
  | overran _ _ ht => exact .of_eq_elsewhere (by rw [ht])
  | statusWritten v _ ht => exact .of_eq_elsewhere (by rw [ht, writeStatus_eq]; rfl)
  | enablesWritten ht => exact .of_eq_elsewhere (by rw [ht])
  | rejected _ _ _ hidle _ _ => exact absurd hidle hbusy
  | accepted _ _ _ hidle _ _ => exact absurd hidle hbusy
  | registerWritten hidle _ => exact absurd hidle hbusy
  | bufWritten _ _ _ hidle _ _ => exact absurd hidle hbusy

/-- An input that is an admitted host access, by offset or by bus address. -/
def HostInput (x : Input) : Prop :=
  (∃ y, x = .host y ∧ y.allowed) ∨ (∃ y, x = .bus y ∧ ∀ z, y.resolve = some z → z.allowed)

/-- One host input while BUSY. -/
theorem performInput_host {s : State} {x : Input} (hx : HostInput x) (hbusy : s.lc ≠ none) :
    ∃ t, performInput x s = .next t ∧ t.inputs = s.inputs ∧ SameForEngine s t := by
  have access {z : HostAccess} (hz : z.allowed) :
      ∃ t, hostStep z s = .next t ∧ t.inputs = s.inputs ∧ SameForEngine s t := by
    have hadm := (admitted_iff_allowed z).2 hz
    have hcase : AccessCase s z (s.access z) := access_case hadm
    exact ⟨_, hostStep_admitted hadm, hcase.inputs_eq, hcase.sameForEngine hbusy⟩
  rcases hx with ⟨y, rfl, hy⟩ | ⟨y, rfl, hy⟩
  · exact access hy
  · cases hr : y.resolve with
    | none => exact ⟨s, by simp only [performInput, hr], rfl, .of_eq_elsewhere rfl⟩
    | some z => simpa only [performInput, hr] using access (hy z hr)

/-- Host inputs while BUSY are performed one by one, and leave what the ENGINE sees as it was. -/
theorem run_host_inputs {xs rest : List Input} {s : State} (hxs : ∀ x ∈ xs, HostInput x) (hbusy : s.lc ≠ none)
    (hin : s.inputs = xs ++ rest) (k : Nat) :
    ∃ u, core.run (xs.length + k) s = core.run k u ∧ u.inputs = rest ∧ SameForEngine s u := by
  induction xs generalizing s with
  | nil => exact ⟨s, by rw [List.length_nil, Nat.zero_add], hin, .of_eq_elsewhere rfl⟩
  | cons x xs ih =>
    obtain ⟨t, hstep, hrest, hst⟩ :=
      performInput_host (s := { s with inputs := xs ++ rest }) (hxs x List.mem_cons_self) hbusy
    have hconsumed : SameForEngine s { s with inputs := xs ++ rest } := .of_eq_elsewhere rfl
    obtain ⟨u, hrun, hu, htu⟩ := ih (fun y hy => hxs y (List.mem_cons_of_mem _ hy)) (hst.lc ▸ hbusy) hrest
    refine ⟨u, ?_, hu, (hconsumed.trans hst).trans htu⟩
    rw [List.length_cons, Nat.succ_add, run_of_step ((step_cons hin).trans hstep), hrun]

/-- What a command leaves depends on what the ENGINE sees alone. -/
theorem execRule_sameForEngine (i : Instr) (lc : Latched) {s u : State} (h : SameForEngine s u) :
    SameForEngine (execRule i lc s) (execRule i lc u) := by
  have hreads (lut : Bool) (m : Nat) : lookupTwiddles lut m u = lookupTwiddles lut m s := lookupTwiddles_congr h.tt lut m
  rw [execRule_eq, execRule_eq]
  refine { h with y0 := ?_, y1 := ?_, tt := ?_, pt := ?_, buf := ?_ }
  · simp only [y0Rule, hreads, h.y0]
  · simp only [y1Rule, h.y1]
  · simp only [buildTT_congr h.tt, h.tt]
  · simp only [buildPT_congr h.pt, h.pt]
  · simp only [hreads, lookupSwaps_congr h.pt, h.buf]

/-- A run of one step on the ENGINE's turn completes the latched command. -/
theorem run_engine_turn {s : State} {lc : Latched} {i : Instr} (hlc : s.lc = some lc) (hd : decode lc.word = .ok i)
    {rest : List Input} (hin : s.inputs = .engine :: rest) :
    core.run 1 s = .next (execRule i lc { s with inputs := rest }).complete := by
  have hturn := engineTurn_latched (s := { s with inputs := rest }) hlc hd
  have hexec := exec_latched (s := { s with inputs := rest }) i hlc
  rw [run_of_step ((step_cons hin).trans (hturn.trans hexec))]
  rfl

/-- Settles O46: the host inputs leave what the ENGINE sees as it was, and the command leaves the same from there. -/
theorem hostCannotDisturbABusyCommand : Obligations.HostCannotDisturbABusyCommand := by
  unfold Obligations.HostCannotDisturbABusyCommand
  intro s lc i xs hlc hd hxs
  obtain ⟨u, hrun, hu, hsu⟩ :=
    run_host_inputs (s := { s with inputs := xs ++ [.engine] }) hxs (by simp [hlc]) rfl 1
  have hsame : SameForEngine { s with inputs := [] } { u with inputs := [] } := { hsu with }
  have hdone := execRule_sameForEngine i lc hsame
  have halone := run_engine_turn (s := { s with inputs := [.engine] }) hlc hd rfl
  exact ⟨_, _, halone, hrun.trans (run_engine_turn (hsu.lc.trans hlc) hd hu), hdone.buf, hdone.y0,
    hdone.y1, hdone.tt, hdone.pt, hdone.mag, hdone.base, hdone.len, hdone.idx, hdone.a, hdone.b, hdone.w, rfl, rfl⟩

end Sys2Proof.Machine
end

section
/-! SUPPORT. The command word both ways: the fields of an encoded command, decode after encode, and which words are
commands (spec/30_encoding.md R62, R68, R69). -/

namespace Sys2Proof

/-! The fields of a command word. -/

section

variable {op fmt arg : Nat} (inv lut : Bool)

/-- Fields that fit do not overlap. -/
theorem commandWord_toNat (hop : op < 16) (hfmt : fmt < 4) (harg : arg < 32) :
    (commandWord op fmt inv lut arg).toNat =
      op + fmt * 2 ^ 4 + inv.toNat * 2 ^ 6 + lut.toNat * 2 ^ 7 + arg * 2 ^ 8 := by
  have hinv := inv.toNat_le
  have hlut := lut.toNat_le
  rw [commandWord, BitVec.toNat_ofNat]
  exact Nat.mod_eq_of_lt (by omega)

@[simp] theorem opField_commandWord (hop : op < 16) (hfmt : fmt < 4) (harg : arg < 32) :
    (opField (commandWord op fmt inv lut arg)).toNat = op := by
  rw [opField_toNat, commandWord_toNat inv lut hop hfmt harg]
  omega

@[simp] theorem fmtField_commandWord (hop : op < 16) (hfmt : fmt < 4) (harg : arg < 32) :
    fmtField (commandWord op fmt inv lut arg) = BitVec.ofNat 2 fmt := by
  apply BitVec.eq_of_toNat_eq
  have hinv := inv.toNat_le
  have hlut := lut.toNat_le
  rw [fmtField_toNat, commandWord_toNat inv lut hop hfmt harg, BitVec.toNat_ofNat]
  omega

@[simp] theorem invField_commandWord (hop : op < 16) (hfmt : fmt < 4) (harg : arg < 32) :
    invField (commandWord op fmt inv lut arg) = inv := by
  apply Function.LeftInverse.injective Bool.ofNat_toNat
  have hinv := inv.toNat_le
  have hlut := lut.toNat_le
  rw [invField_toNat, commandWord_toNat inv lut hop hfmt harg]
  omega

@[simp] theorem lutField_commandWord (hop : op < 16) (hfmt : fmt < 4) (harg : arg < 32) :
    lutField (commandWord op fmt inv lut arg) = lut := by
  apply Function.LeftInverse.injective Bool.ofNat_toNat
  have hinv := inv.toNat_le
  have hlut := lut.toNat_le
  rw [lutField_toNat, commandWord_toNat inv lut hop hfmt harg]
  omega

@[simp] theorem argField_commandWord (hop : op < 16) (hfmt : fmt < 4) (harg : arg < 32) :
    argField (commandWord op fmt inv lut arg) = arg := by
  have hinv := inv.toNat_le
  have hlut := lut.toNat_le
  rw [argField_eq, commandWord_toNat inv lut hop hfmt harg]
  omega

end

theorem argField_lt (w : Word) : argField w < 32 := (w.extractLsb' 8 5).isLt

@[simp] theorem Format.bits_lt (f : Format) : f.bits < 4 := by cases f <;> decide

@[simp] theorem Prec.bits_lt (p : Prec) : p.bits < 4 := by cases p <;> decide

@[simp] theorem Format.ofBits_bits (f : Format) : Format.ofBits (BitVec.ofNat 2 f.bits) = some f := by cases f <;> rfl

@[simp] theorem Prec.ofBits_bits (p : Prec) : Prec.ofBits (BitVec.ofNat 2 p.bits) = some p := by cases p <;> rfl

theorem Format.exists_bits_eq {n : Nat} (h : n ≤ 2) : ∃ f : Format, n = f.bits := by
  interval_cases n
  · exact ⟨.f32, rfl⟩
  · exact ⟨.f64, rfl⟩
  · exact ⟨.pk64, rfl⟩

theorem Prec.exists_bits_eq {n : Nat} (h : n ≤ 1) : ∃ p : Prec, n = p.bits := by
  interval_cases n
  · exact ⟨.p32, rfl⟩
  · exact ⟨.p64, rfl⟩

/-! Decode after encode. -/

/-- The fields of a command's word name the command (spec/30_encoding.md R68): each field reads back as it
was put in. -/
theorem commandOfFields_encode {i : Instr} (h : i.wellFormed = true) : commandOfFields (encode i) = some i := by
  have harg : i.arg < 32 := of_decide_eq_true h
  cases i <;> simp only [Instr.arg] at harg <;> simp [commandOfFields, encode, harg]

/-- Every command's word carries its OP and meets its row of the opcode map. -/
theorem encode_meets_opMap (i : Instr) : Laws.OpcodeField.Statement i := by
  cases i with
  | nop => exact Laws.OpcodeField.nop
  | fft F inv lut => exact Laws.OpcodeField.fft F inv lut
  | bitrev F lut => exact Laws.OpcodeField.bitrev F lut
  | stage F lut j => exact Laws.OpcodeField.stage F lut j
  | conj F => exact Laws.OpcodeField.conj F
  | inorm F => exact Laws.OpcodeField.inorm F
  | twgen m => exact Laws.OpcodeField.twgen m
  | ptgen m => exact Laws.OpcodeField.ptgen m
  | twread P lut m => exact Laws.OpcodeField.twread P lut m
  | cmul P => exact Laws.OpcodeField.cmul P
  | bfly P => exact Laws.OpcodeField.bfly P

/-- No two rows of the opcode map have the same OP. -/
theorem find_opMap_row : ∀ r ∈ opMap, opMap.find? (fun q => q.op == r.op) = some r := by decide

/-- A word that its row admits decodes to the command its fields name (spec/30_encoding.md R69). -/
theorem decode_ok_of_row {w : Word} {r : OpRow} {i : Instr} (hr : opMap.find? (fun q => q.op == opField w) = some r)
    (hmask : w &&& r.mask = r.pattern) (hfmt : r.fmts.contains (fmtField w) = true) (hi : commandOfFields w = some i) :
    decode w = .ok i := by
  simp only [decode, hr, hmask, hfmt, hi, ne_eq, not_true_eq_false, if_false]

/-- Decoding the word of a well-formed command gives the command back. -/
theorem decode_encode {i : Instr} (h : i.wellFormed = true) : decode (encode i) = .ok i := by
  obtain ⟨hop, r, hr, hrop, hmask, hfmt⟩ := encode_meets_opMap i h
  exact decode_ok_of_row (by rw [hop, ← hrop]; exact find_opMap_row r hr) hmask hfmt (commandOfFields_encode h)

/-- Settles O1: the command's word meets its row of the opcode map, and its fields name the command. -/
theorem everyWellFormedCommandDecodesBack : Obligations.EveryWellFormedCommandDecodesBack := fun _ => decode_encode

/-! Which words are commands. -/

/-- OP 0xB to 0xF have no row. -/
theorem find_opMap_undefined : ∀ op : BitVec 4, 0xB ≤ op.toNat →
    opMap.find? (fun r => r.op == op) = none := by decide

/-- OP 0x0 to 0xA have one. -/
theorem find_opMap_defined : ∀ op : BitVec 4, op.toNat < 0xB →
    ∃ r ∈ opMap, r.op = op ∧ opMap.find? (fun q => q.op == op) = some r := by decide

/-- A word that breaks its row's mask is BAD_FIELD (spec/30_encoding.md R69). -/
theorem decode_badField_of_mask {w : Word} {r : OpRow} (hr : opMap.find? (fun q => q.op == opField w) = some r)
    (hmask : w &&& r.mask ≠ r.pattern) : decode w = .error .badField := by
  simp only [decode, hr, hmask, ne_eq, not_false_eq_true, if_true]

section

variable {w mask pattern : Word} (h : w &&& mask = pattern)

include h

theorem invField_of_masked (hm : mask.getLsbD 6 = true) (hp : pattern.getLsbD 6 = false) : invField w = false :=
  (bit_of_masked h 6 hm).trans hp

theorem lutField_of_masked (hm : mask.getLsbD 7 = true) (hp : pattern.getLsbD 7 = false) : lutField w = false :=
  (bit_of_masked h 7 hm).trans hp

theorem argField_of_masked (hm : mask.extractLsb' 8 5 = BitVec.allOnes 5) (hp : pattern.extractLsb' 8 5 = 0) :
    argField w = 0 :=
  congrArg BitVec.toNat ((extract_of_masked h 8 5 hm).trans hp)

end

/-- FMT where a row lists 0 alone, and below where it lists 0 and 1, or 0 to 2 (spec/30_encoding.md R63). -/
theorem fmt_of_listed_zero : ∀ b : BitVec 2, [0].contains b = true → b.toNat = 0 := by decide

theorem fmt_of_listed_precs : ∀ b : BitVec 2, [0, 1].contains b = true → b.toNat ≤ 1 := by decide

theorem fmt_of_listed_formats : ∀ b : BitVec 2, [0, 1, 2].contains b = true → b.toNat ≤ 2 := by decide

/-- The fields of a word that its row admits have values of the table of spec/30_encoding.md R68: row by row, the fields
that the mask covers are 0, and FMT is listed. -/
theorem fieldsAllowed_of_row {w : Word} {r : OpRow} (hr : r ∈ opMap) (hop : opField w = r.op)
    (hmask : w &&& r.mask = r.pattern) (hfmt : r.fmts.contains (fmtField w) = true) : fieldsAllowed w := by
  have hrsv := rsv_zero_of_masked hr hmask
  have inv := @invField_of_masked w r.mask r.pattern hmask
  have lut := @lutField_of_masked w r.mask r.pattern hmask
  have arg := @argField_of_masked w r.mask r.pattern hmask
  have fmt0 := fmt_of_listed_zero (fmtField w)
  have fmt1 := fmt_of_listed_precs (fmtField w)
  have fmt2 := fmt_of_listed_formats (fmtField w)
  unfold fieldsAllowed
  rw [hop]
  simp only [opMap, List.mem_cons, List.not_mem_nil, or_false] at hr
  rcases hr with rfl | rfl | rfl | rfl | rfl | rfl | rfl | rfl | rfl | rfl | rfl
  · exact ⟨hrsv, fmt0 hfmt, inv rfl rfl, lut rfl rfl, arg rfl rfl⟩
  · exact ⟨hrsv, fmt2 hfmt, arg rfl rfl⟩
  · exact ⟨hrsv, fmt2 hfmt, inv rfl rfl, arg rfl rfl⟩
  · exact ⟨hrsv, fmt2 hfmt, inv rfl rfl⟩
  · exact ⟨hrsv, fmt2 hfmt, inv rfl rfl, lut rfl rfl, arg rfl rfl⟩
  · exact ⟨hrsv, fmt2 hfmt, inv rfl rfl, lut rfl rfl, arg rfl rfl⟩
  · exact ⟨hrsv, fmt0 hfmt, inv rfl rfl, lut rfl rfl⟩
  · exact ⟨hrsv, fmt0 hfmt, inv rfl rfl, lut rfl rfl⟩
  · exact ⟨hrsv, fmt1 hfmt, inv rfl rfl⟩
  · exact ⟨hrsv, fmt1 hfmt, inv rfl rfl, lut rfl rfl, arg rfl rfl⟩
  · exact ⟨hrsv, fmt1 hfmt, inv rfl rfl, lut rfl rfl, arg rfl rfl⟩

/-- A word with RSV = 0 is the command word of its fields, each given by its value. -/
theorem commandWord_eq {w : Word} {op fmt arg : Nat} {inv lut : Bool} (hrsv : w.toNat / 8192 = 0)
    (hop : (opField w).toNat = op) (hfmt : (fmtField w).toNat = fmt) (hinv : invField w = inv) (hlut : lutField w = lut)
    (harg : argField w = arg) : commandWord op fmt inv lut arg = w := by
  subst hop hfmt hinv hlut harg
  exact commandWord_of_fields w hrsv

/-- A word whose fields have values of the table is the word of a well-formed command: the one its fields name. -/
theorem exists_encode_of_fieldsAllowed {w : Word} (h : fieldsAllowed w) :
    ∃ i : Instr, i.wellFormed = true ∧ encode i = w := by
  obtain ⟨hrsv, hfields⟩ := h
  have hfits : decide (argField w < 32) = true := decide_eq_true (argField_lt w)
  split at hfields <;> rename_i hop
  · obtain ⟨hfmt, hinv, hlut, harg⟩ := hfields
    exact ⟨.nop, rfl, commandWord_eq hrsv hop hfmt hinv hlut harg⟩
  · obtain ⟨⟨f, hf⟩, harg⟩ := hfields.imp_left Format.exists_bits_eq
    exact ⟨.fft f (invField w) (lutField w), rfl, commandWord_eq hrsv hop hf rfl rfl harg⟩
  · obtain ⟨⟨f, hf⟩, hinv, harg⟩ := hfields.imp_left Format.exists_bits_eq
    exact ⟨.bitrev f (lutField w), rfl, commandWord_eq hrsv hop hf hinv rfl harg⟩
  · obtain ⟨⟨f, hf⟩, hinv⟩ := hfields.imp_left Format.exists_bits_eq
    exact ⟨.stage f (lutField w) (argField w), hfits, commandWord_eq hrsv hop hf hinv rfl rfl⟩
  · obtain ⟨⟨f, hf⟩, hinv, hlut, harg⟩ := hfields.imp_left Format.exists_bits_eq
    exact ⟨.conj f, rfl, commandWord_eq hrsv hop hf hinv hlut harg⟩
  · obtain ⟨⟨f, hf⟩, hinv, hlut, harg⟩ := hfields.imp_left Format.exists_bits_eq
    exact ⟨.inorm f, rfl, commandWord_eq hrsv hop hf hinv hlut harg⟩
  · obtain ⟨hfmt, hinv, hlut⟩ := hfields
    exact ⟨.twgen (argField w), hfits, commandWord_eq hrsv hop hfmt hinv hlut rfl⟩
  · obtain ⟨hfmt, hinv, hlut⟩ := hfields
    exact ⟨.ptgen (argField w), hfits, commandWord_eq hrsv hop hfmt hinv hlut rfl⟩
  · obtain ⟨⟨p, hp⟩, hinv⟩ := hfields.imp_left Prec.exists_bits_eq
    exact ⟨.twread p (lutField w) (argField w), hfits, commandWord_eq hrsv hop hp hinv rfl rfl⟩
  · obtain ⟨⟨p, hp⟩, hinv, hlut, harg⟩ := hfields.imp_left Prec.exists_bits_eq
    exact ⟨.cmul p, rfl, commandWord_eq hrsv hop hp hinv hlut harg⟩
  · obtain ⟨⟨p, hp⟩, hinv, hlut, harg⟩ := hfields.imp_left Prec.exists_bits_eq
    exact ⟨.bfly p, rfl, commandWord_eq hrsv hop hp hinv hlut harg⟩
  · exact hfields.elim

/-- A word with a defined OP and a field value outside the table is BAD_FIELD: its row does not admit it. -/
theorem decode_badField_of_not_fieldsAllowed {w : Word} (hop : (opField w).toNat < 0xB) (h : ¬ fieldsAllowed w) :
    decode w = .error .badField := by
  obtain ⟨r, hr, hrop, hfind⟩ := find_opMap_defined _ hop
  by_cases hmask : w &&& r.mask = r.pattern
  · refine Machine.decode_badField_of_fmt hfind (Bool.eq_false_iff.2 fun hfmt => ?_)
    exact h (fieldsAllowed_of_row hr hrop.symm hmask hfmt)
  · exact decode_badField_of_mask hfind hmask

/-- Settles O2: OP selects the row, the row admits exactly the words of the table, and those are the encoded
commands. -/
theorem everyWordIsOneCommandOrAnError : Obligations.EveryWordIsOneCommandOrAnError := by
  unfold Obligations.EveryWordIsOneCommandOrAnError
  refine fun w => ⟨fun hop => ?_, decode_badField_of_not_fieldsAllowed, fun _ hfields => ?_⟩
  · simp only [decode, find_opMap_undefined _ hop]
  · obtain ⟨i, hi, rfl⟩ := exists_encode_of_fieldsAllowed hfields
    exact ⟨i, decode_encode hi, (encode_meets_opMap i hi).1.symm, rfl, hi⟩

end Sys2Proof
end

section
/-! SUPPORT. Host programs that issue buffer commands one after another with a WAIT after each: what they leave in BUF
and the tables is what the commands' rules leave one after another, so FFTSEQ and IFFTSEQ leave what FFT leaves
(spec/43_transform.md R140). -/

namespace Sys2Proof.Machine

/-! The sequence of passes and FFT. -/

/-- The state that commands leave, one after another on one latched command, without their completions. -/
def runRules (lc : Latched) (l : List Instr) (s : State) : State := l.foldl (fun t i => execRule i lc t) s

theorem runRules_append (lc : Latched) (l l' : List Instr) (s : State) :
    runRules lc (l ++ l') s = runRules lc l' (runRules lc l s) := List.foldl_append

/-- STAGE 1 to STAGE n are the loop of stages (spec/43_transform.md R134). -/
theorem runRules_stages (F : Format) (lut : Bool) (lc : Latched) (n : Nat) (s : State) :
    runRules lc ((List.range n).map fun j => .stage F lut (j + 1)) s =
      forRange n (fun i t => stagePass F lut (i + 1) lc t) s := by
  induction n with
  | zero => rfl
  | succ n ih =>
    rw [List.range_succ, List.map_append, runRules_append, ih, forRange_succ]
    rfl

/-- The passes of FFT, one after another, are FFT (spec/43_transform.md R136). -/
theorem runRules_passCommands (F : Format) (inv lut : Bool) (lc : Latched) (s : State) (hm : 1 ≤ lc.m) :
    runRules lc (passCommands F inv lut lc.m) s = fftPasses F inv lut lc s := by
  have hforward (t : State) :
      runRules lc (.bitrev F lut :: (List.range lc.m).map fun j => .stage F lut (j + 1)) t =
        forRange lc.m (fun i u => stagePass F lut (i + 1) lc u) (bitrevPass F lut lc t) :=
    runRules_stages F lut lc lc.m (bitrevPass F lut lc t)
  rw [fftPasses, if_neg (by omega)]
  cases inv with
  | false => exact hforward s
  | true => exact (runRules_append lc _ [.inorm F] _).trans (congrArg (inormPass F lc) (hforward (conjPass F lc s)))

/-! Validation of the passes. -/

/-- Validation accepts a buffer command exactly when its length, region and argument checks pass
(spec/40_commands.md R144). -/
theorem validateWord_buffer_ok {p : Params} {base len idx w : Word} {i : Instr} {F : Format} {m : Nat}
    (hd : decode w = .ok i) (hF : i.bufferFormat = some F) :
    validateWord p base len idx w = .ok m ↔
      checkLength p len.toNat = .ok m ∧ checkRegion p F base.toNat m = none ∧ checkArg p i m idx.toNat = none := by
  simp only [validateWord, hd, hF]
  constructor
  · intro h
    split at h
    · cases h
    · rename_i n hlen
      split at h
      · cases h
      · rename_i hregion
        split at h
        · cases h
        · rename_i harg
          cases h
          exact ⟨hlen, hregion, harg⟩
  · rintro ⟨hlen, hregion, harg⟩
    simp only [hlen, hregion, harg]

theorem mem_passCommands {F : Format} {inv lut : Bool} {m : Nat} {i : Instr} (h : i ∈ passCommands F inv lut m) :
    i = .conj F ∨ i = .bitrev F lut ∨ (∃ j < m, i = .stage F lut (j + 1)) ∨ i = .inorm F := by
  cases inv with
  | false =>
    simp only [passCommands, Bool.false_eq_true, if_false, List.mem_cons, List.mem_map, List.mem_range] at h
    rcases h with h | ⟨j, hj, h⟩
    · exact .inr (.inl h)
    · exact .inr (.inr (.inl ⟨j, hj, h.symm⟩))
  | true =>
    simp only [passCommands, if_true, List.mem_cons, List.mem_append, List.mem_map, List.mem_range, List.not_mem_nil,
      or_false] at h
    rcases h with h | (h | ⟨j, hj, h⟩) | h
    · exact .inl h
    · exact .inr (.inl h)
    · exact .inr (.inr (.inl ⟨j, hj, h.symm⟩))
    · exact .inr (.inr (.inr h))

/-- The passes of FFT are well-formed buffer commands of its format whose argument check passes: the stages are 1 to m
(spec/40_commands.md R82). -/
theorem passCommands_legal {F : Format} {inv lut : Bool} {m : Nat} (hm : m < 32) {i : Instr}
    (h : i ∈ passCommands F inv lut m) :
    i.wellFormed = true ∧ i.bufferFormat = some F ∧ ∀ p k, checkArg p i m k = none := by
  rcases mem_passCommands h with rfl | rfl | ⟨j, hj, rfl⟩ | rfl
  · exact ⟨rfl, rfl, fun _ _ => rfl⟩
  · exact ⟨rfl, rfl, fun _ _ => rfl⟩
  · exact ⟨decide_eq_true (Nat.lt_of_le_of_lt hj hm), rfl, fun _ _ => if_neg (by omega)⟩
  · exact ⟨rfl, rfl, fun _ _ => rfl⟩

/-- Where FFT validates, each of its passes validates, with the same magnitude (spec/43_transform.md R140). -/
theorem validate_passCommands {s : State} {F : Format} {inv lut : Bool} {m : Nat}
    (hv : s.validate (encode (.fft F inv lut)) = .ok m) {i : Instr} (h : i ∈ passCommands F inv lut m) :
    i.wellFormed = true ∧ s.validate (encode i) = .ok m := by
  obtain ⟨hlen, hregion, -⟩ := (validateWord_buffer_ok (decode_encode (i := .fft F inv lut) rfl) rfl).1 hv
  have hm : m ≤ Config.mmax := checkLength_ok_le hlen
  have hmax := mmax_le
  obtain ⟨hi, hF, harg⟩ := passCommands_legal (by omega) h
  exact ⟨hi, (validateWord_buffer_ok (decode_encode hi) hF).2 ⟨hlen, hregion, harg _ _⟩⟩

/-! A host program that issues commands. -/

/-- ISSUE and WAIT for each command, in order (spec/30_encoding.md R74). -/
def commandLines (l : List Instr) : List HostLine := l.flatMap fun i => [.issue i, .wait]

/-- FFTSEQ and IFFTSEQ issue the passes of FFT (spec/30_encoding.md R73). -/
theorem sequence_eq_commandLines (F : Format) (inv lut : Bool) (m : Nat) :
    (if inv then ifftSeq F lut m else fftSeq F lut m) = commandLines (passCommands F inv lut m) := by
  have hforward : fftSeq F lut m =
      commandLines (.bitrev F lut :: (List.range m).map fun j => .stage F lut (j + 1)) := by
    simp [fftSeq, stageLines, commandLines, List.flatMap_map]
  cases inv with
  | false => exact hforward
  | true => simp [ifftSeq, hforward, commandLines, passCommands]

/-- The two states agree in what validation reads, BUF and the tables. -/
structure SameBuffer (s u : State) : Prop where
  base : u.base = s.base
  len : u.len = s.len
  idx : u.idx = s.idx
  tt : u.tt = s.tt
  pt : u.pt = s.pt
  buf : u.buf = s.buf

theorem SameBuffer.trans {s t u : State} (h : SameBuffer s t) (h' : SameBuffer t u) : SameBuffer s u :=
  ⟨h'.base.trans h.base, h'.len.trans h.len, h'.idx.trans h.idx, h'.tt.trans h.tt, h'.pt.trans h.pt,
    h'.buf.trans h.buf⟩

theorem SameBuffer.validate_eq {s u : State} (h : SameBuffer s u) (w : Word) : u.validate w = s.validate w := by
  simp only [State.validate, h.base, h.len, h.idx]

/-- The bytes a command leaves depend on no latched operand but BASE and the magnitude. -/
theorem bufferRule_congr_latch (i : Instr) {lc lc' : Latched} (hbase : lc'.base = lc.base) (hm : lc'.m = lc.m)
    (swaps : List (Nat × Nat)) (tw : Nat → Nat → TwiddlePair) (b : Buf) :
    bufferRule i lc' swaps tw b = bufferRule i lc swaps tw b := by
  cases i <;> simp only [bufferRule, hbase, hm]

/-- What a command leaves in BUF and the tables depends on BASE, the magnitude, BUF and the tables alone. -/
theorem execRule_sameBuffer (i : Instr) {lc lc' : Latched} {s u : State} (hbase : lc'.base = lc.base)
    (hm : lc'.m = lc.m) (h : SameBuffer s u) : SameBuffer (execRule i lc s) (execRule i lc' u) := by
  rw [execRule_eq, execRule_eq, hm]
  refine { h with tt := ?_, pt := ?_, buf := ?_ }
  · simp only [buildTT_congr h.tt, h.tt]
  · simp only [buildPT_congr h.pt, h.pt]
  · simp only [bufferRule_congr_latch i hbase hm, lookupTwiddles_congr h.tt, lookupSwaps_congr h.pt, h.buf]

/-- A CMD write while IDLE of a word that validates is its acceptance (spec/40_commands.md R77, R79). -/
theorem hostStep_issue_accepted {s : State} {w : Word} {m : Nat} (hidle : s.lc = none) (hv : s.validate w = .ok m) :
    hostStep (.writeReg 4 offCmd (w.setWidth 64)) s = .next (s.noAnswer.accept w m) := by
  have hbusy : s.noAnswer.busy = false := busy_eq_false.2 hidle
  have hvalid : s.noAnswer.validate w = .ok m := hv
  have hissue : s.noAnswer.writeReg w (regAt offCmd) = s.noAnswer.accept w m := by
    simp only [offCmd, regAt, State.writeReg, State.issue, hbusy, hvalid]
    rfl
  rw [hostStep_admitted (x := .writeReg 4 offCmd (w.setWidth 64)) rfl]
  simp only [State.access, busy_eq_false.2 hidle, Bool.false_and]
  simpa using hissue

/-- A step with an input left performs it and leaves the rest. -/
theorem step_consumeInput {s : State} {x : Input} {rest : List Input} (h : s.inputs = x :: rest) :
    step s = performInput x s.consumeInput ∧ s.consumeInput.inputs = rest := by
  have hrest : s.consumeInput = { s with inputs := rest } := by rw [State.consumeInput, h, List.tail_cons]
  rw [step_cons h, hrest]
  exact ⟨rfl, rfl⟩

theorem execRule_inputs (i : Instr) (lc : Latched) (s : State) : (execRule i lc s).inputs = s.inputs := by
  rw [execRule_frame]

theorem execRule_base (i : Instr) (lc : Latched) (s : State) : (execRule i lc s).base = s.base := by
  rw [execRule_frame]

theorem execRule_validate (i : Instr) (lc : Latched) (s : State) (w : Word) :
    (execRule i lc s).validate w = s.validate w := by
  rw [execRule_frame]
  rfl

/-- The ENGINE's turn completes the latched command. -/
theorem step_engine_input {s : State} {i : Instr} {lc : Latched} {rest : List Input} (hlc : s.lc = some lc)
    (hd : decode lc.word = .ok i) (hin : s.inputs = .engine :: rest) :
    ∃ t, step s = .next t ∧ t.lc = none ∧ t.inputs = rest ∧ SameBuffer (execRule i lc s) t := by
  obtain ⟨hstep, hleft⟩ := step_consumeInput hin
  have hturn : engineTurn s.consumeInput = .next (execRule i lc s.consumeInput).complete :=
    (engineTurn_latched (s := s.consumeInput) hlc hd).trans (exec_latched i hlc)
  have hsame : SameBuffer (execRule i lc s) (execRule i lc s.consumeInput) :=
    execRule_sameBuffer i rfl rfl ⟨rfl, rfl, rfl, rfl, rfl, rfl⟩
  exact ⟨_, hstep.trans hturn, rfl, (execRule_inputs i lc _).trans hleft, { hsame with }⟩

/-- WAIT for a latched command: the ENGINE runs it, and the read of STATUS leaves what it left
(spec/30_encoding.md R74). -/
theorem run_wait {s : State} {i : Instr} {lc : Latched} {rest : List Input} (hlc : s.lc = some lc)
    (hd : decode lc.word = .ok i) (hin : s.inputs = HostLine.wait.inputs ++ rest) (k : Nat) :
    ∃ u, core.run (k + 2) s = core.run k u ∧ u.lc = none ∧ u.inputs = rest ∧
      SameBuffer (execRule i lc s) u := by
  obtain ⟨t, hturn, hidle, hleft, hsame⟩ := step_engine_input hlc hd hin
  have hread := (step_cons hleft).trans (hostStep_readReg rfl rfl)
  exact ⟨_, (run_of_step hturn _).trans (run_of_step hread k), hidle, rfl, { hsame with }⟩

/-- ISSUE of a command that validates, and WAIT: three steps, which leave in BUF and the tables what its rule leaves. -/
theorem run_issue_wait {s : State} {i : Instr} {m : Nat} {rest : List Input} (hidle : s.lc = none)
    (hin : s.inputs = programInputs [.issue i, .wait] ++ rest) (hi : i.wellFormed = true)
    (hv : s.validate (encode i) = .ok m) (k : Nat) :
    ∃ u, core.run (k + 3) s = core.run k u ∧ u.lc = none ∧ u.inputs = rest ∧
      SameBuffer (execRule i (s.latch (encode i) m) s) u := by
  obtain ⟨hstep, hleft⟩ := step_consumeInput hin
  have hissue : step s = .next (s.consumeInput.noAnswer.accept (encode i) m) :=
    hstep.trans (hostStep_issue_accepted (s := s.consumeInput) hidle hv)
  obtain ⟨u, hrun, hlc, hinputs, hsame⟩ := run_wait (s := s.consumeInput.noAnswer.accept (encode i) m)
    (accept_lc _ _ _) (decode_encode hi) hleft k
  have haccept : SameBuffer (execRule i (s.latch (encode i) m) s)
      (execRule i (s.latch (encode i) m) (s.consumeInput.noAnswer.accept (encode i) m)) :=
    execRule_sameBuffer i rfl rfl ⟨rfl, rfl, rfl, rfl, rfl, rfl⟩
  exact ⟨u, (run_of_step hissue _).trans hrun, hlc, hinputs, haccept.trans hsame⟩

/-- A program that issues commands that all validate leaves in BUF and the tables what their rules leave one after
another, on operands latched with the same BASE and magnitude. -/
theorem run_commandLines {l : List Instr} {s u : State} {lc : Latched} (hidle : u.lc = none)
    (hin : u.inputs = programInputs (commandLines l)) (hsame : SameBuffer s u) (hbase : lc.base = s.base)
    (hl : ∀ i ∈ l, i.wellFormed = true ∧ s.validate (encode i) = .ok lc.m) :
    ∃ t : State, core.run (programInputs (commandLines l)).length u = .next t ∧ t.lc = none ∧
      SameBuffer (runRules lc l s) t := by
  induction l generalizing s u with
  | nil => exact ⟨u, rfl, hidle, hsame⟩
  | cons i l ih =>
    obtain ⟨hi, hv⟩ := hl i List.mem_cons_self
    obtain ⟨v, hrun, hvidle, hvin, hleft⟩ := run_issue_wait (rest := programInputs (commandLines l)) hidle hin hi
      ((hsame.validate_eq _).trans hv) (programInputs (commandLines l)).length
    have hnext : SameBuffer (execRule i lc s) v :=
      (execRule_sameBuffer i (lc' := u.latch (encode i) lc.m) (hsame.base.trans hbase.symm) rfl hsame).trans hleft
    obtain ⟨t, hrunt, ht⟩ := ih hvidle hvin hnext (hbase.trans (execRule_base i lc s).symm) fun j hj => by
      rw [execRule_validate]
      exact hl j (List.mem_cons_of_mem i hj)
    exact ⟨t, hrun.trans hrunt, ht⟩

/-- Settles O41: both programs issue commands that validate, and the rules of the passes one after another are FFT's. -/
theorem hostSequenceEqualsFft : Obligations.HostSequenceEqualsFft := by
  unfold Obligations.HostSequenceEqualsFft
  intro s F inv lut m hidle hm hv
  rw [sequence_eq_commandLines]
  have hrun (l : List Instr) := run_commandLines (l := l) (s := s)
    (u := { s with inputs := programInputs (commandLines l) }) (lc := s.latch (encode (.fft F inv lut)) m) hidle rfl
    ⟨rfl, rfl, rfl, rfl, rfl, rfl⟩ rfl
  obtain ⟨t, hfft, htidle, ht⟩ := hrun [.fft F inv lut] (by simpa using ⟨rfl, hv⟩)
  obtain ⟨t', hseq, htidle', ht'⟩ := hrun (passCommands F inv lut m) fun i hi => validate_passCommands hv hi
  have hpasses : runRules _ (passCommands F inv lut m) s = runRules _ [.fft F inv lut] s :=
    runRules_passCommands F inv lut (s.latch (encode (.fft F inv lut)) m) s hm
  rw [hpasses] at ht'
  have hbuf : t.buf = t'.buf := ht.buf.trans ht'.buf.symm
  exact ⟨t, t', hfft, hseq, fun a => by rw [hbuf], ht.tt.trans ht'.tt.symm, ht.pt.trans ht'.pt.symm, htidle,
    htidle'⟩

end Sys2Proof.Machine
end

section
/-! SUPPORT. The life of a command (spec/40_commands.md): the length check, a rejected and an accepted CMD write, the
ENGINE's step, and completion within the inputs to come. -/

namespace Sys2Proof.Machine

/-! The logarithms of R80 and the length check. -/

theorem floorLog2_of_pos {n : Nat} (h : 1 ≤ n) : floorLog2 n = Nat.log2 n := if_neg (Nat.ne_of_gt h)

theorem floorLog2_two_pow (m : Nat) : floorLog2 (2 ^ m) = m := by
  rw [floorLog2_of_pos Nat.one_le_two_pow, Nat.log2_two_pow]

theorem ceilLog2_two_pow (m : Nat) : ceilLog2 (2 ^ m) = m := by
  rw [ceilLog2, if_neg (Nat.two_pow_pos m).ne', Nat.log2_two_pow, if_pos rfl]

/-- Between two powers of two, ceilLog2 is the exponent of the upper one. -/
theorem ceilLog2_of_not_pow {n : Nat} (h : 1 ≤ n) (hn : 2 ^ Nat.log2 n ≠ n) : ceilLog2 n = (Nat.log2 n + 1 : Nat) := by
  rw [ceilLog2, if_neg (Nat.ne_of_gt h), if_neg hn, Nat.cast_succ]

/-- floorLog2 is the largest exponent of a power of two that is not above n. -/
theorem floorLog2_spec {n : Nat} (h : 1 ≤ n) :
    ∃ e : Nat, floorLog2 n = e ∧ 2 ^ e ≤ n ∧ ∀ d : Nat, 2 ^ d ≤ n → d ≤ e :=
  have hn : n ≠ 0 := Nat.ne_of_gt h
  ⟨Nat.log2 n, floorLog2_of_pos h, Nat.log2_self_le hn, fun _ => (Nat.le_log2 hn).2⟩

/-- ceilLog2 is the smallest exponent of a power of two that is not below n. -/
theorem ceilLog2_spec {n : Nat} (h : 1 ≤ n) :
    ∃ e : Nat, ceilLog2 n = e ∧ n ≤ 2 ^ e ∧ ∀ d : Nat, n ≤ 2 ^ d → e ≤ d := by
  by_cases hn : 2 ^ Nat.log2 n = n
  · rw [← hn]
    exact ⟨Nat.log2 n, ceilLog2_two_pow _, le_rfl, fun d => (Nat.pow_le_pow_iff_right Nat.one_lt_two).1⟩
  · have hlow : 2 ^ Nat.log2 n < n := lt_of_le_of_ne (Nat.log2_self_le (Nat.ne_of_gt h)) hn
    refine ⟨Nat.log2 n + 1, ceilLog2_of_not_pow h hn, Nat.lt_log2_self.le, fun d hd => ?_⟩
    exact (Nat.pow_lt_pow_iff_right Nat.one_lt_two).1 (hlow.trans_le hd)

theorem isPowerOfTwo_iff_logs {n : Nat} (h : 1 ≤ n) : isPowerOfTwo n = true ↔ floorLog2 n = ceilLog2 n := by
  simp [isPowerOfTwo, h]

/-- isPowerOfTwo holds of the powers of two alone. -/
theorem isPowerOfTwo_iff (n : Nat) : isPowerOfTwo n = true ↔ ∃ m, n = 2 ^ m := by
  constructor
  · intro h
    have hpos : 1 ≤ n := of_decide_eq_true (Bool.and_eq_true_iff.1 h).1
    by_contra hne
    have hn : 2 ^ Nat.log2 n ≠ n := fun heq => hne ⟨_, heq.symm⟩
    have hlogs := (isPowerOfTwo_iff_logs hpos).1 h
    rw [floorLog2_of_pos hpos, ceilLog2_of_not_pow hpos hn] at hlogs
    omega
  · rintro ⟨m, rfl⟩
    rw [isPowerOfTwo_iff_logs Nat.one_le_two_pow, floorLog2_two_pow, ceilLog2_two_pow]

theorem checkLength_odd (p : Params) {L : Nat} (h : L % 2 = 1) : checkLength p L = .error .lenOdd := if_pos h

/-- An even length that is twice no power of two, 0 included, is LEN_POW2. -/
theorem checkLength_even_not_pow (p : Params) {L : Nat} (h : L % 2 = 0) (hne : ∀ m, L ≠ 2 * 2 ^ m) :
    checkLength p L = .error .lenPow2 := by
  have hpow : ¬ isPowerOfTwo (L / 2) = true := by
    rw [isPowerOfTwo_iff]
    rintro ⟨m, hm⟩
    exact hne m (by omega)
  rw [checkLength, if_neg (by omega), if_pos hpow]

/-- The length of 2^m elements is judged by its magnitude m. -/
theorem checkLength_two_pow (p : Params) (m : Nat) :
    checkLength p (2 * 2 ^ m) = if p.mmax < m then .error .magRange else .ok m := by
  have hpow : ¬ ¬ isPowerOfTwo (2 ^ m) = true := not_not.2 ((isPowerOfTwo_iff _).2 ⟨m, rfl⟩)
  rw [checkLength, if_neg (by omega), Nat.mul_div_cancel_left _ Nat.two_pos, if_neg hpow, floorLog2_two_pow,
    Int.toNat_natCast]

/-- Settles O6: the helpers by the powers of two around n, the length check by its three cases of L. -/
theorem lengthCheckReportsTheFirstCause : Obligations.LengthCheckReportsTheFirstCause := by
  unfold Obligations.LengthCheckReportsTheFirstCause
  refine ⟨⟨rfl, rfl, rfl⟩, fun n h => ⟨floorLog2_spec h, ceilLog2_spec h, isPowerOfTwo_iff_logs h⟩, fun p L =>
    ⟨checkLength_odd p, checkLength_even_not_pow p, ?_, ?_⟩⟩
  · rintro m rfl hm
    rw [checkLength_two_pow, if_pos hm]
  · rintro m rfl hm
    rw [checkLength_two_pow, if_neg (Nat.not_lt.2 hm)]

/-! A CMD write while IDLE. -/

/-- A word that decodes carries the OP of its command. -/
theorem opField_of_decode {w : Word} {i : Instr} (h : decode w = .ok i) : opField w = i.opcode := by
  obtain ⟨hundefined, hbad, hgood⟩ := everyWordIsOneCommandOrAnError w
  have hop : (opField w).toNat < 0xB := Nat.lt_of_not_le fun hop => nomatch h.symm.trans (hundefined hop)
  have hfields : fieldsAllowed w := not_not.1 fun hfields => nomatch h.symm.trans (hbad hop hfields)
  obtain ⟨i', hd, hopcode, -⟩ := hgood hop hfields
  obtain rfl : i = i' := by simpa [h] using hd
  exact hopcode.symm

/-- OP 1 to 5 are the commands with an element format (spec/00_scope.md R12). -/
theorem isBufferOp_of_decode {w : Word} {i : Instr} (h : decode w = .ok i) : isBufferOp w = i.bufferFormat.isSome := by
  rw [isBufferOp, opField_of_decode h]
  cases i <;> rfl

/-- A CMD write while IDLE issues the word (spec/40_commands.md R77). -/
theorem hostStep_issue_idle {s : State} (w : Word) (hidle : s.lc = none) :
    hostStep (.writeReg 4 offCmd (w.setWidth 64)) s = .next (s.noAnswer.issue w) := by
  rw [hostStep_admitted (x := .writeReg 4 offCmd (w.setWidth 64)) rfl]
  simp only [State.access, busy_eq_false.2 hidle, Bool.false_and, Bool.false_eq_true, if_false]
  rw [BitVec.setWidth_setWidth_of_le w (by decide), BitVec.setWidth_eq]
  rfl

/-- A word that does not validate is rejected where it is issued while IDLE (spec/40_commands.md R78). -/
theorem issue_rejected {s : State} {w : Word} {c : ErrCode} (hidle : s.lc = none) (hv : s.validate w = .error c) :
    s.issue w = s.reject c := by
  simp only [State.issue, busy_eq_false.2 hidle, hv, Bool.false_eq_true, if_false]

/-- Settles O8: the step is the write of CMD, which rejects. -/
theorem rejectionRecordsTheErrorAndNothingElse : Obligations.RejectionRecordsTheErrorAndNothingElse := by
  unfold Obligations.RejectionRecordsTheErrorAndNothingElse
  intro s rest w c hin hidle hv
  have hwrite := hostStep_issue_idle (s := { s with inputs := rest }) w hidle
  exact (step_cons hin).trans (hwrite.trans (congrArg _ (issue_rejected hidle hv)))

/-- Settles O9: the step is the write of CMD, which accepts; MAG's condition is the command's own. -/
theorem acceptanceLatchesTheOperands : Obligations.AcceptanceLatchesTheOperands := by
  unfold Obligations.AcceptanceLatchesTheOperands
  intro s rest w m i hin hidle hv hd
  rw [← isBufferOp_of_decode hd]
  exact (step_cons hin).trans (hostStep_issue_accepted (s := { s with inputs := rest }) hidle hv)

/-! The ENGINE's step and completion. -/

/-- Settles O4: the ENGINE's turn, with no input left or with its own input consumed. -/
theorem stepRunsTheLatchedCommand : Obligations.StepRunsTheLatchedCommand := by
  unfold Obligations.StepRunsTheLatchedCommand
  intro s lc i hlc hd
  refine ⟨fun hin => ?_, fun rest hin => ?_⟩
  · exact (step_nil hin).trans (engineTurn_latched hlc hd)
  · exact (step_cons hin).trans (engineTurn_latched (s := { s with inputs := rest }) hlc hd)

/-- Settles O20: NOP's rule leaves the state as it is. -/
theorem nopOnlyCompletes : Obligations.NopOnlyCompletes := fun _ _ hlc => exec_latched .nop hlc

/-- The ENGINE's turn completes the latched command of a state that meets the invariant. -/
theorem run_engineNext {s : State} (h : Inv s) (hbusy : s.lc ≠ none) (hturn : s.engineNext) :
    ∃ t, core.run 1 s = .next t ∧ t.lc = none ∧ t.done = true := by
  obtain ⟨lc, hlc⟩ := Option.ne_none_iff_exists'.1 hbusy
  obtain ⟨i, hd, -⟩ := validateWord_ok (h.latchValid lc hlc)
  obtain ⟨hnil, hcons⟩ := stepRunsTheLatchedCommand s lc i hlc hd
  rcases hturn with hin | ⟨rest, hin⟩
  · exact ⟨_, run_of_step ((hnil hin).trans (exec_latched i hlc)) 0, rfl, rfl⟩
  · exact ⟨_, run_engine_turn hlc hd hin, rfl, rfl⟩

/-- An input that is neither refused nor reset is the ENGINE's turn or an admitted host access. -/
theorem engine_or_hostInput {x : Input} (hadm : x.admitted) (hr : x ≠ .reset) : x = .engine ∨ HostInput x := by
  cases x with
  | host y => exact .inr (.inl ⟨y, rfl, (admitted_iff_allowed y).1 hadm⟩)
  | bus y => exact .inr (.inr ⟨y, rfl, fun z hz => (admitted_iff_allowed z).1 (hadm z hz)⟩)
  | engine => exact .inl rfl
  | reset => exact absurd rfl hr

/-- Settles O45: by induction on the inputs to come. A host access leaves the command latched and the invariant kept; the
ENGINE's turn, which comes at the latest when no input is left, completes the command. -/
theorem busyCommandCompletes : Obligations.BusyCommandCompletes := by
  unfold Obligations.BusyCommandCompletes
  intro s h hbusy hadm hnoReset
  induction hin : s.inputs generalizing s with
  | nil =>
    obtain ⟨t, hrun, ht⟩ := run_engineNext h hbusy (.inl hin)
    exact ⟨1, t, le_rfl, hrun, ht⟩
  | cons x rest ih =>
    rw [hin] at hadm hnoReset
    rcases engine_or_hostInput (hadm x List.mem_cons_self) (hnoReset x List.mem_cons_self) with rfl | hx
    · obtain ⟨t, hrun, ht⟩ := run_engineNext h hbusy (.inr ⟨rest, hin⟩)
      exact ⟨1, t, Nat.le_add_left _ _, hrun, ht⟩
    · obtain ⟨u, hperform, hrest, hsame⟩ := performInput_host (s := { s with inputs := rest }) hx hbusy
      have hstep : step s = .next u := (step_cons hin).trans hperform
      have hmem (y : Input) (hy : y ∈ u.inputs) : y ∈ x :: rest := List.mem_cons_of_mem x (by rwa [hrest] at hy)
      obtain ⟨k, t, hk, hrun, ht⟩ := ih u (stepKeepsTheInvariant s u h hstep) (hsame.lc ▸ hbusy)
        (fun y hy => hadm y (hmem y hy)) (fun y hy => hnoReset y (hmem y hy)) hrest
      exact ⟨k + 1, t, Nat.succ_le_succ hk, (run_of_step hstep k).trans hrun, ht⟩

end Sys2Proof.Machine
end

section
/-! SUPPORT. The bit reverser bit by bit, and the swap list it gives: its order, its members and their number
(spec/41_lookup_tables.md R97, R98, R105). -/

namespace Sys2Proof.Machine

/-! The bit reverser. -/

theorem testBit_above {m k i : Nat} (h : k < 2 ^ m) (hi : m ≤ i) : k.testBit i = false :=
  Nat.testBit_lt_two_pow (h.trans_le (Nat.pow_le_pow_right two_pos hi))

/-- Reversing a position twice restores it. -/
theorem reversed_position {m i : Nat} (hi : i < m) : m - 1 - i < m ∧ m - 1 - (m - 1 - i) = i := by omega

/-- The sum of bitRev with its terms in the order of the bits of the result. -/
theorem bitRev_eq_sum_bits (m k : Nat) :
    bitRev m k = ((List.range m).map fun i => (k.testBit (m - 1 - i)).toNat * 2 ^ i).sum := by
  have hreflect := Finset.sum_range_reflect (fun i => (k.testBit (m - 1 - i)).toNat * 2 ^ i) m
  change (∑ b ∈ Finset.range m, k / 2 ^ b % 2 * 2 ^ (m - 1 - b)) = _
  refine Eq.trans (Finset.sum_congr rfl fun b hb => ?_) hreflect
  have hb := Finset.mem_range.1 hb
  rw [Nat.toNat_testBit, (reversed_position hb).2]

/-- Bit i of rev_m(k) is bit m-1-i of k. -/
theorem testBit_bitRev (m k i : Nat) : (bitRev m k).testBit i = (decide (i < m) && k.testBit (m - 1 - i)) := by
  rw [bitRev_eq_sum_bits]
  exact (testBit_sum_bits (fun i => k.testBit (m - 1 - i)) m).2 i

theorem bitRev_bitRev {m k : Nat} (h : k < 2 ^ m) : bitRev m (bitRev m k) = k := by
  apply Nat.eq_of_testBit_eq
  intro i
  rw [testBit_bitRev, testBit_bitRev]
  by_cases hi : i < m
  · obtain ⟨hrev, hback⟩ := reversed_position hi
    simp [hi, hback, hrev]
  · simp [hi, testBit_above h (Nat.le_of_not_lt hi)]

@[simp] theorem bitRev_zero (m : Nat) : bitRev m 0 = 0 := by
  apply Nat.eq_of_testBit_eq
  simp [testBit_bitRev]

/-- Settles O58: bit by bit, with the positions reversed twice. -/
theorem bitReversalIsAnInvolution : Obligations.BitReversalIsAnInvolution := by
  unfold Obligations.BitReversalIsAnInvolution
  refine ⟨bitRev_zero 0, fun m k hk => ⟨bitRev_lt m k, bitRev_bitRev hk, fun b hb => ?_⟩⟩
  obtain ⟨hrev, hback⟩ := reversed_position hb
  rw [testBit_bitRev, hback, decide_eq_true hrev, Bool.true_and]

/-! The swap list. -/

theorem mem_swapPairs {m i r : Nat} : (i, r) ∈ swapPairs m ↔ i < 2 ^ m ∧ i < bitRev m i ∧ r = bitRev m i := by
  simp only [swapPairs, List.mem_map, List.mem_filter, List.mem_range, decide_eq_true_eq, Prod.mk.injEq]
  constructor
  · rintro ⟨_, ⟨hi, hlt⟩, rfl, rfl⟩
    exact ⟨hi, hlt, rfl⟩
  · rintro ⟨hi, hlt, rfl⟩
    exact ⟨i, ⟨hi, hlt⟩, rfl, rfl⟩

theorem swapPairs_increasing (m : Nat) : (swapPairs m).Pairwise fun p q => p.1 < q.1 :=
  List.pairwise_map.2 (List.pairwise_lt_range.filter _)

/-- The indices below 2^m that the bit reverser moves up. -/
def movedUp (m : Nat) : Finset Nat := {i ∈ Finset.range (2 ^ m) | i < bitRev m i}

/-- The indices below 2^m that the bit reverser moves down. -/
def movedDown (m : Nat) : Finset Nat := {i ∈ Finset.range (2 ^ m) | bitRev m i < i}

/-- The indices below 2^m that the bit reverser leaves: their m bits are a palindrome. -/
def palindromes (m : Nat) : Finset Nat := {i ∈ Finset.range (2 ^ m) | bitRev m i = i}

theorem mem_movedUp {m i : Nat} : i ∈ movedUp m ↔ i < 2 ^ m ∧ i < bitRev m i := by simp [movedUp]

theorem mem_movedDown {m i : Nat} : i ∈ movedDown m ↔ i < 2 ^ m ∧ bitRev m i < i := by simp [movedDown]

theorem mem_palindromes {m i : Nat} : i ∈ palindromes m ↔ i < 2 ^ m ∧ bitRev m i = i := by simp [palindromes]

theorem length_swapPairs (m : Nat) : (swapPairs m).length = (movedUp m).card := List.length_map _

/-- The bit reverser exchanges the indices it moves up with those it moves down. -/
theorem card_movedDown (m : Nat) : (movedDown m).card = (movedUp m).card := by
  refine Finset.card_bij' (fun i _ => bitRev m i) (fun i _ => bitRev m i) (fun i hi => ?_) (fun i hi => ?_)
    (fun i hi => bitRev_bitRev (mem_movedDown.1 hi).1) (fun i hi => bitRev_bitRev (mem_movedUp.1 hi).1)
  · obtain ⟨hlt, hmoved⟩ := mem_movedDown.1 hi
    exact mem_movedUp.2 ⟨bitRev_lt m i, by rwa [bitRev_bitRev hlt]⟩
  · obtain ⟨hlt, hmoved⟩ := mem_movedUp.1 hi
    exact mem_movedDown.2 ⟨bitRev_lt m i, by rwa [bitRev_bitRev hlt]⟩

/-- Every index is moved up, moved down or left. -/
theorem card_moved_or_left (m : Nat) : (movedUp m).card + (movedDown m).card + (palindromes m).card = 2 ^ m := by
  simp only [movedUp, movedDown, palindromes, Finset.card_filter, ← Finset.sum_add_distrib]
  calc _ = ∑ _i ∈ Finset.range (2 ^ m), 1 := Finset.sum_congr rfl fun i _ => by split_ifs <;> omega
    _ = 2 ^ m := by simp

/-- The bits of l together with the same bits reversed: for l in the lower half, a palindrome. -/
theorem testBit_or_bitRev (m l i : Nat) :
    (l ||| bitRev m l).testBit i = (l.testBit i || (decide (i < m) && l.testBit (m - 1 - i))) := by
  rw [Nat.testBit_or, testBit_bitRev]

theorem or_bitRev_mem_palindromes {m l : Nat} (h : l < 2 ^ m) : l ||| bitRev m l ∈ palindromes m := by
  refine mem_palindromes.2 ⟨Nat.or_lt_two_pow h (bitRev_lt m l), Nat.eq_of_testBit_eq fun i => ?_⟩
  rw [testBit_bitRev, testBit_or_bitRev, testBit_or_bitRev]
  by_cases hi : i < m
  · obtain ⟨hrev, hback⟩ := reversed_position hi
    simp [hi, hback, hrev, Bool.or_comm]
  · simp [hi, testBit_above h (Nat.le_of_not_lt hi)]

/-- The lower half of the palindrome made from l is l. -/
theorem or_bitRev_mod {m l : Nat} (h : l < 2 ^ ((m + 1) / 2)) : (l ||| bitRev m l) % 2 ^ ((m + 1) / 2) = l := by
  apply Nat.eq_of_testBit_eq
  intro i
  rw [Nat.testBit_mod_two_pow, testBit_or_bitRev]
  by_cases hi : i < (m + 1) / 2
  · rcases Nat.lt_or_ge (m - 1 - i) ((m + 1) / 2) with hmid | hupper
    · have hi' : m - 1 - i = i := by omega
      simp [hi, hi']
    · simp [hi, testBit_above h hupper]
  · simp [hi, testBit_above h (Nat.le_of_not_lt hi)]

/-- A palindrome is made from its lower half. -/
theorem mod_or_bitRev {m k : Nat} (h : k ∈ palindromes m) :
    k % 2 ^ ((m + 1) / 2) ||| bitRev m (k % 2 ^ ((m + 1) / 2)) = k := by
  obtain ⟨hlt, hpal⟩ := mem_palindromes.1 h
  apply Nat.eq_of_testBit_eq
  intro i
  have hbit : k.testBit i = (decide (i < m) && k.testBit (m - 1 - i)) := by rw [← testBit_bitRev, hpal]
  rw [testBit_or_bitRev, Nat.testBit_mod_two_pow, Nat.testBit_mod_two_pow, Bool.and_left_comm, ← hbit,
    ← Bool.and_or_distrib_right]
  by_cases hi : i < m
  · have hhalf : i < (m + 1) / 2 ∨ m - 1 - i < (m + 1) / 2 := by omega
    simp [hhalf]
  · simp [testBit_above hlt (Nat.le_of_not_lt hi)]

/-- A palindrome of m bits is fixed by its lower ceil(m/2) bits. -/
theorem card_palindromes (m : Nat) : (palindromes m).card = 2 ^ ((m + 1) / 2) := by
  rw [← Finset.card_range (2 ^ ((m + 1) / 2))]
  refine Finset.card_bij' (fun k _ => k % 2 ^ ((m + 1) / 2)) (fun l _ => l ||| bitRev m l) (fun k _ => ?_)
    (fun l hl => ?_) (fun k hk => mod_or_bitRev hk) (fun l hl => or_bitRev_mod (Finset.mem_range.1 hl))
  · exact Finset.mem_range.2 (Nat.mod_lt k (Nat.two_pow_pos _))
  · exact or_bitRev_mem_palindromes ((Finset.mem_range.1 hl).trans_le (Nat.pow_le_pow_right two_pos (by omega)))

/-- Settles O59: as many indices are moved up as down, and the others are the palindromes. -/
theorem swapTableSize : Obligations.SwapTableSize := by
  unfold Obligations.SwapTableSize
  intro m
  have hall := card_moved_or_left m
  rw [card_movedDown, card_palindromes] at hall
  rw [length_swapPairs]
  omega

end Sys2Proof.Machine
end

section
/-! SUPPORT. The laws of the twiddle generator, the table commands, and the agreement of live and LUT mode
(spec/41_lookup_tables.md R92, R96, R98 to R103). -/

namespace Sys2Proof.Machine

/-! The generator. -/

/-- Exponent and fraction bits up to those of 2^(fpFrac + e) quanta stand for at most as many. -/
theorem fpMagQuanta_le_two_pow (P : Prec) {mag e : Nat} (h : mag ≤ (e + 1) * 2 ^ fpFrac P) :
    fpMagQuanta P mag ≤ 2 ^ (fpFrac P + e) := by
  rcases subnormal_or_normal P mag with hsub | ⟨d, g, hg, rfl⟩
  · rw [fpMagQuanta_subnormal P hsub]
    exact hsub.le.trans (Nat.pow_le_pow_right two_pos (Nat.le_add_right _ _))
  · rw [fpMagQuanta_normal P d hg]
    have hde : d + 1 ≤ e + 1 := Nat.le_of_mul_le_mul_right (by omega) (Nat.two_pow_pos (fpFrac P))
    rcases Nat.lt_or_eq_of_le (Nat.le_of_succ_le_succ hde) with hlt | rfl
    · calc (2 ^ fpFrac P + g) * 2 ^ d ≤ 2 ^ (fpFrac P + 1) * 2 ^ d :=
            Nat.mul_le_mul_right _ (by rw [Nat.pow_succ]; omega)
        _ = 2 ^ (fpFrac P + 1 + d) := (Nat.pow_add _ _ _).symm
        _ ≤ 2 ^ (fpFrac P + e) := Nat.pow_le_pow_right two_pos (by omega)
    · have hzero : g = 0 := by omega
      rw [hzero, Nat.add_zero, ← Nat.pow_add]

/-- A magnitude of at most that of 1.0 stands for at most 2^1074 quanta. -/
theorem fpMagQuanta_le_one {mag : Nat} (h : mag ≤ twOneMag) : fpMagQuanta .p64 mag ≤ 2 ^ 1074 := by
  have hle : fpMagQuanta .p64 mag ≤ 2 ^ (fpFrac .p64 + 1022) := fpMagQuanta_le_two_pow .p64 h
  rwa [show fpFrac .p64 + 1022 = 1074 from rfl] at hle

/-- A component of a generator's value is finite and at most 1 in magnitude. -/
theorem twiddleComponent_finite (neg : Bool) {mag : Nat} (h : mag ≤ twOneMag) :
    fpIsFinite .p64 (fpPack .p64 neg mag) = true ∧ fpQuanta .p64 (fpPack .p64 neg mag) ≤ 2 ^ 1074 := by
  have htop : twOneMag < fpInfMag .p64 := by decide
  have hmag := fpMag_fpPack .p64 neg mag ((h.trans_lt htop).trans (fpInfMag_lt_top .p64))
  rw [fpIsFinite, fpQuanta, hmag]
  exact ⟨decide_eq_true (h.trans_lt htop), fpMagQuanta_le_one h⟩

/-- TW-FINITE (spec/41_lookup_tables.md R92). -/
theorem tw64_finite (k m : Nat) :
    (fpIsFinite .p64 (tw64 k m).sin = true ∧ fpQuanta .p64 (tw64 k m).sin ≤ 2 ^ 1074) ∧
    (fpIsFinite .p64 (tw64 k m).cos = true ∧ fpQuanta .p64 (tw64 k m).cos ≤ 2 ^ 1074) := by
  rw [tw64, twiddleOf]
  split
  · exact ⟨twiddleComponent_finite false (Nat.zero_le _), twiddleComponent_finite false le_rfl⟩
  · exact ⟨twiddleComponent_finite _ (Nat.min_le_right _ _), twiddleComponent_finite _ (Nat.min_le_right _ _)⟩

theorem lowestTerms_zero (m : Nat) : lowestTerms m 0 = (0, 0) := by
  induction m with
  | zero => rfl
  | succ m ih => rw [lowestTerms, if_pos rfl, Nat.zero_div, ih]

/-- TW-ZERO (spec/41_lookup_tables.md R92). -/
theorem tw64_zero (m : Nat) : tw64 0 m = ⟨0x0000000000000000, 0x3FF0000000000000⟩ := by
  rw [tw64, twiddleOf, lowestTerms_zero]
  rfl

/-- Settles O57: the angle 0, the fraction in lowest terms, and the bound on each component. -/
theorem twiddleLawsHold : Obligations.TwiddleLawsHold := by
  unfold Obligations.TwiddleLawsHold
  refine ⟨fun m _ => tw64_zero m, fun k m a _ => twiddleOf_scale _ m k a, fun k m => ?_⟩
  obtain ⟨⟨hsin, hsinLe⟩, hcos, hcosLe⟩ := tw64_finite k m
  exact ⟨hsin, hsinLe, hcos, hcosLe⟩

/-! The table commands. -/

theorem length_twiddleTable (m : Nat) : (twiddleTable m).length = if m = 0 then 0 else 2 ^ (m - 1) := by
  unfold twiddleTable
  split
  · rfl
  · rw [List.length_map, List.length_range]

theorem getElem?_twiddleTable {m k : Nat} (h : k < (twiddleTable m).length) :
    (twiddleTable m)[k]? = some (tw64 k m) := by
  have hsome := List.getElem?_eq_getElem h
  rw [hsome, twiddleTable_getElem? hsome]

/-- Settles O21: the cache after buildTT, whose new table lists the generator's values. -/
theorem twgenBuildsTheTwiddleTable : Obligations.TwgenBuildsTheTwiddleTable := by
  unfold Obligations.TwgenBuildsTheTwiddleTable
  intro s lc m hlc
  refine ⟨(s.buildTT m).tt, (findKey s.tt m).getD (twiddleTable m), ?_, (findKey_buildTT s m m).trans (if_pos rfl),
    fun old hold => by rw [hold, Option.getD_some], fun hnone => ?_,
    fun k hk => (findKey_buildTT s m k).trans (if_neg hk)⟩
  · rw [exec_latched _ hlc, execRule, buildTT_eq]
    rfl
  · rw [hnone, Option.getD_none]
    exact ⟨length_twiddleTable m, fun k hk => getElem?_twiddleTable hk⟩

/-- Settles O22: the cache after buildPT, whose new table is the list of swaps. -/
theorem ptgenBuildsTheSwapTable : Obligations.PtgenBuildsTheSwapTable := by
  unfold Obligations.PtgenBuildsTheSwapTable
  intro s lc m hlc
  refine ⟨(s.buildPT m).pt, (findKey s.pt m).getD (swapPairs m), ?_, (findKey_buildPT s m m).trans (if_pos rfl),
    fun old hold => by rw [hold, Option.getD_some], fun hnone => ?_,
    fun k hk => (findKey_buildPT s m k).trans (if_neg hk)⟩
  · rw [exec_latched _ hlc, execRule, buildPT_eq]
    rfl
  · rw [hnone, Option.getD_none]
    exact ⟨swapPairs_increasing m, fun i r => mem_swapPairs⟩

/-! Live and LUT mode. -/

/-- The mode of a command does not enter its rule for BUF: only the swaps and twiddles it is given do. -/
theorem bufferRule_withLut (i : Instr) (lut : Bool) (lc : Latched) (swaps : List (Nat × Nat))
    (tw : Nat → Nat → TwiddlePair) (b : Buf) :
    bufferRule (i.withLut lut) lc swaps tw b = bufferRule i lc swaps tw b := by
  cases i <;> rfl

/-- BUF after a command on right tables does not depend on its mode or on the tables (spec/41_lookup_tables.md R101). -/
theorem execRule_buf_of_tables (i : Instr) (lc : Latched) {s : State} {tt : List (Nat × List TwiddlePair)}
    {pt : List (Nat × List (Nat × Nat))} (htt : TwiddleTablesRight s.tt) (hpt : SwapTablesRight s.pt)
    (htt' : TwiddleTablesRight tt) (hpt' : SwapTablesRight pt) (lut lut' : Bool) :
    (execRule (i.withLut lut') lc { s with tt := tt, pt := pt }).buf = (execRule (i.withLut lut) lc s).buf := by
  rw [execRule_buf_live _ _ htt hpt, execRule_buf_live _ _ (s := { s with tt := tt, pt := pt }) htt' hpt',
    bufferRule_withLut, bufferRule_withLut]

/-- Y0 after a command on right tables does not depend on its mode or on the tables: TWREAD alone reads one. -/
theorem execRule_y0_of_tables (i : Instr) (lc : Latched) {s : State} {tt : List (Nat × List TwiddlePair)}
    (pt : List (Nat × List (Nat × Nat))) (htt : TwiddleTablesRight s.tt) (htt' : TwiddleTablesRight tt)
    (lut lut' : Bool) :
    (execRule (i.withLut lut') lc { s with tt := tt, pt := pt }).y0 = (execRule (i.withLut lut) lc s).y0 := by
  cases i with
  | twread P _ m =>
    exact (execRule_twread_y0 P lut' m lc (s := { s with tt := tt, pt := pt }) htt').trans
      (execRule_twread_y0 P lut m lc htt).symm
  | _ => rw [execRule_eq, execRule_eq]; rfl

/-- Y1 after a command does not depend on its mode or on the tables. -/
theorem execRule_y1_of_tables (i : Instr) (lc : Latched) (s : State) (tt : List (Nat × List TwiddlePair))
    (pt : List (Nat × List (Nat × Nat))) (lut lut' : Bool) :
    (execRule (i.withLut lut') lc { s with tt := tt, pt := pt }).y1 = (execRule (i.withLut lut) lc s).y1 := by
  rw [execRule_eq, execRule_eq]
  cases i <;> rfl

/-- Settles O35: a command changes Y0, Y1, BUF and the tables only, and the first three do not depend on the tables. -/
theorem liveAndLookupModesAgree : Obligations.LiveAndLookupModesAgree := by
  unfold Obligations.LiveAndLookupModesAgree
  intro i s lc tt pt hlc htt hpt htt' hpt' lut lut'
  refine ⟨_, _, exec_latched _ hlc, exec_latched _ (s := { s with tt := tt, pt := pt }) hlc, ?_⟩
  unfold State.complete
  rw [execRule_frame (i.withLut lut') lc { s with tt := tt, pt := pt }, execRule_frame (i.withLut lut) lc s,
    execRule_buf_of_tables i lc htt hpt htt' hpt' lut lut', execRule_y0_of_tables i lc pt htt htt' lut lut',
    execRule_y1_of_tables i lc s tt pt lut lut']

end Sys2Proof.Machine
end

section
/-! SUPPORT. What STAGE leaves in each element of its buffer (spec/43_transform.md R126 to R129). -/

namespace Sys2Proof.Machine

/-! One stage, element by element. -/

/-- Element k after a stage of half step h on the elements z: the upper or the lower value of the one butterfly that has
it as an operand (spec/43_transform.md R126, R129). -/
def stageValue (P : Prec) (h : Nat) (tw : Nat → Cplx) (z : Nat → Cplx) (k : Nat) : Cplx :=
  if k / h % 2 = 0 then (butterfly P (z k) (z (k + h)) (tw (k % h))).1
  else (butterfly P (z (k - h)) (z k) (tw (k % h))).2

/-- Element k after a stage depends only on the two elements of its own offset and group. -/
theorem stageValue_congr {P : Prec} {h : Nat} {tw : Nat → Cplx} {z z' : Nat → Cplx} {k : Nat}
    (hz : ∀ i, i % h = k % h → i / h / 2 = k / h / 2 → z i = z' i) :
    stageValue P h tw z k = stageValue P h tw z' k := by
  unfold stageValue
  rcases Nat.eq_zero_or_pos h with rfl | hpos
  · simp [hz k rfl rfl]
  · have hnext : (k + h) / h = k / h + 1 := Nat.add_div_right k hpos
    by_cases hupper : k / h % 2 = 0
    · rw [if_pos hupper, if_pos hupper, hz k rfl rfl, hz (k + h) (Nat.add_mod_right k h) (by omega)]
    · rw [if_neg hupper, if_neg hupper]
      have hle : h ≤ k := Nat.le_of_not_lt fun hlt => hupper (by rw [Nat.div_eq_of_lt hlt])
      obtain ⟨i, rfl⟩ := Nat.exists_eq_add_of_le' hle
      have hi : (i + h) / h = i / h + 1 := Nat.add_div_right i hpos
      rw [Nat.add_sub_cancel, hz (i + h) rfl rfl, hz i (Nat.add_mod_right i h).symm (by omega)]

/-- An index is offset o of half step q exactly if it is o + q · h. -/
theorem eq_offset_add_iff {h o q k : Nat} (ho : o < h) : k = o + q * h ↔ k % h = o ∧ k / h = q := by
  constructor
  · rintro rfl
    rw [Nat.add_mul_mod_self_right, Nat.add_mul_div_right _ _ (by omega), Nat.mod_eq_of_lt ho, Nat.div_eq_of_lt ho,
      Nat.zero_add]
    exact ⟨rfl, rfl⟩
  · rintro ⟨rfl, rfl⟩
    rw [Nat.add_comm, Nat.div_add_mod']

section

variable (F : Format) (base h : Nat)

/-- The butterfly of offset o and group g: elements o + 2g · h and o + (2g + 1) · h, by the values before it. -/
theorem loadElem_stagePair_group {o : Nat} (ho : o < h) (g : Nat) (tw : Nat → Cplx) (b : Buf) (k : Nat) :
    loadElem F base k (stagePair F base h (tw o) (o + g * (2 * h)) b) =
      if k % h = o ∧ k / h / 2 = g then stageValue (formatPrec F) h tw (fun i => loadElem F base i b) k
      else loadElem F base k b := by
  have hupper : o + g * (2 * h) = o + 2 * g * h := by ring
  have hlower : o + g * (2 * h) + h = o + (2 * g + 1) * h := by ring
  rw [loadElem_stagePair, hlower, hupper]
  by_cases hl : k = o + (2 * g + 1) * h
  · obtain ⟨hmod, hdiv⟩ := (eq_offset_add_iff ho).1 hl
    have hback : k - h = o + 2 * g * h := by rw [hl, Nat.add_mul]; omega
    rw [if_pos hl, if_pos ⟨hmod, by omega⟩, stageValue, if_neg (by omega), hmod, hback, hl]
  · rw [if_neg hl]
    by_cases hu : k = o + 2 * g * h
    · obtain ⟨hmod, hdiv⟩ := (eq_offset_add_iff ho).1 hu
      have hforth : k + h = o + (2 * g + 1) * h := by rw [hu]; ring
      rw [if_pos hu, if_pos ⟨hmod, by omega⟩, stageValue, if_pos (by omega), hmod, hforth, hu]
    · rw [eq_offset_add_iff ho] at hl hu
      rw [if_neg (by rw [eq_offset_add_iff ho]; exact hu), if_neg (by omega)]

/-- The butterflies of offset o in the first n groups. -/
theorem loadElem_stageGroups {o : Nat} (ho : o < h) (n : Nat) (tw : Nat → Cplx) (b : Buf) (k : Nat) :
    loadElem F base k (forRange n (fun g c => stagePair F base h (tw o) (o + g * (2 * h)) c) b) =
      if k % h = o ∧ k / h / 2 < n then stageValue (formatPrec F) h tw (fun i => loadElem F base i b) k
      else loadElem F base k b := by
  induction n generalizing k with
  | zero => simp
  | succ n ih =>
    rw [forRange_succ, loadElem_stagePair_group F base h ho, ih]
    by_cases hlast : k % h = o ∧ k / h / 2 = n
    · rw [if_pos hlast, if_pos (by omega)]
      exact stageValue_congr fun i hmod hdiv => (ih i).trans (if_neg (by omega))
    · rw [if_neg hlast]
      exact if_congr (by omega) rfl rfl

/-- The butterflies of the first n offsets, in all groups. -/
theorem loadElem_stageOffsets {n : Nat} (hn : n ≤ h) (groups : Nat) (tw : Nat → Cplx) (b : Buf) (k : Nat) :
    loadElem F base k (forRange n (fun o c =>
        forRange groups (fun g c' => stagePair F base h (tw o) (o + g * (2 * h)) c') c) b) =
      if k % h < n ∧ k / h / 2 < groups then stageValue (formatPrec F) h tw (fun i => loadElem F base i b) k
      else loadElem F base k b := by
  induction n generalizing k with
  | zero => simp
  | succ n ih =>
    have ih := ih (by omega)
    rw [forRange_succ, loadElem_stageGroups F base h (by omega), ih]
    by_cases hlast : k % h = n ∧ k / h / 2 < groups
    · rw [if_pos hlast, if_pos (by omega)]
      exact stageValue_congr fun i hmod hdiv => (ih i).trans (if_neg (by omega))
    · rw [if_neg hlast]
      exact if_congr (by omega) rfl rfl

end

theorem two_pow_eq_two_mul {j : Nat} (hj : 1 ≤ j) : 2 ^ j = 2 * 2 ^ (j - 1) := by
  rw [Nat.mul_comm, Nat.two_pow_pred_mul_two hj]

/-- Every element of the buffer after stage j, 1 ≤ j ≤ m (spec/43_transform.md R126, R129). -/
theorem loadElem_stageElems (F : Format) (base : Nat) {m j k : Nat} (hj : 1 ≤ j) (hjm : j ≤ m) (hk : k < 2 ^ m)
    (tw : Nat → Cplx) (b : Buf) :
    loadElem F base k (stageElems F base m j tw b) =
      stageValue (formatPrec F) (2 ^ (j - 1)) tw (fun i => loadElem F base i b) k := by
  have hstep := two_pow_eq_two_mul hj
  have hgroup : k / 2 ^ (j - 1) / 2 < 2 ^ m / 2 ^ j := by
    rw [Nat.div_div_eq_div_mul, Nat.mul_comm, ← hstep]
    exact Nat.div_lt_div_of_lt_of_dvd (Nat.pow_dvd_pow 2 hjm) hk
  have hhalf : 2 ^ j / 2 = 2 ^ (j - 1) := by omega
  have h := loadElem_stageOffsets F base (2 ^ (j - 1)) le_rfl (2 ^ m / 2 ^ j) tw b k
  rw [if_pos ⟨Nat.mod_lt k (Nat.two_pow_pos _), hgroup⟩, ← hstep] at h
  rw [stageElems, hhalf, h]

/-- The two elements of a butterfly: its upper value at index i, its lower value at i + h. -/
theorem stageValue_pair (P : Prec) {h : Nat} (hpos : 0 < h) (tw : Nat → Cplx) (z : Nat → Cplx) {i : Nat}
    (hi : i / h % 2 = 0) :
    (stageValue P h tw z i, stageValue P h tw z (i + h)) = butterfly P (z i) (z (i + h)) (tw (i % h)) := by
  have hnext : (i + h) / h = i / h + 1 := Nat.add_div_right i hpos
  rw [stageValue, stageValue, if_pos hi, if_neg (by omega), Nat.add_sub_cancel, Nat.add_mod_right]

/-- The lower element of a butterfly lies in the buffer with its upper one. -/
theorem add_halfStep_lt {m j i : Nat} (hj : 1 ≤ j) (hjm : j ≤ m) (hi : i < 2 ^ m) (hclear : i / 2 ^ (j - 1) % 2 = 0) :
    i + 2 ^ (j - 1) < 2 ^ m := by
  have hpos := Nat.two_pow_pos (j - 1)
  have hm : 2 ^ m = 2 * 2 ^ (m - j) * 2 ^ (j - 1) := by
    rw [Nat.mul_right_comm, ← two_pow_eq_two_mul hj, ← Nat.pow_add, Nat.add_sub_cancel' hjm]
  rw [hm, ← Nat.div_lt_iff_lt_mul hpos] at hi ⊢
  rw [Nat.add_div_right i hpos]
  omega

/-- The offset of an upper element within its step is its offset within its half step. -/
theorem mod_step_of_clear {j i : Nat} (hj : 1 ≤ j) (hclear : i / 2 ^ (j - 1) % 2 = 0) :
    i % 2 ^ j = i % 2 ^ (j - 1) := by
  rw [two_pow_eq_two_mul hj, Nat.mul_comm, Nat.mod_mul, hclear, Nat.mul_zero, Nat.add_zero]

/-- STAGE on right tables: the butterflies with the live twiddles, and TT[m] built in LUT mode. -/
theorem stagePass_live (F : Format) (lut : Bool) {j : Nat} {lc : Latched} {s : State} (htt : TwiddleTablesRight s.tt)
    (hjm : j ≤ lc.m) :
    stagePass F lut j lc s =
      { s with
        tt := lookupTwiddles lut lc.m s
        buf := stageElems F lc.base.toNat lc.m j (fun o => twiddleFactor (formatPrec F) (tw64 o j)) s.buf } := by
  simp only [← twiddlePair_lookupTwiddles htt lut _ hjm]
  exact stagePass_eq F lut j lc s

/-- Settles O29: every element after the stage, the twiddles of right tables, and the region and tables of the pass. -/
theorem stageAppliesItsButterflies : Obligations.StageAppliesItsButterflies := by
  unfold Obligations.StageAppliesItsButterflies
  intro s lc F lut j hlc htt hj hjm
  refine ⟨stageElems F lc.base.toNat lc.m j (fun o => twiddleFactor (formatPrec F) (tw64 o j)) s.buf,
    lookupTwiddles lut lc.m s, ?_, fun i hi hclear => ?_, ?_, fun hl => by rw [lookupTwiddles, hl]; rfl, fun hl => ?_,
    fun k hk => ?_⟩
  · rw [exec_latched _ hlc, execRule, stagePass_live F lut htt hjm]
    rfl
  · rw [loadElem_stageElems F _ hj hjm hi, loadElem_stageElems F _ hj hjm (add_halfStep_lt hj hjm hi hclear),
      stageValue_pair _ (Nat.two_pow_pos _) _ _ hclear, mod_step_of_clear hj hclear]
  · exact SameOutside.stageElems (fun _ _ => rfl) j _
  · rw [lookupTwiddles, if_pos hl]
    exact findKey_buildTT_right htt lc.m
  · cases lut with
    | false => rfl
    | true => exact (findKey_buildTT s lc.m k).trans (if_neg hk)

end Sys2Proof.Machine
end

section
/-! SUPPORT. The transform of the impulse: a butterfly whose lower operand is zero leaves its upper one on both sides,
so that stage j spreads a block of 2^(j-1) equal elements to one of 2^j (spec/43_transform.md R136). -/

namespace Sys2Proof.Machine

/-! Butterflies with a zero. -/

/-- The value 1. -/
def oneBits : Prec → Dword
  | .p32 => 0x3F800000
  | .p64 => 0x3FF0000000000000

/-- A product with +0 is a zero. -/
theorem fmul_zero_right {P : Prec} {x : Dword} (hx : fpIsFinite P x = true) :
    fmul P x 0 = fpPack P (fpSign P x) 0 := by
  have hzero : fpIsFinite P 0 = true ∧ fpSign P 0 = false ∧ fpQuanta P 0 = 0 := by cases P <;> decide
  have hround : roundMag P 0 (fpQuantum P) = 0 := by cases P <;> decide +kernel
  obtain ⟨hfin, hsign, hquanta⟩ := hzero
  rw [fmul_of_finite hx hfin, hsign, hquanta, Nat.mul_zero, hround, Bool.xor_false]

/-- Sum and difference of two zeros are zeros. -/
theorem sum_of_zeros (P : Prec) (s t : Bool) :
    fadd P (fpPack P s 0) (fpPack P t 0) = fpPack P (s && t) 0 ∧
    fsub P (fpPack P s 0) (fpPack P t 0) = fpPack P (s && !t) 0 := by
  cases P <;> cases s <;> cases t <;> decide +kernel

/-- Adding and subtracting a zero of either sign leaves +0 and 1 as they are. -/
theorem sum_with_zero {P : Prec} {x : Dword} (hx : x = oneBits P ∨ x = 0) (t : Bool) :
    fadd P x (fpPack P t 0) = x ∧ fsub P x (fpPack P t 0) = x := by
  rcases hx with rfl | rfl <;> cases P <;> cases t <;> decide +kernel

/-- A complex value both of whose parts are finite. -/
def CFinite (P : Prec) (z : Cplx) : Prop := fpIsFinite P z.re = true ∧ fpIsFinite P z.im = true

/-- A complex product with +0 has zeros for its parts. -/
theorem cmul_zero_right {P : Prec} {w : Cplx} (hw : CFinite P w) :
    ∃ s t, cmul P w ⟨0, 0⟩ = ⟨fpPack P s 0, fpPack P t 0⟩ := by
  obtain ⟨hre, him⟩ := hw
  obtain ⟨hadd, hsub⟩ := sum_of_zeros P (fpSign P w.re) (fpSign P w.im)
  exact ⟨_, _, by rw [cmul, fmul_zero_right hre, fmul_zero_right him, hadd, hsub]⟩

/-- A butterfly whose lower operand is zero leaves 1 or 0 as it is, on both sides. -/
theorem butterfly_zero {P : Prec} {x w : Cplx} (hx : x = ⟨oneBits P, 0⟩ ∨ x = ⟨0, 0⟩) (hw : CFinite P w) :
    butterfly P x ⟨0, 0⟩ w = (x, x) := by
  obtain ⟨s, t, hmul⟩ := cmul_zero_right hw
  obtain ⟨haddRe, hsubRe⟩ := sum_with_zero (P := P) (x := x.re) (by rcases hx with rfl | rfl <;> simp) s
  obtain ⟨haddIm, hsubIm⟩ := sum_with_zero (P := P) (x := x.im) (by rcases hx with rfl | rfl <;> simp) t
  simp only [butterfly, hmul, cadd, csub, haddRe, hsubRe, haddIm, hsubIm]

/-! Twiddle factors are finite. -/

/-- RN_P of a finite value of magnitude at most 1 is finite. -/
theorem fpRound_finite (P : Prec) {x : Dword} (hx : fpIsFinite .p64 x = true) (hle : fpQuanta .p64 x ≤ 2 ^ 1074) :
    fpIsFinite P (fpRound P x) = true := by
  cases P with
  | p64 => exact hx
  | p32 =>
    have hone : 2 ^ 1074 < 2 ^ 925 * overflowQuanta .p32 := by decide +kernel
    have hlt := roundEnc_lt_fpInfMag (hle.trans_lt hone)
    rw [fpRound_p32_of_finite hx, fpIsFinite, fpMag_fpPack _ _ _ (roundMag_lt_top _ _ _), roundMag_eq]
    exact decide_eq_true ((Nat.min_le_left _ _).trans_lt hlt)

theorem twiddleFactor_finite (P : Prec) (k m : Nat) : CFinite P (twiddleFactor P (tw64 k m)) := by
  obtain ⟨⟨hsin, hsinLe⟩, hcos, hcosLe⟩ := tw64_finite k m
  refine ⟨fpRound_finite P hcos hcosLe, ?_⟩
  rw [twiddleFactor, fpIsFinite, fpMag_fneg]
  exact fpRound_finite P hsin hsinLe

/-! The impulse through the passes. -/

/-- Element k of a buffer whose first n elements are (1, +0) and whose others are (+0, +0). -/
def onesBelow (P : Prec) (n k : Nat) : Cplx := if k < n then ⟨oneBits P, 0⟩ else ⟨0, 0⟩

theorem onesBelow_cases (P : Prec) (n k : Nat) : onesBelow P n k = ⟨oneBits P, 0⟩ ∨ onesBelow P n k = ⟨0, 0⟩ := by
  unfold onesBelow
  split
  · exact .inl rfl
  · exact .inr rfl

/-- The first n of the 2^m elements of the buffer are (1, +0), the others (+0, +0). -/
def HoldsOnes (F : Format) (base m n : Nat) (b : Buf) : Prop :=
  ∀ k, k < 2 ^ m → loadElem F base k b = onesBelow (formatPrec F) n k

/-- BITREV leaves the impulse, since index 0 is in no swap. -/
theorem HoldsOnes.swapElems {F : Format} {base m : Nat} {b : Buf} (h : HoldsOnes F base m 1 b) :
    HoldsOnes F base m 1 (swapElems F base (swapPairs m) b) := by
  refine swapElems_keeps (HoldsOnes F base m 1) F base _ b h fun e he y hy k hk => ?_
  obtain ⟨hlt1, hlt2⟩ := swapPairs_lt he
  obtain ⟨-, hup, hrev⟩ := mem_swapPairs.1 he
  have hzero {i : Nat} (hi : i ≠ 0) : onesBelow (formatPrec F) 1 i = ⟨0, 0⟩ := if_neg (by omega)
  have hne : e.1 ≠ 0 := fun h0 => by simp [h0] at hup
  have hne' : e.2 ≠ 0 := by omega
  rw [loadElem_swap, hy e.1 hlt1, hy e.2 hlt2, hy k hk, hzero hne, hzero hne']
  by_cases hk0 : k = 0
  · rw [if_neg (by omega), if_neg (by omega)]
  · rw [hzero hk0, ite_self, ite_self]

/-- A stage of half step h makes a block of 2h ones of a block of h ones: all other elements are 0, so that every
butterfly has the lower operand 0. -/
theorem stageValue_ones {P : Prec} {h : Nat} (hpos : 0 < h) {tw : Nat → Cplx} (htw : ∀ o, CFinite P (tw o)) (k : Nat) :
    stageValue P h tw (onesBelow P h) k = onesBelow P (2 * h) k := by
  have hzero {i : Nat} (hi : h ≤ i) : onesBelow P h i = ⟨0, 0⟩ := if_neg (by omega)
  have hbelow : k < h ↔ k / h < 1 := by rw [Nat.div_lt_iff_lt_mul hpos, Nat.one_mul]
  have hbelow2 : k < 2 * h ↔ k / h < 2 := (Nat.div_lt_iff_lt_mul hpos).symm
  unfold stageValue
  generalize k / h = q at hbelow hbelow2 ⊢
  split
  · rw [hzero (Nat.le_add_left h k), butterfly_zero (onesBelow_cases P h k) (htw _)]
    exact if_congr (by omega) rfl rfl
  · have hle : h ≤ k := by omega
    rw [hzero hle, butterfly_zero (onesBelow_cases P h _) (htw _)]
    exact if_congr (by omega) rfl rfl

/-- Stage n + 1 makes a block of 2^(n+1) ones of a block of 2^n. -/
theorem HoldsOnes.stageElems {F : Format} {base m n : Nat} {b : Buf} (h : HoldsOnes F base m (2 ^ n) b) (hn : n < m)
    {tw : Nat → Cplx} (htw : ∀ o, CFinite (formatPrec F) (tw o)) :
    HoldsOnes F base m (2 ^ (n + 1)) (stageElems F base m (n + 1) tw b) := by
  intro k hk
  have hinside {i : Nat} (hi : i / 2 ^ n / 2 = k / 2 ^ n / 2) : i < 2 ^ m := by
    rw [Nat.div_div_eq_div_mul, Nat.div_div_eq_div_mul, ← Nat.pow_succ] at hi
    have hgroup : k / 2 ^ (n + 1) < 2 ^ m / 2 ^ (n + 1) := Nat.div_lt_div_of_lt_of_dvd (Nat.pow_dvd_pow 2 hn) hk
    exact Nat.lt_of_div_lt_div (hi ▸ hgroup)
  rw [loadElem_stageElems F base (Nat.le_add_left 1 n) hn hk, Nat.add_sub_cancel, Nat.pow_succ',
    ← stageValue_ones (Nat.two_pow_pos n) htw]
  exact stageValue_congr fun i _ hi => h i (hinside hi)

/-- The first n stages make a block of 2^n ones of the impulse. -/
theorem HoldsOnes.stagesRule {F : Format} {base m n : Nat} {b : Buf} (h : HoldsOnes F base m 1 b) (hn : n ≤ m) :
    HoldsOnes F base m (2 ^ n) (stagesRule F base m n (fun j o => tw64 o j) b) := by
  induction n with
  | zero => exact h
  | succ n ih => exact (ih (Nat.le_of_succ_le hn)).stageElems hn fun o => twiddleFactor_finite _ o (n + 1)

/-- Settles O40: the impulse is a block of one 1, which BITREV leaves and each stage doubles, up to the whole buffer. -/
theorem impulseTransformsToOnes : Obligations.ImpulseTransformsToOnes := by
  unfold Obligations.ImpulseTransformsToOnes
  intro s lc F lut one hone hlc hm htt hpt himpulse
  have hbits : one = oneBits (formatPrec F) := by cases F <;> exact hone
  have hstart : HoldsOnes F lc.base.toNat lc.m 1 s.buf := fun k hk => by
    rw [himpulse k hk, hbits, onesBelow]
    exact if_congr (by omega) rfl rfl
  refine ⟨_, exec_latched _ hlc, fun k hk => ?_⟩
  rw [complete_buf, execRule_buf_live _ _ htt hpt, bufferRule, fftRule, if_neg (by omega), hbits]
  exact (hstart.swapElems.stagesRule le_rfl k hk).trans (if_pos hk)

end Sys2Proof.Machine
end

section
/-! SUPPORT. Sums, differences and products said once: when an operation is invalid, and otherwise the sign and the magnitude
that the result packs (spec/42_complex_multiplier.md R108 to R112). -/

namespace Sys2Proof.Machine

/-! Signs. -/

/-- A value is its sign and its magnitude packed. -/
theorem fpPack_sign_mag {P : Prec} {x : Dword} (h : IsValue P x) : fpPack P (fpSign P x) (fpMag P x) = x := by
  have hmag : fpMag P x < 2 ^ (fpWidth P - 1) := Nat.mod_lt _ (Nat.two_pow_pos _)
  have hwidth : fpWidth P = fpWidth P - 1 + 1 := by cases P <;> rfl
  have hx : x.toNat = fpMag P x + 2 ^ (fpWidth P - 1) * (fpSign P x).toNat := by
    rw [fpMag, fpSign, BitVec.getLsbD, Nat.toNat_testBit, ← Nat.mod_mul, ← Nat.pow_succ,
      show (fpWidth P - 1).succ = fpWidth P from hwidth.symm, Nat.mod_eq_of_lt h]
  apply BitVec.eq_of_toNat_eq
  rw [fpPack_toNat P _ _ hmag, hx]
  cases fpSign P x <;> simp

/-- Flipping the sign of a packed value packs the other sign. -/
theorem fneg_fpPack (P : Prec) (neg : Bool) {m : Nat} (h : m < 2 ^ (fpWidth P - 1)) :
    fneg P (fpPack P neg m) = fpPack P (!neg) m := by
  have hpack := fpPack_sign_mag (isValue_fneg (isValue_fpPack P neg m h))
  rwa [fpSign_fneg, fpMag_fneg, fpSign_fpPack P neg m h, fpMag_fpPack P neg m h, eq_comm] at hpack

/-- Values packed with one magnitude are equal exactly when their signs are. -/
theorem fpPack_inj_sign (P : Prec) (s t : Bool) {m : Nat} (h : m < 2 ^ (fpWidth P - 1)) :
    fpPack P s m = fpPack P t m ↔ s = t := by
  refine ⟨fun heq => ?_, fun heq => by rw [heq]⟩
  rw [← fpSign_fpPack P s m h, heq, fpSign_fpPack P t m h]

/-- A packed magnitude up to an infinity's is no NaN. -/
theorem fpIsNaN_fpPack (P : Prec) (neg : Bool) {m : Nat} (h : m ≤ fpInfMag P) : fpIsNaN P (fpPack P neg m) = false := by
  rw [fpIsNaN, fpMag_fpPack P neg m (Nat.lt_of_le_of_lt h (fpInfMag_lt_top P))]
  exact decide_eq_false (Nat.not_lt.2 h)

theorem fpInfMag_ne_zero (P : Prec) : fpInfMag P ≠ 0 := by cases P <;> decide +kernel

theorem not_zero_of_nan {P : Prec} {x : Dword} (h : fpIsNaN P x = true) : fpIsZero P x = false := by
  simp only [fpIsNaN, fpIsZero, decide_eq_true_eq, beq_eq_false_iff_ne] at *
  omega

theorem not_zero_of_inf {P : Prec} {x : Dword} (h : fpIsInf P x = true) : fpIsZero P x = false := by
  have := fpInfMag_ne_zero P
  simp only [fpIsInf, fpIsZero, beq_iff_eq, beq_eq_false_iff_ne] at *
  omega

/-- Only 0 rounds to a zero, where no bits lie below the quantum. -/
theorem roundMag_eq_zero (P : Prec) (n : Nat) : roundMag P n 0 = 0 ↔ n = 0 := by
  refine ⟨fun h => ?_, fun h => by subst h; cases P <;> decide +kernel⟩
  have henc : roundEnc P n 0 = 0 := by
    have := fpInfMag_ne_zero P
    rw [roundMag_eq] at h
    omega
  have hvalue := fpMagQuanta_roundEnc P n 0
  rw [henc, fpMagQuanta_subnormal P (Nat.two_pow_pos _), Nat.zero_mul] at hvalue
  have hround : roundEven n (roundDrop P n 0) = 0 := by
    simpa using hvalue.symm
  rcases Nat.eq_zero_or_pos (roundDrop P n 0) with hdrop | hdrop
  · have hexact := roundEven_of_dvd (n := n) (d := 0) (one_dvd n)
    rw [hdrop] at hround
    rw [← hexact, hround, Nat.zero_mul]
  · have := le_roundEven_roundDrop hdrop
    have := Nat.two_pow_pos (fpFrac P)
    omega

/-! Sums. -/

/-- R110's condition for a sum: an operand is a NaN, or infinities of unlike signs meet. -/
def addInvalid (P : Prec) (x y : Dword) : Bool :=
  fpIsNaN P x || fpIsNaN P y || (fpIsInf P x && fpIsInf P y && (fpSign P x != fpSign P y))

/-- The sign of a valid sum: an infinity's, else that of the exact sum, an exact 0 being negative where both operands are. -/
def sumSign (P : Prec) (x y : Dword) : Bool :=
  if fpIsInf P x then fpSign P x
  else if fpIsInf P y then fpSign P y
  else if fpSigned P x + fpSigned P y = 0 then fpSign P x && fpSign P y
  else decide (fpSigned P x + fpSigned P y < 0)

/-- The magnitude of a valid sum: an infinity's, else the exact sum's, rounded once. -/
def sumMag (P : Prec) (x y : Dword) : Nat :=
  if fpIsInf P x || fpIsInf P y then fpInfMag P else roundMag P (fpSigned P x + fpSigned P y).natAbs 0

/-- The two operands are finite and cancel exactly. -/
def SumsToZero (P : Prec) (x y : Dword) : Prop :=
  fpIsInf P x = false ∧ fpIsInf P y = false ∧ fpSigned P x + fpSigned P y = 0

theorem fadd_eq (P : Prec) (x y : Dword) :
    fadd P x y = if addInvalid P x y then fpNaN .add P x y else fpSum P x y := rfl

/-- A difference is the sum with the second operand's sign flipped, but for the NaN. -/
theorem fsub_eq (P : Prec) (x y : Dword) :
    fsub P x y = if addInvalid P x (fneg P y) then fpNaN .sub P x y else fpSum P x (fneg P y) := by
  rw [fsub, addInvalid, fpIsNaN_fneg, fpIsInf_fneg, fpSign_fneg]
  congr 3
  cases fpSign P x <;> cases fpSign P y <;> rfl

theorem fpSum_eq (P : Prec) (x y : Dword) : fpSum P x y = fpPack P (sumSign P x y) (sumMag P x y) := by
  have hzero : roundMag P 0 0 = 0 := (roundMag_eq_zero P 0).2 rfl
  unfold fpSum sumSign sumMag
  cases hx : fpIsInf P x
  · cases hy : fpIsInf P y
    · by_cases hz : fpSigned P x + fpSigned P y = 0
      · simp [hz, hzero]
      · simp [hz]
    · simp
  · simp

theorem sumMag_le (P : Prec) (x y : Dword) : sumMag P x y ≤ fpInfMag P := by
  unfold sumMag
  split
  · exact le_rfl
  · exact roundMag_le P _ 0

theorem sumMag_lt_top (P : Prec) (x y : Dword) : sumMag P x y < 2 ^ (fpWidth P - 1) :=
  Nat.lt_of_le_of_lt (sumMag_le P x y) (fpInfMag_lt_top P)

theorem fpIsNaN_fpSum (P : Prec) (x y : Dword) : fpIsNaN P (fpSum P x y) = false := by
  rw [fpSum_eq]
  exact fpIsNaN_fpPack P _ (sumMag_le P x y)

/-- A sum of values is a zero exactly where they cancel. -/
theorem fpIsZero_fpSum (P : Prec) (x y : Dword) : fpIsZero P (fpSum P x y) = true ↔ SumsToZero P x y := by
  rw [fpSum_eq, fpIsZero, fpMag_fpPack P _ _ (sumMag_lt_top P x y), beq_iff_eq, sumMag, SumsToZero]
  cases hx : fpIsInf P x <;> cases hy : fpIsInf P y <;> simp [roundMag_eq_zero, fpInfMag_ne_zero]

/-- A sum is invalid exactly where its operands are no values, or infinities of unlike signs. -/
theorem addInvalid_eq_false {P : Prec} {x y : Dword} : addInvalid P x y = false ↔
    fpIsNaN P x = false ∧ fpIsNaN P y = false ∧ (fpIsInf P x = true → fpIsInf P y = true → fpSign P x = fpSign P y) := by
  simp [addInvalid, and_assoc]

theorem addInvalid_comm (P : Prec) (x y : Dword) : addInvalid P x y = addInvalid P y x := by
  rw [Bool.eq_iff_iff]
  simp only [addInvalid, Bool.or_eq_true, Bool.and_eq_true, bne_iff_ne]
  tauto

theorem sumMag_comm (P : Prec) (x y : Dword) : sumMag P x y = sumMag P y x := by
  rw [sumMag, sumMag, Bool.or_comm, Int.add_comm]

/-- The sign of a valid sum does not depend on the order of the operands. -/
theorem sumSign_comm {P : Prec} {x y : Dword} (h : addInvalid P x y = false) : sumSign P x y = sumSign P y x := by
  obtain ⟨-, -, hsign⟩ := addInvalid_eq_false.1 h
  unfold sumSign
  cases hx : fpIsInf P x <;> cases hy : fpIsInf P y
  · simp [Int.add_comm, Bool.and_comm]
  · rfl
  · rfl
  · simpa using hsign hx hy

@[simp] theorem addInvalid_fneg_fneg (P : Prec) (x y : Dword) :
    addInvalid P (fneg P x) (fneg P y) = addInvalid P x y := by
  simp [addInvalid]

theorem sumMag_fneg_fneg (P : Prec) (x y : Dword) : sumMag P (fneg P x) (fneg P y) = sumMag P x y := by
  rw [sumMag, sumMag, fpIsInf_fneg, fpIsInf_fneg, fpSigned_fneg, fpSigned_fneg, ← Int.neg_add, Int.natAbs_neg]

/-- Flipping both signs flips the sign of the sum, but for an exact 0 of unlike signs, which R108 makes +0. -/
theorem sumSign_fneg_fneg (P : Prec) (x y : Dword) :
    sumSign P (fneg P x) (fneg P y) = !sumSign P x y ↔ ¬ (SumsToZero P x y ∧ fpSign P x ≠ fpSign P y) := by
  simp only [sumSign, SumsToZero, fpIsInf_fneg, fpSign_fneg, fpSigned_fneg, ← Int.neg_add, Int.neg_eq_zero]
  cases hx : fpIsInf P x
  · cases hy : fpIsInf P y
    · by_cases hz : fpSigned P x + fpSigned P y = 0
      · cases fpSign P x <;> cases fpSign P y <;> simp [hz]
      · simp only [Bool.false_eq_true, if_false, hz, and_false, false_and, not_false_eq_true, iff_true]
        rw [← decide_not, decide_eq_decide]
        omega
    · simp
  · simp

/-- The sum of the operands with flipped signs is the flipped sum, but for an exact 0 of unlike signs. -/
theorem fpSum_fneg_fneg (P : Prec) (x y : Dword) :
    fpSum P (fneg P x) (fneg P y) = fneg P (fpSum P x y) ↔ ¬ (SumsToZero P x y ∧ fpSign P x ≠ fpSign P y) := by
  rw [fpSum_eq, fpSum_eq, fneg_fpPack P _ (sumMag_lt_top P x y), sumMag_fneg_fneg,
    fpPack_inj_sign P _ _ (sumMag_lt_top P x y), sumSign_fneg_fneg]

/-! Products. -/

/-- R110's condition for a product: an operand is a NaN, or an infinity meets a zero. -/
def mulInvalid (P : Prec) (x y : Dword) : Bool :=
  fpIsNaN P x || fpIsNaN P y || (fpIsInf P x && fpIsZero P y) || (fpIsZero P x && fpIsInf P y)

/-- The magnitude of a valid product: an infinity's, else the exact product's, rounded once. -/
def mulMag (P : Prec) (x y : Dword) : Nat :=
  if fpIsInf P x || fpIsInf P y then fpInfMag P else roundMag P (fpQuanta P x * fpQuanta P y) (fpQuantum P)

theorem fmul_eq (P : Prec) (x y : Dword) :
    fmul P x y =
      if mulInvalid P x y then fpNaN .mul P x y else fpPack P (fpSign P x ^^ fpSign P y) (mulMag P x y) := by
  unfold fmul mulInvalid mulMag
  cases hx : fpIsInf P x <;> cases hy : fpIsInf P y <;> simp

theorem mulMag_le (P : Prec) (x y : Dword) : mulMag P x y ≤ fpInfMag P := by
  unfold mulMag
  split
  · exact le_rfl
  · exact roundMag_le P _ _

theorem mulMag_comm (P : Prec) (x y : Dword) : mulMag P x y = mulMag P y x := by
  rw [mulMag, mulMag, Bool.or_comm, Nat.mul_comm]

theorem mulInvalid_comm (P : Prec) (x y : Dword) : mulInvalid P x y = mulInvalid P y x := by
  rw [Bool.eq_iff_iff]
  simp only [mulInvalid, Bool.or_eq_true, Bool.and_eq_true]
  tauto

@[simp] theorem mulMag_fneg_right (P : Prec) (x y : Dword) : mulMag P x (fneg P y) = mulMag P x y := by simp [mulMag]

@[simp] theorem mulInvalid_fneg_right (P : Prec) (x y : Dword) : mulInvalid P x (fneg P y) = mulInvalid P x y := by
  simp [mulInvalid]

/-! Which results are NaNs. -/

/-- A result that is NAN_FN's exactly where the operation is invalid. -/
theorem fpIsNaN_ite {P : Prec} {c : Bool} {nan v : Dword} (hnan : fpIsNaN P nan = true) (hv : fpIsNaN P v = false) :
    fpIsNaN P (if c then nan else v) = c := by
  cases c
  · exact hv
  · exact hnan

theorem fpIsNaN_fadd (P : Prec) (x y : Dword) : fpIsNaN P (fadd P x y) = addInvalid P x y :=
  fpIsNaN_ite (fpIsNaN_fpNaN _ _ _ _) (fpIsNaN_fpSum P x y)

theorem fpIsNaN_fsub (P : Prec) (x y : Dword) : fpIsNaN P (fsub P x y) = addInvalid P x (fneg P y) := by
  rw [fsub_eq]
  exact fpIsNaN_ite (fpIsNaN_fpNaN _ _ _ _) (fpIsNaN_fpSum P x _)

theorem fpIsNaN_fmul (P : Prec) (x y : Dword) : fpIsNaN P (fmul P x y) = mulInvalid P x y := by
  rw [fmul_eq]
  exact fpIsNaN_ite (fpIsNaN_fpNaN _ _ _ _) (fpIsNaN_fpPack P _ (mulMag_le P x y))

/-- Settles O54: each result is NAN_FN's NaN where the operation is invalid, and else packs a magnitude that is no NaN's. -/
theorem nanResultsExactlyWhenInvalid : Obligations.NanResultsExactlyWhenInvalid := by
  unfold Obligations.NanResultsExactlyWhenInvalid
  intro P x y
  rw [fpIsNaN_fadd, fpIsNaN_fsub, fpIsNaN_fmul]
  refine ⟨?_, ?_, ?_⟩
  · simp [addInvalid, or_assoc, and_assoc]
  · simp [addInvalid, or_assoc, and_assoc]
  · simp [mulInvalid, or_assoc]

end Sys2Proof.Machine
end

section
/-! SUPPORT. Sums and products are correctly rounded, and keep infinities (spec/42_complex_multiplier.md R107 to R109). -/

namespace Sys2Proof.Machine

theorem addInvalid_of_finite {P : Prec} {x y : Dword} (hx : fpIsFinite P x = true) (hy : fpIsFinite P y = true) :
    addInvalid P x y = false := by
  simp [addInvalid, not_nan_of_finite hx, not_nan_of_finite hy, not_inf_of_finite hx]

@[simp] theorem fpIsFinite_fneg (P : Prec) (x : Dword) : fpIsFinite P (fneg P x) = fpIsFinite P x := by
  simp [fpIsFinite]

/-- A valid sum packs its sign and its magnitude. -/
theorem fadd_of_valid {P : Prec} {x y : Dword} (h : addInvalid P x y = false) :
    fadd P x y = fpPack P (sumSign P x y) (sumMag P x y) := by
  rw [fadd_eq, h, if_neg Bool.false_ne_true, fpSum_eq]

/-- A valid difference is the sum with the second operand's sign flipped (R111). -/
theorem fsub_of_valid {P : Prec} {x y : Dword} (h : addInvalid P x (fneg P y) = false) :
    fsub P x y = fadd P x (fneg P y) := by
  rw [fsub_eq, fadd_eq, h, if_neg Bool.false_ne_true, if_neg Bool.false_ne_true]

/-- The exact sum is its magnitude with the sign of the sum. -/
theorem signedBy_sumSign {P : Prec} {x y : Dword} (hx : fpIsInf P x = false) (hy : fpIsInf P y = false) :
    signedBy (sumSign P x y) (fpSigned P x + fpSigned P y).natAbs = fpSigned P x + fpSigned P y := by
  simp only [sumSign, hx, hy, Bool.false_eq_true, if_false]
  generalize fpSigned P x + fpSigned P y = z
  by_cases hz : z = 0
  · simp [hz, signedBy]
  · simp only [hz, if_false, signedBy, decide_eq_true_eq]
    split <;> omega

/-- A sum of finite values is the exact sum rounded once, and a zero with R108's sign where they cancel. -/
theorem fadd_correctlyRounded {P : Prec} {x y : Dword} (hx : fpIsFinite P x = true) (hy : fpIsFinite P y = true) :
    RoundsTo P (fpSigned P x + fpSigned P y) 0 (fadd P x y) ∧
    (fpSigned P x + fpSigned P y = 0 →
      fpIsZero P (fadd P x y) = true ∧ fpSign P (fadd P x y) = (fpSign P x && fpSign P y)) := by
  have hxi := not_inf_of_finite hx
  have hyi := not_inf_of_finite hy
  have hvalid := addInvalid_of_finite hx hy
  refine ⟨?_, fun hz => ⟨?_, ?_⟩⟩
  · have hround := roundsTo_fpPack_roundMag P (sumSign P x y) (fpSigned P x + fpSigned P y).natAbs 0
    rwa [signedBy_sumSign hxi hyi, show roundMag P _ 0 = sumMag P x y by simp [sumMag, hxi, hyi],
      ← fadd_of_valid hvalid] at hround
  · rw [fadd_eq, hvalid, if_neg Bool.false_ne_true, fpIsZero_fpSum]
    exact ⟨hxi, hyi, hz⟩
  · rw [fadd_of_valid hvalid, fpSign_fpPack P _ _ (sumMag_lt_top P x y)]
    simp [sumSign, hxi, hyi, hz]

/-- A difference of finite values is the sum with the second sign flipped. -/
theorem fsub_of_finite {P : Prec} {x y : Dword} (hx : fpIsFinite P x = true) (hy : fpIsFinite P y = true) :
    fsub P x y = fadd P x (fneg P y) :=
  fsub_of_valid (addInvalid_of_finite hx ((fpIsFinite_fneg P y).trans hy))

/-- An infinity and what is no NaN and no infinity of the other sign make a valid sum. -/
theorem addInvalid_of_inf_left {P : Prec} {x y : Dword} (hx : fpIsInf P x = true) (hy : fpIsNaN P y = false)
    (h : fpIsInf P y = false ∨ fpSign P x = fpSign P y) : addInvalid P x y = false :=
  addInvalid_eq_false.2 ⟨not_nan_of_inf hx, hy, fun _ hyi => h.resolve_left (by simp [hyi])⟩

theorem addInvalid_of_inf_right {P : Prec} {x y : Dword} (hx : fpIsNaN P x = false) (hy : fpIsInf P y = true)
    (h : fpIsInf P x = false ∨ fpSign P x = fpSign P y) : addInvalid P x y = false :=
  (addInvalid_comm P x y).trans (addInvalid_of_inf_left hy hx (h.imp_right Eq.symm))

/-- An infinity plus what leaves the sum valid is that infinity. -/
theorem fadd_of_inf_left {P : Prec} {x y : Dword} (hx : fpIsInf P x = true) (h : addInvalid P x y = false) :
    fadd P x y = fpPack P (fpSign P x) (fpInfMag P) := by
  rw [fadd_of_valid h, sumSign, sumMag, hx]
  rfl

/-- What leaves the sum valid plus an infinity is that infinity. -/
theorem fadd_of_inf_right {P : Prec} {x y : Dword} (hy : fpIsInf P y = true) (h : addInvalid P x y = false) :
    fadd P x y = fpPack P (fpSign P y) (fpInfMag P) := by
  rw [fadd_of_valid h, sumSign_comm h, sumMag_comm, sumSign, sumMag, hy]
  rfl

/-- Settles O51: a valid sum packs the exact sum rounded once, or the infinity; a valid difference is such a sum. -/
theorem sumsAreCorrectlyRounded : Obligations.SumsAreCorrectlyRounded := by
  unfold Obligations.SumsAreCorrectlyRounded
  refine ⟨fun P x y hx hy => ?_, fun P x y hx hy => ⟨fun h => ?_, fun h => ?_⟩,
    fun P x y hx hy => ⟨fun h => ?_, fun h => ?_⟩, by decide +kernel⟩
  · obtain ⟨hadd, haddZero⟩ := fadd_correctlyRounded hx hy
    obtain ⟨hsub, hsubZero⟩ := fadd_correctlyRounded hx ((fpIsFinite_fneg P y).trans hy)
    rw [fpSigned_fneg, ← Int.sub_eq_add_neg, ← fsub_of_finite hx hy] at hsub hsubZero
    rw [fpSign_fneg] at hsubZero
    exact ⟨hadd, haddZero, hsub, hsubZero⟩
  · exact fadd_of_inf_left hx (addInvalid_of_inf_left hx hy h)
  · have hvalid : addInvalid P x (fneg P y) = false :=
      addInvalid_of_inf_left hx (by simpa using hy) (by simpa [Bool.eq_not] using h)
    rw [fsub_of_valid hvalid, fadd_of_inf_left hx hvalid]
  · exact fadd_of_inf_right hy (addInvalid_of_inf_right hx hy h)
  · have hyn : fpIsInf P (fneg P y) = true := (fpIsInf_fneg P y).trans hy
    have hvalid : addInvalid P x (fneg P y) = false :=
      addInvalid_of_inf_right hx hyn (by simpa [Bool.eq_not] using h)
    rw [fsub_of_valid hvalid, fadd_of_inf_right hyn hvalid, fpSign_fneg]

/-- The product of signed numbers of quanta has the exclusive or of the signs. -/
theorem signedBy_mul_signedBy (s t : Bool) (a b : Int) : signedBy s a * signedBy t b = signedBy (s ^^ t) (a * b) := by
  cases s <;> cases t <;> simp [signedBy]

/-- A valid product that an infinity takes part in is an infinity. -/
theorem fmul_of_inf {P : Prec} {x y : Dword} (hinf : fpIsInf P x = true ∨ fpIsInf P y = true)
    (h : mulInvalid P x y = false) : fmul P x y = fpPack P (fpSign P x ^^ fpSign P y) (fpInfMag P) := by
  rw [fmul_eq, h, if_neg Bool.false_ne_true, mulMag, if_pos (by simpa using hinf)]

/-- An infinity times what is neither a zero nor a NaN is a valid product. -/
theorem mulInvalid_of_inf {P : Prec} {x y : Dword} (hx : fpIsInf P x = true) (hy : fpIsNaN P y = false)
    (h0 : fpIsZero P y = false) : mulInvalid P x y = false := by
  simp [mulInvalid, not_nan_of_inf hx, not_zero_of_inf hx, hy, h0]

/-- Settles O52: a finite product packs the exact product rounded once, with the exclusive or of the signs. -/
theorem productsAreCorrectlyRounded : Obligations.ProductsAreCorrectlyRounded := by
  unfold Obligations.ProductsAreCorrectlyRounded
  refine ⟨fun P x y hx hy => ?_, fun P x y h => ?_⟩
  · rw [fmul_of_finite hx hy, fpSigned_eq_signedBy, fpSigned_eq_signedBy, signedBy_mul_signedBy, ← Nat.cast_mul]
    exact ⟨roundsTo_fpPack_roundMag P _ _ _, fpSign_fpPack P _ _ (roundMag_lt_top P _ _)⟩
  · rcases h with ⟨hx, hy, h0⟩ | ⟨hy, hx, h0⟩
    · exact fmul_of_inf (.inl hx) (mulInvalid_of_inf hx hy h0)
    · exact fmul_of_inf (.inr hy) ((mulInvalid_comm P x y).trans (mulInvalid_of_inf hy hx h0))

end Sys2Proof.Machine
end

section
/-! SUPPORT. Commutativity and conjugate symmetry of the complex multiplier, bit for bit except in a NaN's sign and payload
(spec/42_complex_multiplier.md R114, R115, R119). -/

namespace Sys2Proof.Machine

/-! The same but for a NaN. -/

theorem fpSame.symm {P : Prec} {x y : Dword} (h : fpSame P x y) : fpSame P y x := h.imp Eq.symm And.symm

theorem fpSame.trans {P : Prec} {x y z : Dword} (hxy : fpSame P x y) (hyz : fpSame P y z) : fpSame P x z := by
  rcases hxy with rfl | ⟨hx, hy⟩
  · exact hyz
  · rcases hyz with rfl | ⟨-, hz⟩
    · exact .inr ⟨hx, hy⟩
    · exact .inr ⟨hx, hz⟩

/-- Where a result is no NaN, the same result is equal to it. -/
theorem fpSame_iff_eq {P : Prec} {x y : Dword} (h : fpIsNaN P x = false) : fpSame P x y ↔ x = y := by
  simp [fpSame, h]

theorem fpSame.fneg {P : Prec} {x y : Dword} (h : fpSame P x y) : fpSame P (fneg P x) (fneg P y) := by
  rcases h with rfl | h
  · exact .inl rfl
  · exact .inr (by simpa using h)

/-- Two results that are NaNs in the same case are the same, where they are the same in the other. -/
theorem fpSame_ite {P : Prec} {c : Bool} {nan nan' v v' : Dword} (hnan : fpIsNaN P nan = true)
    (hnan' : fpIsNaN P nan' = true) (h : c = false → fpSame P v v') :
    fpSame P (if c then nan else v) (if c then nan' else v') := by
  cases c
  · exact h rfl
  · exact .inr ⟨hnan, hnan'⟩

/-! Sums and products of same operands. -/

/-- Sums of same operands are the same: a NaN operand makes both sums NaNs. -/
theorem fpSame.fadd {P : Prec} {x x' y y' : Dword} (hx : fpSame P x x') (hy : fpSame P y y') :
    fpSame P (fadd P x y) (fadd P x' y') := by
  rcases hx with rfl | ⟨hx, hx'⟩
  · rcases hy with rfl | ⟨hy, hy'⟩
    · exact .inl rfl
    · exact .inr (by simp [fpIsNaN_fadd, addInvalid, hy, hy'])
  · exact .inr (by simp [fpIsNaN_fadd, addInvalid, hx, hx'])

/-- A difference is the same as the sum with the second sign flipped. -/
theorem fsub_same (P : Prec) (x y : Dword) : fpSame P (fsub P x y) (fadd P x (fneg P y)) := by
  rw [fsub_eq, fadd_eq]
  exact fpSame_ite (fpIsNaN_fpNaN _ _ _ _) (fpIsNaN_fpNaN _ _ _ _) fun _ => .inl rfl

theorem fpSame.fsub {P : Prec} {x x' y y' : Dword} (hx : fpSame P x x') (hy : fpSame P y y') :
    fpSame P (fsub P x y) (fsub P x' y') :=
  (fsub_same P x y).trans ((hx.fadd hy.fneg).trans (fsub_same P x' y').symm)

theorem fadd_comm_same (P : Prec) (x y : Dword) : fpSame P (fadd P x y) (fadd P y x) := by
  rw [fadd_eq, fadd_eq, addInvalid_comm P y x]
  refine fpSame_ite (fpIsNaN_fpNaN _ _ _ _) (fpIsNaN_fpNaN _ _ _ _) fun h => .inl ?_
  rw [fpSum_eq, fpSum_eq, sumSign_comm h, sumMag_comm]

theorem fmul_comm_same (P : Prec) (x y : Dword) : fpSame P (fmul P x y) (fmul P y x) := by
  rw [fmul_eq, fmul_eq, mulInvalid_comm P y x, mulMag_comm P y x, Bool.xor_comm]
  exact fpSame_ite (fpIsNaN_fpNaN _ _ _ _) (fpIsNaN_fpNaN _ _ _ _) fun _ => .inl rfl

/-! Signs of products and sums. -/

/-- Flipping a factor's sign flips the product's. -/
theorem fmul_fneg_right_same (P : Prec) (x y : Dword) : fpSame P (fmul P x (fneg P y)) (fneg P (fmul P x y)) := by
  have hpack := fneg_fpPack P (fpSign P x ^^ fpSign P y) (Nat.lt_of_le_of_lt (mulMag_le P x y) (fpInfMag_lt_top P))
  rw [fmul_eq, fmul_eq, apply_ite (fneg P), mulInvalid_fneg_right, mulMag_fneg_right, fpSign_fneg, Bool.xor_not, hpack]
  exact fpSame_ite (fpIsNaN_fpNaN _ _ _ _) (by simp [fpIsNaN_fpNaN]) fun _ => .inl rfl

theorem fmul_fneg_left_same (P : Prec) (x y : Dword) : fpSame P (fmul P (fneg P x) y) (fneg P (fmul P x y)) :=
  (fmul_comm_same P _ _).trans ((fmul_fneg_right_same P y x).trans (fmul_comm_same P y x).fneg)

/-- Flipping both signs leaves the product. -/
theorem fmul_fneg_fneg_same (P : Prec) (x y : Dword) : fpSame P (fmul P (fneg P x) (fneg P y)) (fmul P x y) := by
  have h := (fmul_fneg_left_same P x (fneg P y)).trans (fmul_fneg_right_same P x y).fneg
  rwa [fneg_fneg] at h

/-- A sum is a zero exactly where it is valid and its operands cancel. -/
theorem fpIsZero_fadd (P : Prec) (x y : Dword) :
    fpIsZero P (fadd P x y) = true ↔ addInvalid P x y = false ∧ SumsToZero P x y := by
  rw [fadd_eq]
  cases addInvalid P x y
  · simpa using fpIsZero_fpSum P x y
  · simp [not_zero_of_nan (fpIsNaN_fpNaN _ _ _ _)]

/-- Flipping both signs flips the sum's, bit for bit but in a NaN, except where terms of unlike signs leave a zero. -/
theorem fadd_fneg_fneg_same (P : Prec) (x y : Dword) :
    fpSame P (fadd P (fneg P x) (fneg P y)) (fneg P (fadd P x y)) ↔
      ¬ (fpIsZero P (fadd P x y) = true ∧ fpSign P x ≠ fpSign P y) := by
  rw [fpIsZero_fadd, fadd_eq, fadd_eq, addInvalid_fneg_fneg]
  cases addInvalid P x y
  · simpa [fpSame_iff_eq (fpIsNaN_fpSum P _ _)] using fpSum_fneg_fneg P x y
  · simp [fpSame, fpIsNaN_fpNaN]

/-- Flipping both signs flips the sum's, but for a NaN and the sign of a zero: where the terms cancel, both sums are zeros. -/
theorem fadd_fneg_fneg_upToZero (P : Prec) (x y : Dword) :
    fpSameUpToZero P (fadd P (fneg P x) (fneg P y)) (fneg P (fadd P x y)) := by
  by_cases h : fpIsZero P (fadd P x y) = true ∧ fpSign P x ≠ fpSign P y
  · obtain ⟨hzero, -⟩ := h
    refine .inr ⟨?_, by simpa using hzero⟩
    obtain ⟨hvalid, hxi, hyi, hsum⟩ := (fpIsZero_fadd P x y).1 hzero
    refine (fpIsZero_fadd P _ _).2 ⟨by simpa using hvalid, by simpa using hxi, by simpa using hyi, ?_⟩
    rw [fpSigned_fneg, fpSigned_fneg, ← Int.neg_add, hsum, Int.neg_zero]
  · exact .inl ((fadd_fneg_fneg_same P x y).2 h)

theorem fpSame.upToZero {P : Prec} {x y z : Dword} (hxy : fpSame P x y) (h : fpSameUpToZero P y z) :
    fpSameUpToZero P x z := by
  rcases h with hyz | ⟨hy, hz⟩
  · exact .inl (hxy.trans hyz)
  · rcases hxy with rfl | ⟨-, hnan⟩
    · exact .inr ⟨hy, hz⟩
    · rw [not_zero_of_nan hnan] at hy
      cases hy

/-! The complex multiplier. -/

theorem cmul_comm_same (P : Prec) (w z : Cplx) : cSame P (cmul P w z) (cmul P z w) :=
  ⟨(fmul_comm_same P w.re z.re).fsub (fmul_comm_same P w.im z.im),
    (fadd_comm_same P _ _).trans ((fmul_comm_same P w.im z.re).fadd (fmul_comm_same P w.re z.im))⟩

/-- The real part of a product of conjugates is that of the product. -/
theorem cmul_conj_re_same (P : Prec) (w z : Cplx) :
    fpSame P (cmul P (cconj P w) (cconj P z)).re (cconj P (cmul P w z)).re :=
  fpSame.fsub (.inl rfl) (fmul_fneg_fneg_same P w.im z.im)

/-- The imaginary part of a product of conjugates adds the two products with flipped signs. -/
theorem cmul_conj_im_same (P : Prec) (w z : Cplx) :
    fpSame P (cmul P (cconj P w) (cconj P z)).im
      (fadd P (fneg P (fmul P w.re z.im)) (fneg P (fmul P w.im z.re))) :=
  (fmul_fneg_right_same P w.re z.im).fadd (fmul_fneg_left_same P w.im z.re)

/-- A product of conjugates is the conjugate of the product, bit for bit but in a NaN, exactly where the imaginary part is no
zero that products of unlike signs leave. -/
theorem cmul_conj_same_iff (P : Prec) (w z : Cplx) :
    cSame P (cmul P (cconj P w) (cconj P z)) (cconj P (cmul P w z)) ↔
      ¬ (fpIsZero P (cmul P w z).im = true ∧ fpSign P (fmul P w.re z.im) ≠ fpSign P (fmul P w.im z.re)) := by
  have him := cmul_conj_im_same P w z
  calc cSame P (cmul P (cconj P w) (cconj P z)) (cconj P (cmul P w z))
    _ ↔ fpSame P (cmul P (cconj P w) (cconj P z)).im (cconj P (cmul P w z)).im :=
        and_iff_right (cmul_conj_re_same P w z)
    _ ↔ fpSame P (fadd P (fneg P (fmul P w.re z.im)) (fneg P (fmul P w.im z.re))) (cconj P (cmul P w z)).im :=
        ⟨him.symm.trans, him.trans⟩
    _ ↔ _ := fadd_fneg_fneg_same P _ _

/-- Settles O55: product by product, and the sum's sign except where it cancels. -/
theorem multiplierSymmetries : Obligations.MultiplierSymmetries := by
  unfold Obligations.MultiplierSymmetries
  exact fun P w z => ⟨cmul_comm_same P w z, cmul_conj_re_same P w z,
    (cmul_conj_im_same P w z).upToZero (fadd_fneg_fneg_upToZero P _ _), cmul_conj_same_iff P w z⟩

/-- Refutes O56: (1, 1) times (1, -1) has the imaginary part -1 + 1, an exact +0, and so has the product of the conjugates,
1 + -1; the conjugate of the first is -0 (log entry 18). -/
theorem not_conjugateSymmetryBitForBit : ¬ Obligations.ConjugateSymmetryBitForBit := by
  unfold Obligations.ConjugateSymmetryBitForBit
  intro h
  have hsame := h .p32 ⟨0x3F800000, 0x3F800000⟩ ⟨0x3F800000, 0xBF800000⟩
  exact (cmul_conj_same_iff _ _ _).1 hsame (by decide +kernel)

end Sys2Proof.Machine
end

section
/-! SUPPORT. CONJ and INORM on every element of the buffer (spec/43_transform.md R130, R132, R133). -/

namespace Sys2Proof.Machine

/-- A command that maps a function over the elements of its buffer replaces each, and changes no byte outside the region. -/
theorem mapElems_region (F : Format) (lc : Latched) (f : Cplx → Cplx) (b : Buf)
    (hf : ∀ z, IsCValue (formatPrec F) z → IsCValue (formatPrec F) (f z)) :
    (∀ i, i < 2 ^ lc.m → loadElem F lc.base.toNat i (mapElems F lc.base.toNat (2 ^ lc.m) f b) =
      f (loadElem F lc.base.toNat i b)) ∧
    ∀ a, ¬ inRegion F lc.base.toNat lc.m a → (mapElems F lc.base.toNat (2 ^ lc.m) f b).byte a = b.byte a :=
  ⟨fun i hi => by rw [loadElem_mapElems F _ _ f b i hf, if_pos hi], byte_mapElems_outside F _ _ f b⟩

/-- Flipping a sign inverts the top bit of the precision and no other (R111). -/
theorem fneg_getLsbD_ite (P : Prec) (x : Dword) (k : Nat) :
    (fneg P x).getLsbD k = if k = fpWidth P - 1 then !x.getLsbD k else x.getLsbD k := by
  rw [fneg_getLsbD]
  split
  · rename_i h
    rw [decide_eq_true h, Bool.xor_true]
  · rename_i h
    rw [decide_eq_false h, Bool.xor_false]

/-- Settles O26: CONJ maps conjugation over the elements of its buffer. -/
theorem conjConjugatesEveryElement : Obligations.ConjConjugatesEveryElement := by
  unfold Obligations.ConjConjugatesEveryElement
  exact ⟨fun x k _ => ⟨fneg_getLsbD_ite .p32 x k, fneg_getLsbD_ite .p64 x k⟩, fun s lc F hlc =>
    ⟨_, exec_latched (.conj F) hlc, mapElems_region F lc (cconj (formatPrec F)) s.buf fun z => isCValue_cconj⟩⟩

/-- Settles O27: INORM maps scaling and conjugation over the elements of its buffer. -/
theorem inormScalesAndConjugates : Obligations.InormScalesAndConjugates := by
  unfold Obligations.InormScalesAndConjugates
  exact fun s lc F hlc => ⟨_, exec_latched (.inorm F) hlc,
    mapElems_region F lc (cnorm (formatPrec F) · lc.m) s.buf fun z _ => isCValue_cnorm _ z lc.m⟩

end Sys2Proof.Machine
end

section
/-! SUPPORT. The bytes of a region are its elements: two buffers that agree outside the region and in its elements agree in
every byte (spec/20_memory.md R44 to R48). -/

namespace Sys2Proof.Machine

/-- The bytes that a read assembles are those of its value. -/
theorem byte_eq_of_memRead_eq {b b' : Buf} {a n x : Nat} (hn : n ≤ 8) (h : memRead b a n = memRead b' a n) (hlo : a ≤ x)
    (hhi : x < a + n) : b.byte x = b'.byte x := by
  obtain ⟨j, rfl⟩ := Nat.exists_eq_add_of_le hlo
  have hj : j < n := by omega
  rw [← memRead_byte b a hn hj, ← memRead_byte b' a hn hj, h]

/-- The same for two reads next to each other. -/
theorem byte_eq_of_two_memReads_eq {b b' : Buf} {a n x : Nat} (hn : n ≤ 8) (hlow : memRead b a n = memRead b' a n)
    (hhigh : memRead b (a + n) n = memRead b' (a + n) n) (hlo : a ≤ x) (hhi : x < a + 2 * n) : b.byte x = b'.byte x := by
  by_cases hx : x < a + n
  · exact byte_eq_of_memRead_eq hn hlow hlo hx
  · exact byte_eq_of_memRead_eq hn hhigh (by omega) (by omega)

/-- A PK64 element is read as two 4-byte words, the upper one its real part (spec/20_memory.md R50). -/
theorem loadElem_pk64_words (base i : Nat) (b : Buf) :
    loadElem .pk64 base i b = ⟨memRead b (base + 8 * i + 4) 4, memRead b (base + 8 * i) 4⟩ := by
  rw [loadElem_pk64, memRead_high_half, memRead_low_half]

/-- An element determines its bytes, in every format. -/
theorem byte_eq_of_loadElem_eq {F : Format} {base i x : Nat} {b b' : Buf}
    (h : loadElem F base i b = loadElem F base i b') (hlo : elemAddr F base i ≤ x)
    (hhi : x < elemAddr F base i + elemSize F) : b.byte x = b'.byte x := by
  cases F with
  | f32 =>
    simp only [loadElem, Cplx.mk.injEq] at h
    obtain ⟨hre, him⟩ := h
    exact byte_eq_of_two_memReads_eq (n := 4) (by omega) hre him hlo hhi
  | f64 =>
    simp only [loadElem, Cplx.mk.injEq] at h
    obtain ⟨hre, him⟩ := h
    exact byte_eq_of_two_memReads_eq (n := 8) (by omega) hre him hlo hhi
  | pk64 =>
    rw [loadElem_pk64_words, loadElem_pk64_words, Cplx.mk.injEq] at h
    obtain ⟨hre, him⟩ := h
    exact byte_eq_of_two_memReads_eq (n := 4) (by omega) him hre hlo hhi

/-- Every byte of a region belongs to one of its elements. -/
theorem exists_elem_of_inRegion {F : Format} {base m a : Nat} (h : inRegion F base m a) :
    ∃ i, i < 2 ^ m ∧ elemAddr F base i ≤ a ∧ a < elemAddr F base i + elemSize F := by
  obtain ⟨hlo, hhi⟩ := h
  have hpos : 0 < elemSize F := by cases F <;> decide
  have hmod := Nat.mod_lt (a - base) hpos
  have hdiv := Nat.div_add_mod (a - base) (elemSize F)
  refine ⟨(a - base) / elemSize F, (Nat.div_lt_iff_lt_mul hpos).2 (by omega), ?_, ?_⟩ <;> unfold elemAddr <;> omega

/-- Two buffers with the same elements, made of one buffer by changes to its region alone, have the same bytes. -/
theorem byte_eq_of_elements_eq {F : Format} {base m : Nat} {b c c' : Buf} (hc : SameOutside F base m b c)
    (hc' : SameOutside F base m b c') (h : ∀ i, i < 2 ^ m → loadElem F base i c = loadElem F base i c') (a : Nat) :
    c.byte a = c'.byte a := by
  by_cases ha : inRegion F base m a
  · obtain ⟨i, hi, hlo, hhi⟩ := exists_elem_of_inRegion ha
    exact byte_eq_of_loadElem_eq (h i hi) hlo hhi
  · rw [hc a ha, hc' a ha]

theorem SameOutside.refl (F : Format) (base m : Nat) (b : Buf) : SameOutside F base m b b := fun _ _ => rfl

end Sys2Proof.Machine
end

section
/-! SUPPORT. What BITREV leaves in each element: disjoint swaps exchange the elements of each pair, in any order
(spec/43_transform.md R123 to R125). -/

namespace Sys2Proof.Machine

/-! Disjoint swaps. -/

/-- Two pairs that share no index. -/
def PairsApart (p q : Nat × Nat) : Prop := p.1 ≠ q.1 ∧ p.1 ≠ q.2 ∧ p.2 ≠ q.1 ∧ p.2 ≠ q.2

theorem PairsApart.symm {p q : Nat × Nat} (h : PairsApart p q) : PairsApart q p := by
  obtain ⟨h11, h12, h21, h22⟩ := h
  exact ⟨h11.symm, h21.symm, h12.symm, h22.symm⟩

/-- An index of no pair keeps its element. -/
theorem loadElem_swapElems_of_not_mem {F : Format} {base k : Nat} {l : List (Nat × Nat)} (b : Buf)
    (h : ∀ p ∈ l, k ≠ p.1 ∧ k ≠ p.2) : loadElem F base k (swapElems F base l b) = loadElem F base k b :=
  swapElems_keeps (fun c => loadElem F base k c = loadElem F base k b) F base l b rfl fun p hp c hc => by
    obtain ⟨h1, h2⟩ := h p hp
    rw [loadElem_swap, if_neg h2, if_neg h1, hc]

/-- The two indices of a pair exchange their elements, where the pairs are disjoint. -/
theorem loadElem_swapElems_of_mem {F : Format} {base i r : Nat} {l : List (Nat × Nat)} (b : Buf)
    (hl : l.Pairwise PairsApart) (h : (i, r) ∈ l) :
    loadElem F base i (swapElems F base l b) = loadElem F base r b ∧
    loadElem F base r (swapElems F base l b) = loadElem F base i b := by
  induction l generalizing b with
  | nil => cases h
  | cons p rest ih =>
    obtain ⟨hp, hrest⟩ := List.pairwise_cons.1 hl
    rw [swapElems]
    rcases List.mem_cons.1 h with rfl | h
    · have hrest_i : ∀ q ∈ rest, i ≠ q.1 ∧ i ≠ q.2 := fun q hq => ⟨(hp q hq).1, (hp q hq).2.1⟩
      have hrest_r : ∀ q ∈ rest, r ≠ q.1 ∧ r ≠ q.2 := fun q hq => (hp q hq).2.2
      rw [loadElem_swapElems_of_not_mem _ hrest_i, loadElem_swapElems_of_not_mem _ hrest_r, loadElem_swap, loadElem_swap,
        if_pos rfl, if_pos rfl]
      exact ⟨ite_eq_right_iff.2 fun heq => by rw [heq], rfl⟩
    · obtain ⟨h11, h12, h21, h22⟩ := hp _ h
      obtain ⟨hi, hr⟩ := ih _ hrest h
      rw [hi, hr, loadElem_swap, loadElem_swap, if_neg h22.symm, if_neg h12.symm, if_neg h21.symm, if_neg h11.symm]
      exact ⟨rfl, rfl⟩

/-! The swaps of the bit reverser. -/

/-- Two pairs of the swap list with different first indices share no index: the second index is the reversal of the first,
and of two indices that are reversals of each other only the smaller one is a first index. -/
theorem swapPairs_apart (m : Nat) : (swapPairs m).Pairwise PairsApart := by
  refine (swapPairs_increasing m).imp_of_mem fun {p q} hp hq hlt => ?_
  obtain ⟨hpm, hpup, hprev⟩ := mem_swapPairs.1 hp
  obtain ⟨hqm, hqup, hqrev⟩ := mem_swapPairs.1 hq
  have hpback : bitRev m p.2 = p.1 := by rw [hprev, bitRev_bitRev hpm]
  have hqback : bitRev m q.2 = q.1 := by rw [hqrev, bitRev_bitRev hqm]
  refine ⟨hlt.ne, fun h => ?_, fun h => ?_, fun h => ?_⟩
  · rw [h, hqback] at hpup
    omega
  · rw [← h, hpback] at hqup
    omega
  · rw [h, hqback] at hpback
    omega

/-- The swaps of the bit reverser, in any order, put at index k the element that was at rev_m(k). -/
theorem loadElem_swapElems_of_perm {m k : Nat} {l : List (Nat × Nat)} (F : Format) (base : Nat) (b : Buf)
    (hl : l.Perm (swapPairs m)) (hk : k < 2 ^ m) :
    loadElem F base k (swapElems F base l b) = loadElem F base (bitRev m k) b := by
  have hapart : l.Pairwise PairsApart := (hl.pairwise_iff PairsApart.symm).2 (swapPairs_apart m)
  rcases Nat.lt_trichotomy k (bitRev m k) with hup | hfix | hdown
  · have hmem : (k, bitRev m k) ∈ l := hl.mem_iff.2 (mem_swapPairs.2 ⟨hk, hup, rfl⟩)
    exact (loadElem_swapElems_of_mem b hapart hmem).1
  · rw [← hfix]
    refine loadElem_swapElems_of_not_mem b fun p hp => ?_
    obtain ⟨hpm, hpup, hprev⟩ := mem_swapPairs.1 (hl.mem_iff.1 hp)
    constructor
    · rintro rfl
      omega
    · rintro rfl
      rw [hprev, bitRev_bitRev hpm] at hfix
      omega
  · have hmem : (bitRev m k, k) ∈ l :=
      hl.mem_iff.2 (mem_swapPairs.2 ⟨bitRev_lt m k, by rwa [bitRev_bitRev hk], (bitRev_bitRev hk).symm⟩)
    exact (loadElem_swapElems_of_mem b hapart hmem).2

theorem loadElem_swapElems {m k : Nat} (F : Format) (base : Nat) (b : Buf) (hk : k < 2 ^ m) :
    loadElem F base k (swapElems F base (swapPairs m) b) = loadElem F base (bitRev m k) b :=
  loadElem_swapElems_of_perm F base b (List.Perm.refl _) hk

/-- The swaps made twice restore every byte. -/
theorem byte_swapElems_twice (F : Format) (base m : Nat) (b : Buf) (a : Nat) :
    (swapElems F base (swapPairs m) (swapElems F base (swapPairs m) b)).byte a = b.byte a := by
  have hinside (e : Nat × Nat) (he : e ∈ swapPairs m) := swapPairs_lt he
  refine byte_eq_of_elements_eq (((SameOutside.refl F base m b).swapElems hinside).swapElems hinside)
    (SameOutside.refl F base m b) (fun i hi => ?_) a
  rw [loadElem_swapElems F base _ hi, loadElem_swapElems F base b (bitRev_lt m i), bitRev_bitRev hi]

/-- Settles O38: the swaps in any order put the same element at every index and leave the bytes outside the region. -/
theorem swapOrderDoesNotMatter : Obligations.SwapOrderDoesNotMatter := by
  unfold Obligations.SwapOrderDoesNotMatter
  refine fun m => ⟨swapPairs_apart m, fun F base l b hl => ?_⟩
  have houtside := SameOutside.refl F base m b
  refine byte_eq_of_elements_eq (houtside.swapElems fun e he => swapPairs_lt (hl.mem_iff.1 he))
    (houtside.swapElems fun e he => swapPairs_lt he) fun i hi => ?_
  rw [loadElem_swapElems_of_perm F base b hl hi, loadElem_swapElems F base b hi]

end Sys2Proof.Machine
end

section
/-! SUPPORT. Commands run one after another on one latched command, and the two orders and the repetition of BITREV
(spec/43_transform.md R124, R131, R134, R136). -/

namespace Sys2Proof.Machine

/-! Runs on one latched command. -/

/-- What a command completes with does not depend on the phase and on DONE before it. -/
theorem execRule_complete_setPhase (i : Instr) (lc : Latched) (s : State) (x : Option Latched) (d : Bool) :
    (execRule i lc { s with lc := x, done := d }).complete = (execRule i lc s).complete := by
  have htt (m : Nat) := buildTT_congr (s := s) (u := { s with lc := x, done := d }) rfl m
  have hpt (m : Nat) := buildPT_congr (s := s) (u := { s with lc := x, done := d }) rfl m
  rw [execRule_eq, execRule_eq]
  cases i <;> simp only [y0Rule, y1Rule, lookupTwiddles, lookupSwaps, htt, hpt, State.complete]

theorem runLatched_cons (lc : Latched) (i : Instr) (l : List Instr) (s : State) :
    runLatched lc (i :: l) s = runLatched lc l (execRule i lc s).complete := by
  rw [← execRule_complete_setPhase i lc s (some lc) s.done, runLatched, exec_latched i (s := { s with lc := some lc }) rfl]

/-- Commands on one latched command leave what their rules leave one after another, completed. -/
theorem runLatched_complete (lc : Latched) (l : List Instr) (s : State) :
    runLatched lc l s.complete = .next (runRules lc l s).complete := by
  induction l generalizing s with
  | nil => rfl
  | cons i l ih =>
    have hphase : (execRule i lc s.complete).complete = (execRule i lc s).complete :=
      execRule_complete_setPhase i lc s none true
    rw [runLatched_cons, hphase, ih]
    rfl

theorem runLatched_eq_runRules (lc : Latched) (i : Instr) (l : List Instr) (s : State) :
    runLatched lc (i :: l) s = .next (runRules lc (i :: l) s).complete := by
  rw [runLatched_cons, runLatched_complete]
  rfl

/-- Settles O30: both leave what the passes leave one after another, completed. -/
theorem fftEqualsItsPassSequence : Obligations.FftEqualsItsPassSequence := by
  unfold Obligations.FftEqualsItsPassSequence
  intro s lc F inv lut hlc hm
  refine ⟨_, exec_latched _ hlc, ?_⟩
  rw [execRule, ← runRules_passCommands F inv lut lc s hm]
  cases inv with
  | false => exact runLatched_eq_runRules lc _ _ s
  | true => exact runLatched_eq_runRules lc _ _ s

/-! BITREV on right tables. -/

/-- Building its own table does not change the swaps of a command, in either mode. -/
theorem bitrevPairs_lookupSwaps_same (lut lut' : Bool) (m : Nat) (s : State) :
    bitrevPairs lut' (lookupSwaps lut m s) m = bitrevPairs lut' s.pt m := by
  cases lut with
  | false => rfl
  | true =>
    cases lut' with
    | false => rfl
    | true => simp only [bitrevPairs, lookupSwaps, if_true, findKey_buildPT, Option.getD_some]

theorem bitrevPass_buf (F : Format) (lut : Bool) (lc : Latched) (s : State) :
    (bitrevPass F lut lc s).buf = swapElems F lc.base.toNat (bitrevPairs lut s.pt lc.m) s.buf := by
  rw [bitrevPass_eq, ← bitrevPairs_lookupSwaps_same lut lut lc.m s]
  rfl

theorem bitrevPass_pt (F : Format) (lut : Bool) (lc : Latched) (s : State) :
    (bitrevPass F lut lc s).pt = lookupSwaps lut lc.m s := by
  rw [bitrevPass_eq]
  rfl

/-- BITREV on right tables makes the swaps of the live bit reverser. -/
theorem bitrevPass_buf_right {s : State} (h : SwapTablesRight s.pt) (F : Format) (lut : Bool) (lc : Latched) :
    (bitrevPass F lut lc s).buf = swapElems F lc.base.toNat (swapPairs lc.m) s.buf := by
  rw [bitrevPass_buf, bitrevPairs_right h]

/-- A second BITREV, in either mode, makes the same swaps. -/
theorem bitrevPass_twice_buf_right {s : State} (h : SwapTablesRight s.pt) (F : Format) (lut lut' : Bool)
    (lc : Latched) :
    (bitrevPass F lut' lc (bitrevPass F lut lc s)).buf =
      swapElems F lc.base.toNat (swapPairs lc.m) (swapElems F lc.base.toNat (swapPairs lc.m) s.buf) := by
  rw [bitrevPass_buf, bitrevPass_pt, bitrevPairs_lookupSwaps_same, bitrevPairs_right h, bitrevPass_buf_right h]

/-- LUT mode leaves the table of its magnitude built with its contents. -/
theorem findKey_lookupSwaps_right {s : State} (h : SwapTablesRight s.pt) (m : Nat) :
    findKey (lookupSwaps true m s) m = some (swapPairs m) := by
  have hright : (findKey s.pt m).getD (swapPairs m) = swapPairs m := bitrevPairs_right h true m
  rw [← hright]
  exact (findKey_buildPT s m m).trans (if_pos rfl)

/-- The tables of other magnitudes stay as they are. -/
theorem findKey_lookupSwaps_other (lut : Bool) {m k : Nat} (s : State) (hk : k ≠ m) :
    findKey (lookupSwaps lut m s) k = findKey s.pt k := by
  cases lut with
  | false => rfl
  | true => exact (findKey_buildPT s m k).trans (if_neg hk)

/-- Settles O28: the swaps of right tables are the bit reverser's, which reverse every index, and twice restore it. -/
theorem bitrevPermutesTheBuffer : Obligations.BitrevPermutesTheBuffer := by
  unfold Obligations.BitrevPermutesTheBuffer
  intro s lc F lut lut' hlc hpt
  refine ⟨⟨swapElems F lc.base.toNat (swapPairs lc.m) s.buf, lookupSwaps lut lc.m s, ?_,
    fun i hi => loadElem_swapElems F _ s.buf hi,
    (SameOutside.refl F _ lc.m s.buf).swapElems fun e he => swapPairs_lt he, ?_, ?_,
    fun k hk => findKey_lookupSwaps_other lut s hk⟩, _, runLatched_eq_runRules lc _ _ s, fun a => ?_⟩
  · rw [exec_latched _ hlc, execRule, ← bitrevPass_buf_right hpt F lut, bitrevPass_eq]
    rfl
  · rintro rfl
    rfl
  · rintro rfl
    exact findKey_lookupSwaps_right hpt lc.m
  · have hbuf := bitrevPass_twice_buf_right hpt F lut lut' lc
    exact (congrArg (Buf.byte · a) hbuf).trans (byte_swapElems_twice F _ lc.m s.buf a)

/-- Replacing every element by a function of it commutes with the swaps, byte by byte. -/
theorem byte_mapElems_swapElems (F : Format) (base m : Nat) (f : Cplx → Cplx) (b : Buf)
    (hf : ∀ z, IsCValue (formatPrec F) z → IsCValue (formatPrec F) (f z)) (a : Nat) :
    (swapElems F base (swapPairs m) (mapElems F base (2 ^ m) f b)).byte a =
      (mapElems F base (2 ^ m) f (swapElems F base (swapPairs m) b)).byte a := by
  have houtside := SameOutside.refl F base m b
  refine byte_eq_of_elements_eq ((houtside.mapElems f).swapElems fun e he => swapPairs_lt he)
    ((houtside.swapElems fun e he => swapPairs_lt he).mapElems f) (fun i hi => ?_) a
  rw [loadElem_swapElems F base _ hi, loadElem_mapElems F base _ f b _ hf, loadElem_mapElems F base _ f _ _ hf,
    loadElem_swapElems F base b hi, if_pos hi, if_pos (bitRev_lt m i)]

/-- Settles O37: conjugation of every element commutes with the swaps. -/
theorem conjAndBitrevCommute : Obligations.ConjAndBitrevCommute := by
  unfold Obligations.ConjAndBitrevCommute
  intro s lc F lut hpt
  refine ⟨_, _, runLatched_eq_runRules lc _ _ s, runLatched_eq_runRules lc _ _ s, fun a => ?_⟩
  have hfirst : (bitrevPass F lut lc (conjPass F lc s)).buf = _ := bitrevPass_buf_right (s := conjPass F lc s) hpt F lut lc
  have hlast := bitrevPass_buf_right hpt F lut lc
  change (bitrevPass F lut lc (conjPass F lc s)).buf.byte a = (conjPass F lc (bitrevPass F lut lc s)).buf.byte a
  rw [hfirst, conjPass_eq, conjPass_eq, hlast]
  exact byte_mapElems_swapElems F _ lc.m _ s.buf (fun _ => isCValue_cconj) a

end Sys2Proof.Machine
end

section
/-! SUPPORT. The butterflies of a stage in any order (spec/43_transform.md R127). -/

namespace Sys2Proof.Machine

/-- Butterflies of half step h one after another, each named by its offset and its group. -/
def butterflies (F : Format) (base h : Nat) (tw : Nat → Cplx) (l : List (Nat × Nat)) (b : Buf) : Buf :=
  l.foldl (fun c p => stagePair F base h (tw p.1) (p.1 + p.2 * (2 * h)) c) b

/-- Different butterflies have no element in common, so an element is replaced where its butterfly is in the list, by its
value from the elements before all of them. -/
theorem loadElem_butterflies (F : Format) (base : Nat) {h : Nat} (tw : Nat → Cplx) {l : List (Nat × Nat)} (b : Buf)
    (hl : l.Nodup) (ho : ∀ p ∈ l, p.1 < h) (k : Nat) :
    loadElem F base k (butterflies F base h tw l b) =
      if (k % h, k / h / 2) ∈ l then stageValue (formatPrec F) h tw (fun i => loadElem F base i b) k
      else loadElem F base k b := by
  induction l generalizing b with
  | nil => simp [butterflies]
  | cons p rest ih =>
    obtain ⟨hp, hrest⟩ := List.nodup_cons.1 hl
    have hfirst := loadElem_stagePair_group F base h (ho p List.mem_cons_self) p.2 tw b
    change loadElem F base k (butterflies F base h tw rest (stagePair F base h (tw p.1) (p.1 + p.2 * (2 * h)) b)) = _
    rw [ih _ hrest fun q hq => ho q (List.mem_cons_of_mem p hq)]
    by_cases hmem : (k % h, k / h / 2) ∈ rest
    · rw [if_pos hmem, if_pos (List.mem_cons_of_mem p hmem)]
      refine stageValue_congr fun i hmod hdiv => (hfirst i).trans (if_neg ?_)
      rintro ⟨hoff, hgroup⟩
      exact hp (by rwa [← hmod, ← hdiv, hoff, hgroup] at hmem)
    · rw [if_neg hmem, hfirst]
      exact if_congr (by simp [hmem, Prod.ext_iff]) rfl rfl

theorem SameOutside.butterflies {F : Format} {base m h : Nat} {b c : Buf} (hc : SameOutside F base m b c)
    (tw : Nat → Cplx) {l : List (Nat × Nat)} (hl : ∀ p ∈ l, p.1 + p.2 * (2 * h) + h < 2 ^ m) :
    SameOutside F base m b (butterflies F base h tw l c) := by
  induction l generalizing c with
  | nil => exact hc
  | cons p rest ih =>
    have hlt := hl p List.mem_cons_self
    exact ih ((hc.storeElem _ (by omega)).storeElem _ hlt) fun q hq => hl q (List.mem_cons_of_mem p hq)

/-- The butterflies of stage j on 2^m elements: every offset with every group, in the order of R126. -/
theorem mem_stage_butterflies {m j : Nat} {p : Nat × Nat} :
    p ∈ List.range (2 ^ (j - 1)) ×ˢ List.range (2 ^ (m - j)) ↔
      p.1 < 2 ^ (j - 1) ∧ p.2 < 2 ^ (m - j) := by
  rw [List.mem_product, List.mem_range, List.mem_range]

/-- Offset and group of an index of the buffer. -/
theorem group_lt {m j k : Nat} (hj : 1 ≤ j) (hjm : j ≤ m) (hk : k < 2 ^ m) : k / 2 ^ (j - 1) / 2 < 2 ^ (m - j) := by
  rw [Nat.div_div_eq_div_mul, Nat.mul_comm, ← two_pow_eq_two_mul hj, ← Nat.pow_div hjm two_pos]
  exact Nat.div_lt_div_of_lt_of_dvd (Nat.pow_dvd_pow 2 hjm) hk

/-- Settles O39: every element is the operand of one butterfly, whose value does not depend on the order. -/
theorem butterflyOrderDoesNotMatter : Obligations.ButterflyOrderDoesNotMatter := by
  unfold Obligations.ButterflyOrderDoesNotMatter
  intro F base m j tw l b hj hjm hl
  have hmem (p : Nat × Nat) : p ∈ l ↔ p.1 < 2 ^ (j - 1) ∧ p.2 < 2 ^ (m - j) := hl.mem_iff.trans mem_stage_butterflies
  have hnodup : l.Nodup := hl.nodup_iff.2 (List.nodup_range.product List.nodup_range)
  have hstep : 2 * 2 ^ (j - 1) = 2 ^ j := (two_pow_eq_two_mul hj).symm
  have hhalf : 2 ^ j / 2 = 2 ^ (j - 1) := by omega
  have hinside (p : Nat × Nat) (hp : p ∈ l) : p.1 + p.2 * (2 * 2 ^ (j - 1)) + 2 ^ (j - 1) < 2 ^ m := by
    obtain ⟨ho, hg⟩ := (hmem p).1 hp
    have hlt : p.1 + p.2 * 2 ^ j + 2 ^ j / 2 < 2 ^ m :=
      stage_index_lt (by rwa [hhalf]) (by rwa [Nat.pow_div hjm two_pos])
    rwa [hstep, ← hhalf]
  have houtside := SameOutside.refl F base m b
  have heq := byte_eq_of_elements_eq (houtside.butterflies tw hinside) (houtside.stageElems j tw) fun k hk => by
    have hk' : (k % 2 ^ (j - 1), k / 2 ^ (j - 1) / 2) ∈ l :=
      (hmem _).2 ⟨Nat.mod_lt k (Nat.two_pow_pos _), group_lt hj hjm hk⟩
    rw [loadElem_butterflies F base tw b hnodup (fun p hp => ((hmem p).1 hp).1), if_pos hk',
      loadElem_stageElems F base hj hjm hk]
  rwa [butterflies, hstep] at heq

end Sys2Proof.Machine
end

section
/-! SUPPORT. FFT at magnitude 0, and FFT on buffers that hold the same elements in formats of one precision
(spec/43_transform.md R137, R141). -/

namespace Sys2Proof.Machine

/-! Magnitude 0. -/

/-- FFT on one element validates with magnitude 0, where the element lies in BUF. -/
theorem validate_fft_of_length_two {s : State} {F : Format} (inv lut : Bool) (hlen : s.len = 2)
    (halign : s.base.toNat % elemAlign F = 0) (hfit : s.base.toNat + elemSize F ≤ Config.bufBytes) :
    s.validate (encode (.fft F inv lut)) = .ok 0 := by
  refine (validateWord_buffer_ok (decode_encode (i := .fft F inv lut) rfl) rfl).2 ⟨?_, ?_, rfl⟩
  · rw [hlen]
    exact checkLength_two_pow Config.params 0
  · have hregion : ¬ Config.bufBytes < s.base.toNat + 2 ^ 0 * elemSize F := by omega
    rw [checkRegion, if_neg (not_not.2 halign)]
    exact if_neg hregion

/-- FFT at magnitude 0 leaves the state as it is. -/
theorem fftPasses_zero {lc : Latched} (F : Format) (inv lut : Bool) (s : State) (hm : lc.m = 0) :
    fftPasses F inv lut lc s = s := if_pos hm

/-- Settles O31: the write of CMD accepts with magnitude 0, and the ENGINE's turn only completes. -/
theorem fftOfMagnitudeZeroIsANoOp : Obligations.FftOfMagnitudeZeroIsANoOp := by
  unfold Obligations.FftOfMagnitudeZeroIsANoOp
  intro s F inv lut rest hidle hlen halign hfit hin
  have hdecode : decode (encode (.fft F inv lut)) = .ok (.fft F inv lut) := decode_encode rfl
  have hvalid := validate_fft_of_length_two inv lut hlen halign hfit
  have hissue := (step_cons hin).trans
    (hostStep_issue_accepted (s := { s with inputs := .engine :: rest }) hidle hvalid)
  have hbuffer : isBufferOp (encode (.fft F inv lut)) = true := isBufferOp_of_decode hdecode
  have hturn := run_engine_turn
    (s := ({ s with inputs := .engine :: rest } : State).noAnswer.accept (encode (.fft F inv lut)) 0)
    (accept_lc _ _ _) hdecode rfl
  refine (run_of_step hissue 1).trans (hturn.trans ?_)
  rw [execRule, fftPasses_zero F inv lut _ rfl]
  simp only [State.complete, State.accept, State.noAnswer, hbuffer, if_true, ← hidle]
  rfl

/-! Buffers with the same elements. -/

/-- Two buffers, in formats and at places of their own, hold the same 2^m elements. -/
def SameElements (F F' : Format) (base base' m : Nat) (b b' : Buf) : Prop :=
  ∀ i, i < 2 ^ m → loadElem F base i b = loadElem F' base' i b'

section

variable {F F' : Format} {base base' m : Nat} {b b' : Buf}

theorem SameElements.mapElems (h : SameElements F F' base base' m b b') (hP : formatPrec F = formatPrec F')
    (f : Cplx → Cplx) (hf : ∀ z, IsCValue (formatPrec F) z → IsCValue (formatPrec F) (f z)) :
    SameElements F F' base base' m (mapElems F base (2 ^ m) f b) (mapElems F' base' (2 ^ m) f b') := fun i hi => by
  rw [loadElem_mapElems F _ _ f b i hf, loadElem_mapElems F' _ _ f b' i (hP ▸ hf), if_pos hi, if_pos hi, h i hi]

theorem SameElements.swapElems (h : SameElements F F' base base' m b b') :
    SameElements F F' base base' m (swapElems F base (swapPairs m) b) (swapElems F' base' (swapPairs m) b') :=
  fun i hi => by rw [loadElem_swapElems F _ b hi, loadElem_swapElems F' _ b' hi, h _ (bitRev_lt m i)]

/-- The other operand of an element's butterfly lies in the buffer too. -/
theorem lt_of_same_group {j i k : Nat} (hj : 1 ≤ j) (hjm : j ≤ m) (hk : k < 2 ^ m)
    (h : i / 2 ^ (j - 1) / 2 = k / 2 ^ (j - 1) / 2) : i < 2 ^ m := by
  rw [Nat.div_div_eq_div_mul, Nat.div_div_eq_div_mul, Nat.mul_comm, ← two_pow_eq_two_mul hj] at h
  exact Nat.lt_of_div_lt_div (h ▸ Nat.div_lt_div_of_lt_of_dvd (Nat.pow_dvd_pow 2 hjm) hk)

theorem SameElements.stageElems (h : SameElements F F' base base' m b b') (hP : formatPrec F = formatPrec F') {j : Nat}
    (hj : 1 ≤ j) (hjm : j ≤ m) (tw : Nat → Cplx) :
    SameElements F F' base base' m (stageElems F base m j tw b) (stageElems F' base' m j tw b') := fun k hk => by
  rw [loadElem_stageElems F base hj hjm hk, loadElem_stageElems F' base' hj hjm hk, hP]
  exact stageValue_congr fun i _ hdiv => h i (lt_of_same_group hj hjm hk hdiv)

theorem SameElements.stagesRule (h : SameElements F F' base base' m b b') (hP : formatPrec F = formatPrec F')
    (tw : Nat → Nat → TwiddlePair) :
    SameElements F F' base base' m (stagesRule F base m m tw b) (stagesRule F' base' m m tw b') :=
  forRange_related (SameElements F F' base base' m) m h fun n _ _ hn hr => by
    rw [← hP]
    exact hr.stageElems hP (Nat.le_add_left 1 n) hn _

theorem SameElements.fftRule (h : SameElements F F' base base' m b b') (hP : formatPrec F = formatPrec F') (inv : Bool)
    (tw : Nat → Nat → TwiddlePair) :
    SameElements F F' base base' m (fftRule F inv base m (swapPairs m) tw b)
      (fftRule F' inv base' m (swapPairs m) tw b') := by
  unfold Machine.fftRule
  rw [← hP]
  split
  · exact h
  · cases inv with
    | false => exact h.swapElems.stagesRule hP tw
    | true =>
      have hconj := h.mapElems hP (cconj (formatPrec F)) fun _ => isCValue_cconj
      exact (hconj.swapElems.stagesRule hP tw).mapElems hP (cnorm (formatPrec F) · m) fun z _ => isCValue_cnorm _ z m

end

/-- Settles O36: every pass acts on the elements by operations of the precision alone, so that the elements stay equal, even
in the bits of a NaN, which NAN_FN draws by the operands (log entry 8). -/
theorem f32AndPk64TransformsAgree : Obligations.F32AndPk64TransformsAgree := by
  unfold Obligations.F32AndPk64TransformsAgree
  intro s s' lc lc' inv lut lut' hlc hlc' hm htt hpt htt' hpt' hsame
  refine ⟨_, _, exec_latched _ hlc, exec_latched _ hlc', fun i hi => ?_⟩
  have hresult : SameElements .f32 .pk64 lc.base.toNat lc'.base.toNat lc.m
      (fftRule .f32 inv lc.base.toNat lc.m (swapPairs lc.m) (fun j o => tw64 o j) s.buf)
      (fftRule .pk64 inv lc'.base.toNat lc.m (swapPairs lc.m) (fun j o => tw64 o j) s'.buf) :=
    SameElements.fftRule hsame rfl inv _
  rw [complete_buf, complete_buf, execRule_buf_live _ lc htt hpt, execRule_buf_live _ lc' htt' hpt', bufferRule, bufferRule,
    ← hm, hresult i hi]
  exact ⟨.inl rfl, .inl rfl⟩

end Sys2Proof.Machine
end

section
/-! SUPPORT. Exceptions (spec/60_exceptions.md): the order in which validation reports its causes, and what completion and
the other steps do to the STATUS bits. -/

namespace Sys2Proof.Machine

/-! The order of validation (R144): each check is reached when those before it have passed. -/

section ValidationOrder

variable {p : Params} {base len idx w : Word} {i : Instr} {F : Format} {m : Nat} {c : ErrCode}

/-- A word that is no command is reported by its own form, whatever the registers hold. -/
theorem validateWord_decodeError {e : DecodeError} (hd : decode w = .error e) :
    validateWord p base len idx w = .error (decodeErrCode e) := by
  simp only [validateWord, hd]

/-- The length is the first check of a buffer command (spec/40_commands.md R80). -/
theorem validateWord_lengthError (hd : decode w = .ok i) (hF : i.bufferFormat = some F)
    (hlen : checkLength p len.toNat = .error c) : validateWord p base len idx w = .error c := by
  simp only [validateWord, hd, hF, hlen]

/-- The region is checked once the length has given a magnitude (spec/40_commands.md R81). -/
theorem validateWord_regionError (hd : decode w = .ok i) (hF : i.bufferFormat = some F)
    (hlen : checkLength p len.toNat = .ok m) (hregion : checkRegion p F base.toNat m = some c) :
    validateWord p base len idx w = .error c := by
  simp only [validateWord, hd, hF, hlen, hregion]

/-- The argument of a buffer command is checked last (spec/40_commands.md R82). -/
theorem validateWord_argError (hd : decode w = .ok i) (hF : i.bufferFormat = some F)
    (hlen : checkLength p len.toNat = .ok m) (hregion : checkRegion p F base.toNat m = none)
    (harg : checkArg p i m idx.toNat = some c) : validateWord p base len idx w = .error c := by
  simp only [validateWord, hd, hF, hlen, hregion, harg]

/-- The argument check is the only one of a command without a buffer. -/
theorem validateWord_unbuffered_error (hd : decode w = .ok i) (hF : i.bufferFormat = none)
    (harg : checkArg p i 0 idx.toNat = some c) : validateWord p base len idx w = .error c := by
  simp only [validateWord, hd, hF, harg]

theorem validateWord_unbuffered_ok (hd : decode w = .ok i) (hF : i.bufferFormat = none)
    (harg : checkArg p i 0 idx.toNat = none) : validateWord p base len idx w = .ok i.arg := by
  simp only [validateWord, hd, hF, harg]

theorem checkRegion_misaligned {b : Nat} (h : b % elemAlign F ≠ 0) : checkRegion p F b m = some .align := if_pos h

/-- The region of an aligned buffer fits, or is BUF_RANGE. -/
theorem checkRegion_aligned {b : Nat} (h : b % elemAlign F = 0) :
    checkRegion p F b m = if p.bufBytes < b + 2 ^ m * elemSize F then some .bufRange else none :=
  if_neg (not_not.2 h)

/-- Of the buffer commands STAGE alone has an argument to check. -/
theorem checkArg_buffer_none {k : Nat} (hF : i.bufferFormat = some F)
    (h : ∀ lut j, i = .stage F lut j → 1 ≤ j ∧ j ≤ m) : checkArg p i m k = none := by
  cases i with
  | stage F' lut j =>
    cases hF
    obtain ⟨hlow, hhigh⟩ := h lut j rfl
    exact if_neg (by omega)
  | fft | bitrev | conj | inorm => rfl
  | nop | twgen | ptgen | twread | cmul | bfly => cases hF

/-- A buffer command whose length is 2^m elements with m ≤ MMAX: the region, then the argument, else m. -/
theorem validateWord_buffer_of_length (hd : decode w = .ok i) (hF : i.bufferFormat = some F)
    (hlen : checkLength p len.toNat = .ok m) :
    (base.toNat % elemAlign F ≠ 0 → validateWord p base len idx w = .error .align) ∧
    (base.toNat % elemAlign F = 0 → p.bufBytes < base.toNat + 2 ^ m * elemSize F →
      validateWord p base len idx w = .error .bufRange) ∧
    (base.toNat % elemAlign F = 0 → base.toNat + 2 ^ m * elemSize F ≤ p.bufBytes →
      (∀ lut j, i = .stage F lut j → j < 1 ∨ m < j → validateWord p base len idx w = .error .argRange) ∧
      ((∀ lut j, i = .stage F lut j → 1 ≤ j ∧ j ≤ m) → validateWord p base len idx w = .ok m)) := by
  refine ⟨fun ha => validateWord_regionError hd hF hlen (checkRegion_misaligned ha),
    fun ha hout => validateWord_regionError hd hF hlen ((checkRegion_aligned ha).trans (if_pos hout)), fun ha hfits => ?_⟩
  have hregion : checkRegion p F base.toNat m = none := (checkRegion_aligned ha).trans (if_neg (Nat.not_lt.2 hfits))
  refine ⟨?_, fun hj => (validateWord_buffer_ok hd hF).2 ⟨hlen, hregion, checkArg_buffer_none hF hj⟩⟩
  rintro lut j rfl hj
  exact validateWord_argError hd hF hlen hregion (if_pos hj)

/-- TWGEN and PTGEN take a magnitude up to MMAX. -/
theorem validateWord_tableBuild {n : Nat} (hd : decode w = .ok (.twgen n) ∨ decode w = .ok (.ptgen n)) :
    (p.mmax < n → validateWord p base len idx w = .error .argRange) ∧
    (n ≤ p.mmax → validateWord p base len idx w = .ok n) := by
  rcases hd with hd | hd
  all_goals exact ⟨fun hn => validateWord_unbuffered_error hd rfl (if_pos hn),
    fun hn => validateWord_unbuffered_ok hd rfl (if_neg (Nat.not_lt.2 hn))⟩

/-- TWREAD takes a magnitude from 1 to MMAX and then an index below 2^(m-1). -/
theorem validateWord_twread {P : Prec} {lut : Bool} {n : Nat} (hd : decode w = .ok (.twread P lut n)) :
    (n < 1 ∨ p.mmax < n → validateWord p base len idx w = .error .argRange) ∧
    (1 ≤ n → n ≤ p.mmax → 2 ^ (n - 1) ≤ idx.toNat → validateWord p base len idx w = .error .argRange) ∧
    (1 ≤ n → n ≤ p.mmax → idx.toNat < 2 ^ (n - 1) → validateWord p base len idx w = .ok n) := by
  refine ⟨fun hn => validateWord_unbuffered_error hd rfl (if_pos hn), fun hlow hhigh hk => ?_, fun hlow hhigh hk => ?_⟩
  · exact validateWord_unbuffered_error hd rfl ((if_neg (by omega)).trans (if_pos hk))
  · exact validateWord_unbuffered_ok hd rfl ((if_neg (by omega)).trans (if_neg (Nat.not_le.2 hk)))

end ValidationOrder

/-- Settles O7: the checks in their order, with the length check by its three cases of LEN. -/
theorem validationReportsErrorsInOrder : Obligations.ValidationReportsErrorsInOrder := by
  unfold Obligations.ValidationReportsErrorsInOrder
  refine fun p base len idx w => ⟨validateWord_decodeError, validateWord_decodeError, fun i F hd hF => ⟨fun hodd => ?_,
    fun heven hpow => ?_, fun m hL => ⟨fun hm => ?_, fun hm => ?_⟩⟩, fun n => validateWord_tableBuild,
    fun P lut n => validateWord_twread, ?_⟩
  · exact validateWord_lengthError hd hF (checkLength_odd p hodd)
  · exact validateWord_lengthError hd hF (checkLength_even_not_pow p heven hpow)
  · exact validateWord_lengthError hd hF (by rw [hL, checkLength_two_pow, if_pos hm])
  · exact validateWord_buffer_of_length hd hF (by rw [hL, checkLength_two_pow, if_neg (Nat.not_lt.2 hm)])
  · rintro P (hd | hd | hd)
    all_goals exact validateWord_unbuffered_ok hd rfl rfl

/-! The STATUS bits. -/

/-- Settles O32: a latched command completes with its rule's state, and no rule writes ERR, ERRCODE or OVR. -/
theorem everyLatchedCommandCompletes : Obligations.EveryLatchedCommandCompletes := by
  unfold Obligations.EveryLatchedCommandCompletes
  intro i s hbusy
  obtain ⟨lc, hlc⟩ := Option.ne_none_iff_exists'.1 hbusy
  have he := exec_latched i hlc
  obtain ⟨-, -, -, ht⟩ := exec_next he
  refine ⟨_, he, ?_⟩
  rw [ht]
  exact ⟨rfl, rfl, rfl, rfl, rfl⟩

/-- A bit that a step can only clear does not go from 0 to 1. -/
theorem cleared_not_rising (bit keep : Bool) : (!bit && (bit && keep)) = false := by
  cases bit <;> rfl

/-- Settles O48: completion can set DONE alone, acceptance BUSY, rejection ERR, and an overrun OVR; no other step sets a
bit. -/
theorem noStepSetsTwoStatusBits : Obligations.NoStepSetsTwoStatusBits := by
  unfold Obligations.NoStepSetsTwoStatusBits
  intro s t h
  cases status_case h with
  | kept hlc hdone herr hovr => simp [hlc, hdone, herr, hovr]
  | completed _ _ hlc hdone herr hovr => cases s.done <;> simp [hlc, hdone, herr, hovr]
  | accepted _ _ _ hidle _ hlc hdone herr hovr =>
    have hbusy : t.lc.isSome = true := Option.isSome_iff_ne_none.2 hlc
    simp [hidle, hbusy, hdone, herr, hovr]
  | rejected _ _ _ _ _ hlc hdone herr _ hovr => cases s.err <;> simp [hlc, hdone, herr, hovr]
  | statusWritten _ _ hlc hdone herr _ hovr => simp [hlc, hdone, herr, hovr, cleared_not_rising]
  | overran _ _ _ _ hlc hdone herr hovr => cases s.ovr <;> simp [hlc, hdone, herr, hovr]
  | reset _ hlc hdone herr _ hovr => simp [hlc, hdone, herr, hovr]

end Sys2Proof.Machine
end

section
/-! SUPPORT. The encoding vectors of spec/95_test_vectors.md section 2.1, through the encoder. -/

namespace Sys2Proof.Machine

/-- The word of a well-formed command decodes to it, in the form in which the vectors are listed. -/
theorem decode_toOption_of_encode_eq {w : Word} {i : Instr} (h : i.wellFormed = true ∧ encode i = w) :
    (decode w).toOption = some i := by
  obtain ⟨hi, rfl⟩ := h
  rw [decode_encode hi]
  rfl

/-- Settles O3: each listed word is the encoding of its command, so that decode after encode gives the command back. -/
theorem specWordsDecodeAsListed : Obligations.SpecWordsDecodeAsListed := by
  unfold Obligations.SpecWordsDecodeAsListed
  intro p hp
  apply decode_toOption_of_encode_eq
  revert p
  decide

end Sys2Proof.Machine
end
